-- ==== Sys2Proof/Word.lean ====
section
/-!
DEFINITION. The word types of the PEPE: 16-bit registers and addresses, 8-bit bytes (00_scope.md R5).
-/
namespace Sys2Proof

/-- A 16-bit register value or byte address (R5, R20, R60). -/
abbrev Word := BitVec 16

/-- One byte of memory (R5, R60). -/
abbrev Byte := BitVec 8

end Sys2Proof
end

