-- ==== Sys2Proof/Config.lean ====
section
/-!
DEFINITION. What the manual leaves open: the choices an implementation makes (00_scope.md R6) as types, and the free
values (`any16`, `anybit` of R8; 93_implementation_defined.md) as constants with no body. The values chosen for the
parameters stand in Sys2Proof/Machine/Params.lean.
-/
namespace Sys2Proof.Config

/-- `DIVMOD_CONVENTION` (R6, D7): how DIV and MOD read their operands and round. -/
inductive DivMod where
  /-- signed operands, quotient truncated toward zero: the spec's default -/
  | signedTruncating
  /-- unsigned operands: the alternative D7 names -/
  | unsigned
deriving DecidableEq, Repr

/-- `FAULT_RER` (R6, D11): the return address saved by DIV0 and D_DESALINHADO. -/
inductive FaultRer where
  /-- the address after the instruction: the spec's default -/
  | eis
  /-- the address of the instruction itself: the alternative D11 names -/
  | cur
deriving DecidableEq, Repr

/-- `AUX_REGS` (R6, D22): the auxiliary registers that MOVAR and MOVRA reach. -/
inductive AuxRegs where
  /-- sixteen plain 16-bit cells: the spec's default -/
  | plain
  /-- programs that use them are refused: the alternative D22 names -/
  | refuse
deriving DecidableEq, Repr

/-- `MEM_MAP` (R6, R73, D17): what stands behind a byte address. A device would be a platform's own and is none of the
spec's. -/
inductive MemKind where
  /-- plain read-write memory: the spec's default for every address -/
  | ram
  /-- read-only memory: a write changes nothing -/
  | rom
deriving DecidableEq, Repr

/-- `DMA_AGENT` (R6, R350, D28): one access of the external DMA master. A word access is two of them in a row: no access of
the processor comes between those of one gap. -/
inductive DmaAccess where
  /-- a byte read -/
  | read (a : Word)
  /-- a byte written -/
  | write (a : Word) (v : Byte)
deriving DecidableEq, Repr

/-- `any16` (R8): the 16-bit value of the `n`-th draw. It has no body: nothing can be proved of its value. -/
opaque freeWord : Nat → Word

/-- `anybit` (R8): the bit of the `n`-th draw. It has no body: nothing can be proved of its value. -/
opaque freeBit : Nat → Bool

end Sys2Proof.Config
end

