-- ==== Sys2Proof/Machine/Flags.lean ====
section
/-!
DEFINITION. The bits of RE (10_state.md R32, R33), flag updates (R31, R34, R35), and every flag computation of the spec,
on words alone: sums and differences (40_arithmetic.md R130), product (R139), shifts and rotates (42_shift_rotate.md
R191 to R198), the jump conditions (30_encoding.md R104).
-/
namespace Sys2Proof.Machine

/-- The fields of RE (R33), the reserved bits 15 and 14 apart. -/
inductive ReField where
  | z | n | c | v | a | tv | td | ie | ie0 | ie1 | ie2 | ie3 | de | np
deriving DecidableEq, Repr

/-- The bit of RE that holds a field (R32, R33). -/
def ReField.index : ReField → Nat
  | .z => 0 | .n => 1 | .c => 2 | .v => 3 | .a => 4 | .tv => 5 | .td => 6 | .ie => 7
  | .ie0 => 8 | .ie1 => 9 | .ie2 => 10 | .ie3 => 11 | .de => 12 | .np => 13

/-- The enable bit of interrupt `i`: IE0 to IE3 (R33). -/
def ReField.ieOf (i : Fin 4) : ReField :=
  match i with
  | 0 => .ie0 | 1 => .ie1 | 2 => .ie2 | 3 => .ie3

/-- `w` with bit `i` set to `b`. -/
def putBit (w : Word) (i : Nat) (b : Bool) : Word :=
  if b then w ||| ((1 : Word) <<< i) else w &&& ~~~((1 : Word) <<< i)

/-- `putBit` where a value is given; otherwise the bit is left alone. -/
def putBit? (w : Word) (i : Nat) : Option Bool → Word
  | none => w
  | some b => putBit w i b

/-- The flags an instruction lists as affected and their new values (R34, R35); a flag it does not list is `none`. -/
structure FlagUpd where
  z : Option Bool := none
  n : Option Bool := none
  c : Option Bool := none
  v : Option Bool := none
deriving DecidableEq, Repr

/-- RE after a flag update: the listed flags assigned, every other bit kept (R35). -/
def FlagUpd.apply (f : FlagUpd) (re : Word) : Word :=
  putBit? (putBit? (putBit? (putBit? re ReField.z.index f.z) ReField.n.index f.n) ReField.c.index f.c) ReField.v.index f.v

/-- No flag ("Nenhuma"). -/
def FlagUpd.nothing : FlagUpd := {}

/-- `ZN(r)` (R130): Z and N from a result. -/
def flagsZN (r : Word) : FlagUpd := { z := some (r == 0), n := some r.msb }

/-- `ZN(r)` and C. -/
def flagsZNC (r : Word) (c : Bool) : FlagUpd := { flagsZN r with c := some c }

/-- `ZN(r)`, C and V. -/
def flagsZNCV (r : Word) (c v : Bool) : FlagUpd := { flagsZN r with c := some c, v := some v }

/-- A 16-bit result with its carry (or borrow) and overflow. -/
structure Alu where
  r : Word
  c : Bool
  v : Bool
deriving DecidableEq, Repr

/-- `addc(a, b, cin)` (R130). -/
def addc (a b : Word) (cin : Bool) : Alu :=
  let exact := a.toNat + b.toNat + cin.toNat
  let r := BitVec.ofNat 16 exact
  { r, c := decide (2 ^ 16 ≤ exact), v := (a.msb == b.msb) && (r.msb != a.msb) }

/-- `subb(a, b, bin)` (R130): C is the borrow (D4; log 9), V signed overflow (D5; log 10). -/
def subb (a b : Word) (bin : Bool) : Alu :=
  let exact : Int := (a.toNat : Int) - b.toNat - bin.toNat
  let r := BitVec.ofInt 16 exact
  { r, c := decide (exact < 0), v := (a.msb != b.msb) && (r.msb != a.msb) }

/-- An exact signed value does not fit 16 bits (R34). -/
def outOfRange (x : Int) : Bool := decide (x < -32768 ∨ 32767 < x)

/-- The overflow bit of MUL: the signed product does not fit (R139, D6). -/
def mulV (a b : Word) : Bool := outOfRange (a.toInt * b.toInt)

/-- The quotient of a non-zero divisor under a convention (R140); `none` where the spec states no value
(-32768 / -1 in the signed convention, D9; log 14). -/
def quotient (conv : Config.DivMod) (a b : Word) : Option Word :=
  match conv with
  | .signedTruncating => if a = 0x8000 ∧ b = 0xFFFF then none else some (BitVec.ofInt 16 (a.toInt.tdiv b.toInt))
  | .unsigned => some (BitVec.ofNat 16 (a.toNat / b.toNat))

/-- The remainder that goes with `quotient` (R142): `a = q * b + m`. -/
def remainder (conv : Config.DivMod) (a b : Word) : Word :=
  match conv with
  | .signedTruncating => BitVec.ofInt 16 (a.toInt - a.toInt.tdiv b.toInt * b.toInt)
  | .unsigned => BitVec.ofNat 16 (a.toNat % b.toNat)

/-- A shifted or rotated word with the bit that goes to C. -/
structure Shifted where
  r : Word
  c : Bool
deriving DecidableEq, Repr

/-- SHR by `n > 0` (R191): `C ← Rd(n-1); Rd ← 0{n} ‖ Rd(15..n)`. -/
def shrBy (a : Word) (n : Nat) : Shifted := { r := a >>> n, c := a.getLsbD (n - 1) }

/-- SHL by `n > 0` (R192): `C ← Rd(15-n+1); Rd ← Rd(15-n..0) ‖ 0{n}`. -/
def shlBy (a : Word) (n : Nat) : Shifted := { r := a <<< n, c := a.getLsbD (16 - n) }

/-- SHRA by `n > 0` (R193): the sign bit is replicated. -/
def shraBy (a : Word) (n : Nat) : Shifted := { r := a.sshiftRight n, c := a.getLsbD (n - 1) }

/-- V of SHLA by `n > 0` (R194): some bit that leaves, `a[15:16-n]`, differs from bit 15 of the result. -/
def shlaV (a : Word) (n : Nat) : Bool :=
  (List.range n).any fun j => a.getLsbD (15 - j) != (a <<< n).msb

/-- ROR by `n > 0` (R195): `Rd(n-1..0) ‖ Rd(15..n)`. -/
def rorBy (a : Word) (n : Nat) : Shifted := { r := a.rotateRight n, c := a.getLsbD (n - 1) }

/-- ROL by `n > 0` (R196): `Rd(15-n..0) ‖ Rd(15..15-n+1)`. -/
def rolBy (a : Word) (n : Nat) : Shifted := { r := a.rotateLeft n, c := a.getLsbD (16 - n) }

/-- RORC by `n > 0` (R197): the 17-bit string `Rd ‖ C` rotated right by `n`. -/
def rorcBy (a : Word) (c0 : Bool) (n : Nat) : Shifted :=
  let t := (a ++ BitVec.ofBool c0 : BitVec 17).rotateRight n
  { r := t.extractLsb' 1 16, c := t.getLsbD 0 }

/-- ROLC by `n > 0` (R198): the 17-bit string `C ‖ Rd` rotated left by `n`. -/
def rolcBy (a : Word) (c0 : Bool) (n : Nat) : Shifted :=
  let t := (BitVec.ofBool c0 ++ a : BitVec 17).rotateLeft n
  { r := t.extractLsb' 0 16, c := t.getLsbD 16 }

/-- The sixteen conditions (R104). -/
inductive Cond where
  | z | nz | n | nn | p | np | c | nc | v | nv | a | na | lt | le | gt | ge
deriving DecidableEq, Repr

/-- When a conditional jump is taken, from RE as it stands (R104, R252 to R267). -/
def Cond.holds (cond : Cond) (re : Word) : Bool :=
  let z := re.getLsbD ReField.z.index
  let n := re.getLsbD ReField.n.index
  let c := re.getLsbD ReField.c.index
  let v := re.getLsbD ReField.v.index
  let a := re.getLsbD ReField.a.index
  match cond with
  | .z => z
  | .nz => !z
  | .n => n
  | .nn => !n
  | .p => !(n || z)
  | .np => n || z
  | .c => c
  | .nc => !c
  | .v => v
  | .nv => !v
  | .a => a
  | .na => !a
  | .lt => n ^^ v
  | .le => (n ^^ v) || z
  | .gt => !((n ^^ v) || z)
  | .ge => !(n ^^ v)

end Sys2Proof.Machine
end

