-- ==== Sys2Proof/Machine/Params.lean ====
section
/-!
DEFINITION. The named parameters of 00_scope.md R6 at the spec's defaults: each choice the spec makes where the manual is silent
stands behind its parameter and is read from there (R13). OPMAP stands in Sys2Proof/Machine/Opmap.lean; END_OF_RUN is
`State.endOfRun` of Sys2Proof/Safety.lean.
-/
namespace Sys2Proof.Machine.Params

/-- `RESET_PC` (R46, D14), PRESUMED: "from general knowledge, not in source". Unsafe. Log 3. -/
def resetPc : Word := 0x0000

/-- `DIVMOD_CONVENTION` (R140, R142, D7), DESIGN CHOICE of the spec. Unsafe. Log 12. -/
def divMod : Config.DivMod := .signedTruncating

/-- `FAULT_RER` (R331, D11), DESIGN CHOICE of the spec. Unsafe. Log 17. -/
def faultRer : Config.FaultRer := .eis

/-- `IFETCH_FAULT_RER` (R331, D11), from the odd pc: DESIGN CHOICE of the spec, that pc itself. Unsafe. Log 17. -/
def ifetchFaultRer (pc : Word) : Word := pc

/-- `EXCESSO_WRITES_RESULT` (R144, D23), DESIGN CHOICE of the spec. Unsafe. Log 26. -/
def excessoWritesResult : Bool := true

/-- `INT_LATCH_WHILE_MASKED` (R339, D15), DESIGN CHOICE of the spec. Unsafe. Log 20. -/
def intLatchWhileMasked : Bool := true

/-- `AUX_REGS` (R40, D22), DESIGN CHOICE of the spec. Unsafe. Log 25. -/
def auxRegs : Config.AuxRegs := .plain

/-- `DMA_AGENT` (R350, D28), DESIGN CHOICE of the spec: none. What a DMA master present will do is set in `State.gaps` and
`State.env` instead. Unsafe. Log 31. -/
def dmaAgent : List (List Config.DmaAccess) := []

/-- `MEM_MAP` (R73, D17), DESIGN CHOICE of the spec: all 64 KiB plain memory. Unsafe. Log 7. -/
def memMap (_address : Word) : Config.MemKind := .ram

/-- What a byte of memory that nothing has written reads as: DESIGN CHOICE 00H (R46 "unspecified"). Unsafe. Log 6. -/
def unlistedByte : Byte := 0x00

/-- What a register holds after reset where the manual states nothing (R46): DESIGN CHOICE 0000H. Unsafe. Log 4. -/
def resetWord : Word := 0x0000

end Sys2Proof.Machine.Params
end

