-- ==== Sys2Proof/Syntax.lean ====
section
/-!
DEFINITION. The instructions of the PEPE: one constructor per row of `spec/opcode_table.json` (30_encoding.md
R100 to R105, R110), with the operands as the assembly writes them (R94, R95): registers by name, constants as
integers, displacements in words.
-/
namespace Sys2Proof

/-- A register operand, 0 to 15 (R20, R94): R0 to R10, then RL, SP, RE, BTE, TEMP. `sp` is the NAME R12: which of
the two stack pointers it stands for depends on RE.NP (R27). -/
inductive Reg where
  | r (i : Fin 11)
  | rl
  | sp
  | re
  | bte
  | temp
deriving DecidableEq, Repr

/-- An auxiliary register number, A0 to A15 (R40, R94). -/
abbrev AReg := Fin 16

/-- The 75 machine instructions (R110). `k`, `n`, `off`, `dif` range as `Instr.wellFormed` says. -/
inductive Instr where
  -- ARITOP (R101)
  | add (rd rs : Reg)
  | addi (rd : Reg) (k : Int)
  | addc (rd rs : Reg)
  | sub (rd rs : Reg)
  | subi (rd : Reg) (k : Int)
  | subb (rd rs : Reg)
  | cmp (rd rs : Reg)
  | cmpi (rd : Reg) (k : Int)
  | mul (rd rs : Reg)
  | div (rd rs : Reg)
  | mod (rd rs : Reg)
  | neg (rd : Reg)
  | shra (rd : Reg) (n : Nat)
  | shla (rd : Reg) (n : Nat)
  -- BITOP (R102)
  | and (rd rs : Reg)
  | or (rd rs : Reg)
  | not (rd : Reg)
  | xor (rd rs : Reg)
  | test (rd rs : Reg)
  | bit (rd : Reg) (n : Nat)
  | setbit (rd : Reg) (n : Nat)
  | clrbit (rd : Reg) (n : Nat)
  | cplbit (rd : Reg) (n : Nat)
  | shr (rd : Reg) (n : Nat)
  | shl (rd : Reg) (n : Nat)
  | ror (rd : Reg) (n : Nat)
  | rol (rd : Reg) (n : Nat)
  | rorc (rd : Reg) (n : Nat)
  | rolc (rd : Reg) (n : Nat)
  -- format R3 (R100): `MOV Rd, [Rs + off]`, `MOV Rd, [Rs + Ri]`, `MOV [Rd + off], Rs`, `MOV [Rd + Ri], Rs`
  | ldo (rd rs : Reg) (off : Int)
  | ldr (rd rs ri : Reg)
  | sto (rd : Reg) (off : Int) (rs : Reg)
  | str (rd ri rs : Reg)
  -- XFER (R103)
  | ldb (rd rs : Reg)
  | stb (rd rs : Reg)
  | ldp (rd rs : Reg)
  | stp (rd rs : Reg)
  | movrr (rd rs : Reg)
  | movar (ad : AReg) (rs : Reg)
  | movra (rd : Reg) (ax : AReg)
  | movru (rd : Reg)
  | movur (rs : Reg)
  | swapr (rd rs : Reg)
  | swapm (rd rs : Reg)
  | push (rd : Reg)
  | pop (rd : Reg)
  -- format RI8 (R100)
  | movl (rd : Reg) (k : Int)
  | movh (rd : Reg) (k : Nat)
  -- COND (R104): the displacement counts words from EIS (R97)
  | jz (dif : Int)
  | jnz (dif : Int)
  | jn (dif : Int)
  | jnn (dif : Int)
  | jp (dif : Int)
  | jnp (dif : Int)
  | jc (dif : Int)
  | jnc (dif : Int)
  | jv (dif : Int)
  | jnv (dif : Int)
  | ja (dif : Int)
  | jna (dif : Int)
  | jlt (dif : Int)
  | jle (dif : Int)
  | jgt (dif : Int)
  | jge (dif : Int)
  -- format J12 (R100)
  | jmp (dif : Int)
  | call (dif : Int)
  | callf (dif : Int)
  -- CODE (R105)
  | jmpr (rs : Reg)
  | cr (rs : Reg)
  | crf (rs : Reg)
  | ret
  | retf
  | swe (k : Nat)
  | rfe
  | nop
deriving DecidableEq, Repr

end Sys2Proof
end

