-- ==== Sys2Proof/Machine/State.lean ====
section
/-!
DEFINITION. The state of the machine as plain data (10_state.md), the events of its environment (60_exceptions.md R339,
R350), why it can stop, and the state after reset (R46).
-/
namespace Sys2Proof.Machine

/-- Memory (20_memory.md R60): the bytes that differ from what an unlisted address reads as, by rising address. -/
abbrev Memory := List Host.Cell

/-- The storage cells behind the register names: one home for each register the spec names (R20, R27, R40, R42). -/
inductive Phys where
  /-- R0 to R10 (R21) -/
  | gpr (i : Fin 11)
  /-- RL (R22) -/
  | rl
  /-- the system stack pointer (R27) -/
  | ssp
  /-- the user stack pointer (R27) -/
  | usp
  /-- the state register (R32) -/
  | re
  /-- the exception table base (R25) -/
  | bte
  /-- TEMP (R26) -/
  | temp
  /-- A0 to A15 (R40) -/
  | aux (i : AReg)
  /-- the return address register, internal (R42) -/
  | rer
deriving DecidableEq, Repr

/-- The ten exceptions (R321). -/
inductive Exc where
  | int (i : Fin 4)
  | excesso
  | div0
  | software
  | codInv
  | dDesalinhado
  | iDesalinhado
deriving DecidableEq, Repr

/-- What the environment can do at an instruction boundary. -/
inductive Event where
  /-- a rising edge on pin Int i (R329, R339) -/
  | edge (i : Fin 4)
  /-- the DMA master, granted the bus, makes one access (R350) -/
  | dma (x : Config.DmaAccess)
deriving DecidableEq, Repr

/-- The state of the machine. -/
structure State where
  /-- R0 to R10 (R21) -/
  gpr : Vector Word 11
  /-- RL, R11 (R22) -/
  rl : Word
  /-- the system-level stack pointer (R27) -/
  ssp : Word
  /-- USP, the user-level stack pointer (R27, R41) -/
  usp : Word
  /-- RE, R13: bit i of it is the field of R33 with that number -/
  re : Word
  /-- BTE, R14 (R25) -/
  bte : Word
  /-- TEMP, R15 (R26) -/
  temp : Word
  /-- A0 to A15 (R40) -/
  aux : Vector Word 16
  /-- RER (R42) -/
  rer : Word
  /-- PC (R28) -/
  pc : Word
  /-- the interrupt request latches pend[0] to pend[3] (R43) -/
  pend : Vector Bool 4
  /-- memory (R60) -/
  mem : Memory
  /-- the model's own: how many free values have been drawn (log 39) -/
  draws : Nat
  /-- the model's own: what the environment will do, one list of events for each coming boundary (R339; log 38) -/
  env : List (List Event)
  /-- the model's own: what the DMA master will do inside instructions, one list of accesses for each coming gap between two
  bus cycles of one instruction in which it is granted the bus (R72, R350; log 31) -/
  gaps : List (List Config.DmaAccess)
  /-- output pin IntAck: 1 in the step that services Int3 (R337) -/
  intAck : Bool
  /-- output pin BusGrant: 1 after a boundary or a step in which the DMA master was granted the bus (R350; log 31) -/
  busGrant : Bool
deriving DecidableEq, Repr

/-- Why the machine stops. -/
inductive Fault where
  /-- A 16-bit access of an exception entry sequence is misaligned, SSP or BTE being odd (R338, D29). Raised by
  `State.enter` alone. The spec's own treatment ("execution stops"); safe: nothing is claimed of what follows. -/
  | doubleFault
deriving DecidableEq, Repr

/-- Why an instruction is turned away. -/
inductive Refusal where
  /-- An arm of `exec` that has no meaning yet. No arm answers it: all 75 instructions have their meaning. Safe. -/
  | notModelled (mnemonic : String)
  /-- MOV Ad, Rs or MOV Rd, As where the parameter AUX_REGS is `refuse`, which D22 allows. Raised by `withAux` alone,
  and never at the parameter's default. Safe. -/
  | auxRegisters
deriving DecidableEq, Repr

/-- What a meaning answers. -/
abbrev Result := Host.Outcome State Fault Refusal

/-- The machine right after reset (R46, R370): RE = 0000H and nothing pending; every other register at the value the
log names (log 3, log 4), memory with nothing listed (log 6), an environment that does nothing (log 38). -/
def State.reset : State where
  gpr := Vector.replicate 11 Params.resetWord
  rl := Params.resetWord
  ssp := Params.resetWord
  usp := Params.resetWord
  re := 0x0000
  bte := Params.resetWord
  temp := Params.resetWord
  aux := Vector.replicate 16 Params.resetWord
  rer := Params.resetWord
  pc := Params.resetPc
  pend := Vector.replicate 4 false
  mem := []
  draws := 0
  env := []
  gaps := Params.dmaAgent
  intAck := false
  busGrant := false

end Sys2Proof.Machine
end

