-- ==== Sys2Proof/Machine/Ops.lean ====
section
/-!
DEFINITION. The named operations over registers and memory (10_state.md, 20_memory.md), taking an exception and
returning from one (60_exceptions.md R330, 44_control_flow.md R278), and the endings the meanings share.
-/
namespace Sys2Proof.Machine

/-! ### Registers -/

/-- What a storage cell holds. -/
def State.cell (s : State) : Phys → Word
  | .gpr i => s.gpr[i]
  | .rl => s.rl
  | .ssp => s.ssp
  | .usp => s.usp
  | .re => s.re
  | .bte => s.bte
  | .temp => s.temp
  | .aux i => s.aux[i]
  | .rer => s.rer

/-- A write to a storage cell. -/
def State.setCell (s : State) (p : Phys) (v : Word) : State :=
  match p with
  | .gpr i => { s with gpr := s.gpr.set i v }
  | .rl => { s with rl := v }
  | .ssp => { s with ssp := v }
  | .usp => { s with usp := v }
  | .re => { s with re := v }
  | .bte => { s with bte := v }
  | .temp => { s with temp := v }
  | .aux i => { s with aux := s.aux.set i v }
  | .rer => { s with rer := v }

/-- A field of RE (R33). -/
def State.flag (s : State) (f : ReField) : Bool := s.re.getLsbD f.index

/-- The cell a register name stands for when RE.NP is `np` (R20, R27). -/
def Reg.phys (np : Bool) : Reg → Phys
  | .r i => .gpr i
  | .rl => .rl
  | .sp => if np then .usp else .ssp
  | .re => .re
  | .bte => .bte
  | .temp => .temp

/-- The cell a register name stands for now: SP is chosen by RE.NP at the moment of the access (R27). -/
def State.phys (s : State) (r : Reg) : Phys := Reg.phys (s.flag .np) r

/-- `x[r]` (R8). -/
def State.reg (s : State) (r : Reg) : Word := s.cell (s.phys r)

/-- `x[r] <- v` (R8). -/
def State.setReg (s : State) (r : Reg) (v : Word) : State := s.setCell (s.phys r) v

/-- `pc <- t` (R8). -/
def State.setPc (s : State) (t : Word) : State := { s with pc := t }

/-- Flag updates on RE (R35). -/
def State.setFlags (s : State) (f : FlagUpd) : State := s.setCell .re (f.apply s.re)

/-- `wr(d, v, F)` (R31, R36): RE as destination takes exactly the value, and no flag update is applied. -/
def State.wr (s : State) (d : Reg) (v : Word) (f : FlagUpd) : State :=
  if d = .re then s.setCell .re v else (s.setReg d v).setFlags f

/-- `EIS` (R8, R28, R29), `s.pc` being `cur` while an instruction runs. -/
def State.eis (s : State) : Word := s.pc + 2

/-- `pc <- EIS` (R29). -/
def State.advance (s : State) : State := s.setPc s.eis

/-! ### Free values (R8 `any16`, `anybit`; log 39) -/

/-- The next free 16-bit value. -/
def State.anyWord (s : State) : Word := Config.freeWord s.draws

/-- The `k`-th of the next free bits. -/
def State.anyBit (s : State) (k : Nat) : Bool := Config.freeBit (s.draws + k)

/-- `k` free values have been used up. -/
def State.drawn (s : State) (k : Nat) : State := { s with draws := s.draws + k }

/-! ### Memory -/

/-- The byte at an address: what is listed, else `Params.unlistedByte` (log 6). -/
def Memory.read : Memory → Nat → Byte
  | [], _ => Params.unlistedByte
  | (k, v) :: m, a => if a = k then v else Memory.read m a

/-- The memory that lists `(a, v)` before `m`, unless `v` is what an unlisted address reads as. -/
def Memory.put (a : Nat) (v : Byte) (m : Memory) : Memory :=
  if v = Params.unlistedByte then m else (a, v) :: m

/-- A write of one byte that keeps the canonical form. -/
def Memory.write : Memory → Nat → Byte → Memory
  | [], a, v => Memory.put a v []
  | (k, w) :: m, a, v =>
    if a < k then Memory.put a v ((k, w) :: m)
    else if a = k then Memory.put a v m
    else (k, w) :: Memory.write m a v

/-- The canonical form above a bound: addresses rising from `lo` on, inside the address space, no entry listed in
vain. -/
def Memory.wfFrom (lo : Nat) : Memory → Bool
  | [] => true
  | (k, v) :: m => decide (lo ≤ k) && decide (k < 65536) && decide (v ≠ Params.unlistedByte) && Memory.wfFrom (k + 1) m

/-- The canonical form of memory. -/
def Memory.wf (m : Memory) : Bool := Memory.wfFrom 0 m

/-- `Mb[a]` read (R68). -/
def State.byteAt (s : State) (a : Word) : Byte := s.mem.read a.toNat

/-- `Mb[a] <- v` (R68): no other byte changes. Read-only memory keeps its byte (R73, parameter MEM_MAP; log 7). -/
def State.setByte (s : State) (a : Word) (v : Byte) : State :=
  match Params.memMap a with
  | .ram => { s with mem := s.mem.write a.toNat v }
  | .rom => s

/-- The big-endian word at `a` (R62), whatever the parity of `a`. -/
def State.wordAt (s : State) (a : Word) : Word := s.byteAt a ++ s.byteAt (a + 1)

/-- The two bytes of a word stored big-endian at `a` (R62). -/
def State.setWord (s : State) (a v : Word) : State :=
  (s.setByte a (v.extractLsb' 8 8)).setByte (a + 1) (v.extractLsb' 0 8)

/-- An address a 16-bit access may use (R66, R67). -/
def isEven (a : Word) : Bool := !a.getLsbD 0

/-- `MemRead(a, 2)` (R66): `none` where it raises D_DESALINHADO; nothing is read then. -/
def State.load (s : State) (a : Word) : Option Word := if isEven a then some (s.wordAt a) else none

/-- `MemWrite(a, 2, v)` (R66): `none` where it raises D_DESALINHADO; nothing is written then. -/
def State.store (s : State) (a v : Word) : Option State := if isEven a then some (s.setWord a v) else none

/-! ### DMA (R72, R81, R350; log 31) -/

/-- One access of the DMA master, the bus being granted: a read changes nothing of the machine. -/
def State.dma (s : State) : Config.DmaAccess → State
  | .read _ => { s with busGrant := true }
  | .write a v => { s.setByte a v with busGrant := true }

/-- A gap between two bus cycles of one instruction, at its fetch or later: while RE.DE = 1 the DMA master may make any
accesses in it, those `gaps` lists next; while RE.DE = 0 it is granted nothing (R350). -/
def State.gap (s : State) : State :=
  if s.flag .de then
    match s.gaps with
    | [] => s
    | accesses :: later => accesses.foldl State.dma { s with gaps := later }
  else s

/-! ### Exceptions -/

/-- The offset of an exception's entry from BTE (R321, 90_conflicts.md C4). -/
def Exc.offset : Exc → Word
  | .int i => 2 + 2 * BitVec.ofNat 16 i.val
  | .excesso => 0x000A
  | .div0 => 0x000C
  | .software => 0x000E
  | .codInv => 0x0010
  | .dDesalinhado => 0x0012
  | .iDesalinhado => 0x0014

/-- The priority column of R321 and R332: 1 is served first. -/
def Exc.priority : Exc → Nat
  | .excesso | .div0 | .dDesalinhado => 1
  | .int i => 2 + i.val
  | .iDesalinhado => 6
  | .software | .codInv => 7

/-- Taking an exception (R330): the one sequence of all ten (D10; log 16). RER and TEMP are loaded, RE is cleared, the
return address and the old RE go on the SYSTEM stack, pc takes the handler's address from the table at BTE, and SSP moves
last. A misaligned access inside it is the double fault (R338, D29; log 32). RE.DE is 0 from its first bus cycle on, so no DMA
access comes between its cycles. -/
def State.enter (s : State) (e : Exc) (returnAddress : Word) : Result :=
  let s1 := ((s.setCell .rer returnAddress).setCell .temp s.re).setCell .re 0x0000
  match s1.store (s.ssp - 2) returnAddress with
  | none => .fault .doubleFault
  | some s2 =>
    match s2.store (s.ssp - 4) s.re with
    | none => .fault .doubleFault
    | some s3 =>
      match s3.load (s.bte + e.offset) with
      | none => .fault .doubleFault
      | some handler => .next ((s3.setPc handler).setCell .ssp (s.ssp - 4))

/-- The address DIV0 and D_DESALINHADO save (R331, parameter FAULT_RER; log 17). -/
def State.faultRer (s : State) : Word :=
  match Params.faultRer with
  | .eis => s.eis
  | .cur => s.pc

/-- D_DESALINHADO: the instruction is abandoned with nothing changed (R327, D31; log 34), then the entry. -/
def State.misaligned (s : State) : Result := s.enter .dDesalinhado s.faultRer

/-- Return from an exception (R278): TEMP, then pc, then the stack pointer of the level RFE runs at, then RE. DMA accesses
may come after each of the two reads (R72), RE.DE being as it was when RFE started. -/
def State.returnFromException (s : State) : Result :=
  let sp := s.reg .sp
  match s.load sp with
  | none => s.misaligned
  | some savedRe =>
    let s1 := (s.setCell .temp savedRe).gap
    match s1.load (sp + 2) with
    | none => s.misaligned
    | some returnAddress => .next (((s1.setPc returnAddress).gap.setReg .sp (sp + 4)).setCell .re savedRe)

/-! ### Endings the meanings share -/

/-- The end of an instruction that computed an overflow bit `v` (`trapV`, R144): `after` is `s` with the result and the
flags written. TV is read as it was when the instruction started (D23; log 26). -/
def State.trapV (s : State) (v : Bool) (after : State) : Result :=
  if v && s.flag .tv then
    if Params.excessoWritesResult then after.enter .excesso s.eis else s.enter .excesso s.eis
  else .next after.advance

/-- A word read from `a` handed to `k`; D_DESALINHADO where `a` is odd. -/
def State.withLoad (s : State) (a : Word) (k : Word → Result) : Result :=
  match s.load a with
  | none => s.misaligned
  | some v => k v

/-- A word stored at `a`, the rest done by `k`; D_DESALINHADO where `a` is odd. -/
def State.withStore (s : State) (a v : Word) (k : State → Result) : Result :=
  match s.store a v with
  | none => s.misaligned
  | some s' => k s'

/-- A word read from `a` handed to `k` with the state after the gap that follows the read (R72): for an instruction whose
destination may be RE, whose bit DE decides the next gap. D_DESALINHADO where `a` is odd. -/
def State.withLoadGap (s : State) (a : Word) (k : State → Word → Result) : Result := s.withLoad a fun v => k s.gap v

/-- An instruction on the auxiliary registers (R40, parameter AUX_REGS; log 25). -/
def withAux (r : Result) : Result :=
  match Params.auxRegs with
  | .plain => r
  | .refuse => .refused .auxRegisters

/-! ### The boundary between instructions -/

/-- Interrupt `i` is pending and enabled (R335, R336). -/
def State.intReady (s : State) (i : Fin 4) : Bool := s.pend[i] && s.flag .ie && s.flag (.ieOf i)

/-- The interrupt that R335 takes now: the first ready one in the order 0, 1, 2, 3. -/
def State.readyInt (s : State) : Option (Fin 4) :=
  if s.intReady 0 then some 0
  else if s.intReady 1 then some 1
  else if s.intReady 2 then some 2
  else if s.intReady 3 then some 3
  else none

/-- Interrupt `i` is taken (R335): its latch falls, IntAck rises for Int3 (R337; log 21), the return address is the pc of
the instruction that would run next. -/
def State.takeInt (s : State) (i : Fin 4) : Result :=
  { s with pend := s.pend.set i false, intAck := i == 3 }.enter (.int i) s.pc

/-- One event of the environment. An edge sets its latch (R339; parameter INT_LATCH_WHILE_MASKED, log 20); a DMA access
happens only while RE.DE = 1, the bus being granted then (R350; log 31). -/
def State.event (s : State) : Event → State
  | .edge i =>
    if Params.intLatchWhileMasked || (s.flag .ie && s.flag (.ieOf i)) then { s with pend := s.pend.set i true } else s
  | .dma x => if s.flag .de then s.dma x else s

/-- The boundary before a step: the output pins fall, and the environment's events of this boundary happen in order. -/
def State.boundary (s : State) : State :=
  let quiet := { s with intAck := false, busGrant := false }
  match s.env with
  | [] => quiet
  | events :: later => events.foldl State.event { quiet with env := later }

end Sys2Proof.Machine
end

