-- ==== Sys2Proof/Machine/Operands.lean ====
section
/-!
DEFINITION. The operand forms (30_encoding.md R95 to R97, R99): constants as 16-bit values, effective addresses, jump
targets, and the shift operand with its case `n = 0` (42_shift_rotate.md R190).
-/
namespace Sys2Proof.Machine

/-- A constant operand as the 16-bit value the instruction uses: `sext_4`, `sext_8` of its field (R95). -/
def constant (k : Int) : Word := BitVec.ofInt 16 k

/-- `[Rb + off]`, based addressing (R96, R211, R213); `[Rb]` is `off = 0`. -/
def State.based (s : State) (rb : Reg) (off : Int) : Word := s.reg rb + constant off

/-- `[Rb + Ri]`, indexed addressing (R212, R214): the index counts bytes. -/
def State.indexed (s : State) (rb ri : Reg) : Word := s.reg rb + s.reg ri

/-- The target of a relative jump or call (R97, R250): EIS plus twice the displacement. -/
def State.target (s : State) (dif : Int) : Word := s.eis + constant (2 * dif)

/-- The slot a push writes: `SP - 2` (R237, R270). -/
def State.pushSlot (s : State) : Word := s.reg .sp - 2

/-- The word with only bit `n` set (R172 to R174). -/
def bitMask (n : Nat) : Word := (1 : Word) <<< n

/-- A shift or rotate of Rd by the constant `n` (R190): with `n = 0`, Rd is written with its own value and only Z and N
are updated; otherwise the result of `op` with Z, N and C. -/
def State.shiftReg (s : State) (rd : Reg) (n : Nat) (op : Word → Nat → Shifted) : State :=
  let a := s.reg rd
  if n = 0 then s.wr rd a (flagsZN a)
  else s.wr rd (op a n).r (flagsZNC (op a n).r (op a n).c)

end Sys2Proof.Machine
end

