-- ==== Sys2Proof/Machine/Arith.lean ====
section
/-!
DEFINITION. The arithmetic instructions (40_arithmetic.md): one definition each.
-/
namespace Sys2Proof.Machine

/-- A sum or difference written to Rd with Z, N, C, V, then the overflow trap (R131 to R136, R143, R144). -/
def State.finishAlu (s : State) (rd : Reg) (x : Alu) : Result :=
  s.trapV x.v (s.wr rd x.r (flagsZNCV x.r x.c x.v))

/-- A comparison: the flags of a difference and no register (R137, R138). -/
def State.finishCmp (s : State) (x : Alu) : Result :=
  s.trapV x.v (s.setFlags (flagsZNCV x.r x.c x.v))

/-- ADD Rd, Rs (R131). -/
def execAdd (rd rs : Reg) (s : State) : Result := s.finishAlu rd (addc (s.reg rd) (s.reg rs) false)

/-- ADD Rd, k (R132). -/
def execAddi (rd : Reg) (k : Int) (s : State) : Result := s.finishAlu rd (addc (s.reg rd) (constant k) false)

/-- ADDC Rd, Rs (R133). -/
def execAddc (rd rs : Reg) (s : State) : Result := s.finishAlu rd (addc (s.reg rd) (s.reg rs) (s.flag .c))

/-- SUB Rd, Rs (R134). -/
def execSub (rd rs : Reg) (s : State) : Result := s.finishAlu rd (subb (s.reg rd) (s.reg rs) false)

/-- SUB Rd, k (R135). -/
def execSubi (rd : Reg) (k : Int) (s : State) : Result := s.finishAlu rd (subb (s.reg rd) (constant k) false)

/-- SUBB Rd, Rs (R136). -/
def execSubb (rd rs : Reg) (s : State) : Result := s.finishAlu rd (subb (s.reg rd) (s.reg rs) (s.flag .c))

/-- CMP Rd, Rs (R137). -/
def execCmp (rd rs : Reg) (s : State) : Result := s.finishCmp (subb (s.reg rd) (s.reg rs) false)

/-- CMP Rd, k (R138). -/
def execCmpi (rd : Reg) (k : Int) (s : State) : Result := s.finishCmp (subb (s.reg rd) (constant k) false)

/-- MUL Rd, Rs (R139, D6; log 11): with different registers, Rd takes the low 16 bits, C is free, and Rs is then written
with a free value; with the same register, all that is written is free (V too, as R139's pseudocode has it). The trap
tests the signed overflow of the product in both cases. -/
def execMul (rd rs : Reg) (s : State) : Result :=
  let a := s.reg rd
  let b := s.reg rs
  let r := a * b
  let v := mulV a b
  let after :=
    if rd ≠ rs then (s.wr rd r (flagsZNCV r (s.anyBit 0) v)).setReg rs s.anyWord
    else s.wr rd s.anyWord
      { z := some (s.anyBit 0), n := some (s.anyBit 1), c := some (s.anyBit 2), v := some (s.anyBit 3) }
  s.trapV v (after.drawn 4)

/-- Division by zero (R141): DIV0 with TD = 1, nothing written (D24; log 27); with TD = 0 an overflow, Rd free, Z and N
from it, C free, V = 1 (D8; log 13). -/
def State.divideByZero (s : State) (rd : Reg) : Result :=
  if s.flag .td then s.enter .div0 s.faultRer
  else s.trapV true ((s.wr rd s.anyWord (flagsZNCV s.anyWord (s.anyBit 0) true)).drawn 1)

/-- The end of a division by a non-zero divisor (R140, R142): Z and N from the result, V cleared, C free (U4; log 15). -/
def State.finishDiv (s : State) (rd : Reg) (r : Word) : Result :=
  .next ((s.wr rd r (flagsZNCV r (s.anyBit 0) false)).drawn 1).advance

/-- DIV Rd, Rs (R140): the quotient; where the spec states none (8000H / FFFFH, D9; log 14) it is free. -/
def execDiv (rd rs : Reg) (s : State) : Result :=
  let a := s.reg rd
  let b := s.reg rs
  if b = 0 then s.divideByZero rd
  else s.finishDiv rd ((quotient Params.divMod a b).getD s.anyWord)

/-- MOD Rd, Rs (R142): the remainder. -/
def execMod (rd rs : Reg) (s : State) : Result :=
  let a := s.reg rd
  let b := s.reg rs
  if b = 0 then s.divideByZero rd
  else s.finishDiv rd (remainder Params.divMod a b)

/-- NEG Rd (R143): 0 - Rd. -/
def execNeg (rd : Reg) (s : State) : Result := s.finishAlu rd (subb 0x0000 (s.reg rd) false)

end Sys2Proof.Machine
end

