-- ==== Sys2Proof/Machine/Control.lean ====
section
/-!
DEFINITION. The control flow instructions (44_control_flow.md): one definition each.
-/
namespace Sys2Proof.Machine

/-- The form all sixteen conditional jumps share (R251). -/
def State.jumpIf (s : State) (cond : Cond) (dif : Int) : Result :=
  .next (s.setPc (if cond.holds s.re then s.target dif else s.eis))

/-- JZ (R252). -/
def execJz (dif : Int) (s : State) : Result := s.jumpIf .z dif

/-- JNZ (R253). -/
def execJnz (dif : Int) (s : State) : Result := s.jumpIf .nz dif

/-- JN (R254). -/
def execJn (dif : Int) (s : State) : Result := s.jumpIf .n dif

/-- JNN (R255). -/
def execJnn (dif : Int) (s : State) : Result := s.jumpIf .nn dif

/-- JP (R256). -/
def execJp (dif : Int) (s : State) : Result := s.jumpIf .p dif

/-- JNP (R257). -/
def execJnp (dif : Int) (s : State) : Result := s.jumpIf .np dif

/-- JC (R258). -/
def execJc (dif : Int) (s : State) : Result := s.jumpIf .c dif

/-- JNC (R259). -/
def execJnc (dif : Int) (s : State) : Result := s.jumpIf .nc dif

/-- JV (R260). -/
def execJv (dif : Int) (s : State) : Result := s.jumpIf .v dif

/-- JNV (R261). -/
def execJnv (dif : Int) (s : State) : Result := s.jumpIf .nv dif

/-- JA (R262). -/
def execJa (dif : Int) (s : State) : Result := s.jumpIf .a dif

/-- JNA (R263). -/
def execJna (dif : Int) (s : State) : Result := s.jumpIf .na dif

/-- JLT (R264). -/
def execJlt (dif : Int) (s : State) : Result := s.jumpIf .lt dif

/-- JLE (R265). -/
def execJle (dif : Int) (s : State) : Result := s.jumpIf .le dif

/-- JGT (R266). -/
def execJgt (dif : Int) (s : State) : Result := s.jumpIf .gt dif

/-- JGE (R267). -/
def execJge (dif : Int) (s : State) : Result := s.jumpIf .ge dif

/-- JMP etiqueta (R268). -/
def execJmp (dif : Int) (s : State) : Result := .next (s.setPc (s.target dif))

/-- JMP Rs (R269): absolute. -/
def execJmpr (rs : Reg) (s : State) : Result := .next (s.setPc (s.reg rs))

/-- The form both stack calls share (R270, R271): `RER ← EIS; Mw[SP-2] ← RER; PC ← destination; SP ← SP - 2`, SP last. -/
def State.callTo (s : State) (destination : Word) : Result :=
  s.withStore s.pushSlot s.eis fun t =>
    .next (((t.setCell .rer s.eis).setPc destination).setReg .sp s.pushSlot)

/-- CALL etiqueta (R270). -/
def execCall (dif : Int) (s : State) : Result := s.callTo (s.target dif)

/-- CALL Rs (R271): Rs is read before SP moves. -/
def execCr (rs : Reg) (s : State) : Result := s.callTo (s.reg rs)

/-- `RER ← EIS; RL ← RER` (R272, R273). -/
def State.link (s : State) : State := (s.setCell .rer s.eis).setCell .rl s.eis

/-- CALLF etiqueta (R272). -/
def execCallf (dif : Int) (s : State) : Result := .next (s.link.setPc (s.target dif))

/-- CALLF Rs (R273): RL is written before Rs is read (log 36). -/
def execCrf (rs : Reg) (s : State) : Result := .next (s.link.setPc (s.link.reg rs))

/-- RET (R274). -/
def execRet (s : State) : Result :=
  s.withLoad (s.reg .sp) fun v => .next ((s.setPc v).setReg .sp (s.reg .sp + 2))

/-- RETF (R275). -/
def execRetf (s : State) : Result := .next (s.setPc (s.reg .rl))

/-- SWE k (R276, R277): the entry of exception SOFTWARE itself; `k` is not used by the hardware. -/
def execSwe (_k : Nat) (s : State) : Result := s.enter .software s.eis

/-- RFE (R278). -/
def execRfe (s : State) : Result := s.returnFromException

/-- NOP (R279). -/
def execNop (s : State) : Result := .next s.advance

end Sys2Proof.Machine
end

