-- ==== Sys2Proof/Machine/Logic.lean ====
section
/-!
DEFINITION. The logic and single-bit instructions (41_bit_logic.md): one definition each.
-/
namespace Sys2Proof.Machine

/-- A result written to Rd with Z and N (R160). -/
def State.finishLogic (s : State) (rd : Reg) (r : Word) : Result := .next (s.wr rd r (flagsZN r)).advance

/-- AND Rd, Rs (R161). -/
def execAnd (rd rs : Reg) (s : State) : Result := s.finishLogic rd (s.reg rd &&& s.reg rs)

/-- OR Rd, Rs (R162). -/
def execOr (rd rs : Reg) (s : State) : Result := s.finishLogic rd (s.reg rd ||| s.reg rs)

/-- NOT Rd (R163): `Rd ⊕ FFFFH`. -/
def execNot (rd : Reg) (s : State) : Result := s.finishLogic rd (s.reg rd ^^^ 0xFFFF)

/-- XOR Rd, Rs (R164). -/
def execXor (rd rs : Reg) (s : State) : Result := s.finishLogic rd (s.reg rd ^^^ s.reg rs)

/-- TEST Rd, Rs (R165): flags only. -/
def execTest (rd rs : Reg) (s : State) : Result := .next (s.setFlags (flagsZN (s.reg rd &&& s.reg rs))).advance

/-- BIT Rd, n (R166): `Z ← Rd(n) ⊕ 1`, and nothing else. -/
def execBit (rd : Reg) (n : Nat) (s : State) : Result :=
  .next (s.setFlags { z := some (!(s.reg rd).getLsbD n) }).advance

/-- SET Rd, n (R172). -/
def execSetbit (rd : Reg) (n : Nat) (s : State) : Result := s.finishLogic rd (s.reg rd ||| bitMask n)

/-- CLR Rd, n (R173). -/
def execClrbit (rd : Reg) (n : Nat) (s : State) : Result := s.finishLogic rd (s.reg rd &&& ~~~bitMask n)

/-- CPL Rd, n (R174). -/
def execCplbit (rd : Reg) (n : Nat) (s : State) : Result := s.finishLogic rd (s.reg rd ^^^ bitMask n)

end Sys2Proof.Machine
end

