-- ==== Sys2Proof/Machine/Shift.lean ====
section
/-!
DEFINITION. The shift and rotate instructions (42_shift_rotate.md): one definition each.
-/
namespace Sys2Proof.Machine

/-- SHR Rd, n (R191). -/
def execShr (rd : Reg) (n : Nat) (s : State) : Result := .next (s.shiftReg rd n shrBy).advance

/-- SHL Rd, n (R192). -/
def execShl (rd : Reg) (n : Nat) (s : State) : Result := .next (s.shiftReg rd n shlBy).advance

/-- SHRA Rd, n (R193). -/
def execShra (rd : Reg) (n : Nat) (s : State) : Result := .next (s.shiftReg rd n shraBy).advance

/-- SHLA Rd, n (R194): as SHL with V; with `n = 0`, V is cleared and C kept (D25; log 28). -/
def execShla (rd : Reg) (n : Nat) (s : State) : Result :=
  let a := s.reg rd
  if n = 0 then .next (s.wr rd a { flagsZN a with v := some false }).advance
  else
    let x := shlBy a n
    s.trapV (shlaV a n) (s.wr rd x.r (flagsZNCV x.r x.c (shlaV a n)))

/-- ROR Rd, n (R195). -/
def execRor (rd : Reg) (n : Nat) (s : State) : Result := .next (s.shiftReg rd n rorBy).advance

/-- ROL Rd, n (R196). -/
def execRol (rd : Reg) (n : Nat) (s : State) : Result := .next (s.shiftReg rd n rolBy).advance

/-- RORC Rd, n (R197): reads C. -/
def execRorc (rd : Reg) (n : Nat) (s : State) : Result :=
  .next (s.shiftReg rd n fun a => rorcBy a (s.flag .c)).advance

/-- ROLC Rd, n (R198): reads C. -/
def execRolc (rd : Reg) (n : Nat) (s : State) : Result :=
  .next (s.shiftReg rd n fun a => rolcBy a (s.flag .c)).advance

end Sys2Proof.Machine
end

