-- ==== Sys2Proof/Machine/Transfer.lean ====
section
/-!
DEFINITION. The data transfer instructions (43_data_transfer.md): one definition each. None updates a flag; a
misaligned 16-bit access raises D_DESALINHADO with nothing changed (R210). After each read whose value goes to a register,
which may be RE, stands a gap in which DMA accesses may come (R72; log 31).
-/
namespace Sys2Proof.Machine

/-- A value written to Rd, no flag. -/
def State.finishMove (s : State) (rd : Reg) (v : Word) : Result := .next (s.wr rd v .nothing).advance

/-- The word at `ea` into Rd. -/
def State.loadInto (s : State) (rd : Reg) (ea : Word) : Result := s.withLoadGap ea fun t v => t.finishMove rd v

/-- Rs to the word at `ea`. -/
def State.storeFrom (s : State) (ea : Word) (rs : Reg) : Result := s.withStore ea (s.reg rs) fun t => .next t.advance

/-- MOV Rd, [Rs + off] (R211). -/
def execLdo (rd rs : Reg) (off : Int) (s : State) : Result := s.loadInto rd (s.based rs off)

/-- MOV Rd, [Rs + Ri] (R212). -/
def execLdr (rd rs ri : Reg) (s : State) : Result := s.loadInto rd (s.indexed rs ri)

/-- MOV [Rd + off], Rs (R213). -/
def execSto (rd : Reg) (off : Int) (rs : Reg) (s : State) : Result := s.storeFrom (s.based rd off) rs

/-- MOV [Rd + Ri], Rs (R214). -/
def execStr (rd ri rs : Reg) (s : State) : Result := s.storeFrom (s.indexed rd ri) rs

/-- MOVB Rd, [Rs] (R215): zero extension. -/
def execLdb (rd rs : Reg) (s : State) : Result := s.gap.finishMove rd ((s.byteAt (s.reg rs)).setWidth 16)

/-- MOVB [Rd], Rs (R216): the low byte of Rs; no other byte changes. -/
def execStb (rd rs : Reg) (s : State) : Result :=
  .next (s.setByte (s.reg rd) ((s.reg rs).extractLsb' 0 8)).advance

/-- MOVP Rd, [Rs] (R217): as MOV Rd, [Rs] (D17; log 7). -/
def execLdp (rd rs : Reg) (s : State) : Result := s.loadInto rd (s.reg rs)

/-- MOVP [Rd], Rs (R218). -/
def execStp (rd rs : Reg) (s : State) : Result := s.storeFrom (s.reg rd) rs

/-- MOV Rd, Rs (R229). -/
def execMovrr (rd rs : Reg) (s : State) : Result := s.finishMove rd (s.reg rs)

/-- MOV Ad, Rs (R230; log 25). -/
def execMovar (ad : AReg) (rs : Reg) (s : State) : Result :=
  withAux (.next (s.setCell (.aux ad) (s.reg rs)).advance)

/-- MOV Rd, As (R231; log 25). -/
def execMovra (rd : Reg) (ax : AReg) (s : State) : Result :=
  withAux (s.finishMove rd (s.cell (.aux ax)))

/-- MOV Rd, USP (R232): whatever RE.NP is. -/
def execMovru (rd : Reg) (s : State) : Result := s.finishMove rd (s.cell .usp)

/-- MOV USP, Rs (R233): whatever RE.NP is. -/
def execMovur (rs : Reg) (s : State) : Result := .next (s.setCell .usp (s.reg rs)).advance

/-- SWAP Rd, Rs (R235): `TEMP ← Rd; Rd ← Rs; Rs ← TEMP`, in this order (log 36). -/
def execSwapr (rd rs : Reg) (s : State) : Result :=
  let s1 := s.setCell .temp (s.reg rd)
  let s2 := s1.wr rd (s1.reg rs) .nothing
  .next (s2.wr rs (s2.cell .temp) .nothing).advance

/-- SWAP Rd, [Rs] (R236): `TEMP ← Mw[Rs]; Mw[Rs] ← Rd; Rd ← TEMP`, in this order; no DMA access comes between
the read and the write, any may come after them, before Rd is written (R72). -/
def execSwapm (rd rs : Reg) (s : State) : Result :=
  let ea := s.reg rs
  s.withLoad ea fun t =>
    let s1 := s.setCell .temp t
    s1.withStore ea (s1.reg rd) fun s2 => s2.gap.finishMove rd (s2.cell .temp)

/-- PUSH Rd (R237): SP moves last. -/
def execPush (rd : Reg) (s : State) : Result :=
  s.withStore s.pushSlot (s.reg rd) fun t => .next (t.setReg .sp s.pushSlot).advance

/-- POP Rd (R238): SP is read again after Rd is written (log 36). -/
def execPop (rd : Reg) (s : State) : Result :=
  s.withLoadGap (s.reg .sp) fun u v =>
    let t := u.wr rd v .nothing
    .next (t.setReg .sp (t.reg .sp + 2)).advance

/-- MOVL Rd, k (R220): the constant sign-extended. -/
def execMovl (rd : Reg) (k : Int) (s : State) : Result := s.finishMove rd (constant k)

/-- MOVH Rd, k (R221): the upper byte only. -/
def execMovh (rd : Reg) (k : Nat) (s : State) : Result :=
  s.finishMove rd (BitVec.ofNat 8 k ++ (s.reg rd).extractLsb' 0 8)

end Sys2Proof.Machine
end

