-- ==== Sys2Proof/Machine/Dispatch.lean ====
section
/-!
DEFINITION. Dispatch: one arm per constructor of Instr, each one direct call of the instruction's meaning.
-/
namespace Sys2Proof.Machine

def exec (i : Instr) (s : State) : Host.Outcome State Fault Refusal :=
  match i with
  | .add rd rs => Sys2Proof.Machine.execAdd rd rs s
  | .addi rd k => Sys2Proof.Machine.execAddi rd k s
  | .addc rd rs => Sys2Proof.Machine.execAddc rd rs s
  | .sub rd rs => Sys2Proof.Machine.execSub rd rs s
  | .subi rd k => Sys2Proof.Machine.execSubi rd k s
  | .subb rd rs => Sys2Proof.Machine.execSubb rd rs s
  | .cmp rd rs => Sys2Proof.Machine.execCmp rd rs s
  | .cmpi rd k => Sys2Proof.Machine.execCmpi rd k s
  | .mul rd rs => Sys2Proof.Machine.execMul rd rs s
  | .div rd rs => Sys2Proof.Machine.execDiv rd rs s
  | .mod rd rs => Sys2Proof.Machine.execMod rd rs s
  | .neg rd => Sys2Proof.Machine.execNeg rd s
  | .shra rd n => Sys2Proof.Machine.execShra rd n s
  | .shla rd n => Sys2Proof.Machine.execShla rd n s
  | .and rd rs => Sys2Proof.Machine.execAnd rd rs s
  | .or rd rs => Sys2Proof.Machine.execOr rd rs s
  | .not rd => Sys2Proof.Machine.execNot rd s
  | .xor rd rs => Sys2Proof.Machine.execXor rd rs s
  | .test rd rs => Sys2Proof.Machine.execTest rd rs s
  | .bit rd n => Sys2Proof.Machine.execBit rd n s
  | .setbit rd n => Sys2Proof.Machine.execSetbit rd n s
  | .clrbit rd n => Sys2Proof.Machine.execClrbit rd n s
  | .cplbit rd n => Sys2Proof.Machine.execCplbit rd n s
  | .shr rd n => Sys2Proof.Machine.execShr rd n s
  | .shl rd n => Sys2Proof.Machine.execShl rd n s
  | .ror rd n => Sys2Proof.Machine.execRor rd n s
  | .rol rd n => Sys2Proof.Machine.execRol rd n s
  | .rorc rd n => Sys2Proof.Machine.execRorc rd n s
  | .rolc rd n => Sys2Proof.Machine.execRolc rd n s
  | .ldo rd rs off => Sys2Proof.Machine.execLdo rd rs off s
  | .ldr rd rs ri => Sys2Proof.Machine.execLdr rd rs ri s
  | .sto rd off rs => Sys2Proof.Machine.execSto rd off rs s
  | .str rd ri rs => Sys2Proof.Machine.execStr rd ri rs s
  | .ldb rd rs => Sys2Proof.Machine.execLdb rd rs s
  | .stb rd rs => Sys2Proof.Machine.execStb rd rs s
  | .ldp rd rs => Sys2Proof.Machine.execLdp rd rs s
  | .stp rd rs => Sys2Proof.Machine.execStp rd rs s
  | .movrr rd rs => Sys2Proof.Machine.execMovrr rd rs s
  | .movar ad rs => Sys2Proof.Machine.execMovar ad rs s
  | .movra rd ax => Sys2Proof.Machine.execMovra rd ax s
  | .movru rd => Sys2Proof.Machine.execMovru rd s
  | .movur rs => Sys2Proof.Machine.execMovur rs s
  | .swapr rd rs => Sys2Proof.Machine.execSwapr rd rs s
  | .swapm rd rs => Sys2Proof.Machine.execSwapm rd rs s
  | .push rd => Sys2Proof.Machine.execPush rd s
  | .pop rd => Sys2Proof.Machine.execPop rd s
  | .movl rd k => Sys2Proof.Machine.execMovl rd k s
  | .movh rd k => Sys2Proof.Machine.execMovh rd k s
  | .jz dif => Sys2Proof.Machine.execJz dif s
  | .jnz dif => Sys2Proof.Machine.execJnz dif s
  | .jn dif => Sys2Proof.Machine.execJn dif s
  | .jnn dif => Sys2Proof.Machine.execJnn dif s
  | .jp dif => Sys2Proof.Machine.execJp dif s
  | .jnp dif => Sys2Proof.Machine.execJnp dif s
  | .jc dif => Sys2Proof.Machine.execJc dif s
  | .jnc dif => Sys2Proof.Machine.execJnc dif s
  | .jv dif => Sys2Proof.Machine.execJv dif s
  | .jnv dif => Sys2Proof.Machine.execJnv dif s
  | .ja dif => Sys2Proof.Machine.execJa dif s
  | .jna dif => Sys2Proof.Machine.execJna dif s
  | .jlt dif => Sys2Proof.Machine.execJlt dif s
  | .jle dif => Sys2Proof.Machine.execJle dif s
  | .jgt dif => Sys2Proof.Machine.execJgt dif s
  | .jge dif => Sys2Proof.Machine.execJge dif s
  | .jmp dif => Sys2Proof.Machine.execJmp dif s
  | .call dif => Sys2Proof.Machine.execCall dif s
  | .callf dif => Sys2Proof.Machine.execCallf dif s
  | .jmpr rs => Sys2Proof.Machine.execJmpr rs s
  | .cr rs => Sys2Proof.Machine.execCr rs s
  | .crf rs => Sys2Proof.Machine.execCrf rs s
  | .ret => Sys2Proof.Machine.execRet s
  | .retf => Sys2Proof.Machine.execRetf s
  | .swe k => Sys2Proof.Machine.execSwe k s
  | .rfe => Sys2Proof.Machine.execRfe s
  | .nop => Sys2Proof.Machine.execNop s

end Sys2Proof.Machine
end

