-- ==== Sys2Proof/Machine/Opmap.lean ====
section
/-!
DEFINITION. The parameter `OPMAP` of 00_scope.md R6 at the spec's default: the numeric value of every first and second
opcode name (30_encoding.md R100 to R105) and the positions of the four fields (R91). The manual names the opcodes and the
order of the fields and gives no number; the numbers are decision D1 (DESIGN CHOICE of the spec; unsafe; log 1), the
positions decision D2 (log 2). The decoder and the encoder of Sys2Proof/Decode.lean read them here alone (R13).
-/
namespace Sys2Proof.Opmap

/-! ### Field positions: the lowest of each field's four bits (R91, D2) -/

/-- "1º opcode" (R91) -/
abbrev opcode1At : Nat := 12
/-- "2º opcode" (R91) -/
abbrev opcode2At : Nat := 8
/-- "1º operando" (R91) -/
abbrev operand1At : Nat := 4
/-- "2º operando" (R91) -/
abbrev operand2At : Nat := 0

/-! ### First opcodes (R100) -/

/-- ARITOP (R100) -/
abbrev aritop : BitVec 4 := 0x0
/-- BITOP (R100) -/
abbrev bitop : BitVec 4 := 0x1
/-- LDO (R100) -/
abbrev ldo : BitVec 4 := 0x2
/-- LDR (R100) -/
abbrev ldr : BitVec 4 := 0x3
/-- STO (R100) -/
abbrev sto : BitVec 4 := 0x4
/-- STR (R100) -/
abbrev str : BitVec 4 := 0x5
/-- XFER (R100) -/
abbrev xfer : BitVec 4 := 0x6
/-- MOVL (R100) -/
abbrev movl : BitVec 4 := 0x7
/-- MOVH (R100) -/
abbrev movh : BitVec 4 := 0x8
/-- COND (R100) -/
abbrev cond : BitVec 4 := 0x9
/-- JMP (R100) -/
abbrev jmp : BitVec 4 := 0xA
/-- CALL (R100) -/
abbrev call : BitVec 4 := 0xB
/-- CALLF (R100) -/
abbrev callf : BitVec 4 := 0xC
/-- CODE (R100) -/
abbrev code : BitVec 4 := 0xD

/-! ### Second opcodes under ARITOP (R101) -/

/-- ADD (R101) -/
abbrev Arit.add : BitVec 4 := 0x0
/-- ADDI (R101) -/
abbrev Arit.addi : BitVec 4 := 0x1
/-- ADDC (R101) -/
abbrev Arit.addc : BitVec 4 := 0x2
/-- SUB (R101) -/
abbrev Arit.sub : BitVec 4 := 0x3
/-- SUBI (R101) -/
abbrev Arit.subi : BitVec 4 := 0x4
/-- SUBB (R101) -/
abbrev Arit.subb : BitVec 4 := 0x5
/-- CMP (R101) -/
abbrev Arit.cmp : BitVec 4 := 0x6
/-- CMPI (R101) -/
abbrev Arit.cmpi : BitVec 4 := 0x7
/-- MUL (R101) -/
abbrev Arit.mul : BitVec 4 := 0x8
/-- DIV (R101) -/
abbrev Arit.div : BitVec 4 := 0x9
/-- MOD (R101) -/
abbrev Arit.mod : BitVec 4 := 0xA
/-- NEG (R101) -/
abbrev Arit.neg : BitVec 4 := 0xB
/-- SHRA (R101) -/
abbrev Arit.shra : BitVec 4 := 0xE
/-- SHLA (R101) -/
abbrev Arit.shla : BitVec 4 := 0xF

/-! ### Second opcodes under BITOP (R102) -/

/-- AND (R102) -/
abbrev Bit.and : BitVec 4 := 0x0
/-- OR (R102) -/
abbrev Bit.or : BitVec 4 := 0x1
/-- NOT (R102) -/
abbrev Bit.not : BitVec 4 := 0x2
/-- XOR (R102) -/
abbrev Bit.xor : BitVec 4 := 0x3
/-- TEST (R102) -/
abbrev Bit.test : BitVec 4 := 0x4
/-- BIT (R102) -/
abbrev Bit.bit : BitVec 4 := 0x5
/-- SETBIT (R102) -/
abbrev Bit.setbit : BitVec 4 := 0x6
/-- CLRBIT (R102) -/
abbrev Bit.clrbit : BitVec 4 := 0x7
/-- CPLBIT (R102) -/
abbrev Bit.cplbit : BitVec 4 := 0x8
/-- SHR (R102) -/
abbrev Bit.shr : BitVec 4 := 0x9
/-- SHL (R102) -/
abbrev Bit.shl : BitVec 4 := 0xA
/-- ROR (R102) -/
abbrev Bit.ror : BitVec 4 := 0xB
/-- ROL (R102) -/
abbrev Bit.rol : BitVec 4 := 0xC
/-- RORC (R102) -/
abbrev Bit.rorc : BitVec 4 := 0xD
/-- ROLC (R102) -/
abbrev Bit.rolc : BitVec 4 := 0xE

/-! ### Second opcodes under XFER (R103) -/

/-- LDB (R103) -/
abbrev Xfer.ldb : BitVec 4 := 0x0
/-- STB (R103) -/
abbrev Xfer.stb : BitVec 4 := 0x1
/-- LDP (R103) -/
abbrev Xfer.ldp : BitVec 4 := 0x2
/-- STP (R103) -/
abbrev Xfer.stp : BitVec 4 := 0x3
/-- MOVRR (R103) -/
abbrev Xfer.movrr : BitVec 4 := 0x4
/-- MOVAR (R103) -/
abbrev Xfer.movar : BitVec 4 := 0x5
/-- MOVRA (R103) -/
abbrev Xfer.movra : BitVec 4 := 0x6
/-- MOVRU (R103) -/
abbrev Xfer.movru : BitVec 4 := 0x7
/-- MOVUR (R103) -/
abbrev Xfer.movur : BitVec 4 := 0x8
/-- SWAPR (R103) -/
abbrev Xfer.swapr : BitVec 4 := 0x9
/-- SWAPM (R103) -/
abbrev Xfer.swapm : BitVec 4 := 0xA
/-- PUSH (R103) -/
abbrev Xfer.push : BitVec 4 := 0xB
/-- POP (R103) -/
abbrev Xfer.pop : BitVec 4 := 0xC

/-! ### Second opcodes under COND (R104) -/

/-- JZ (R104) -/
abbrev Cond.jz : BitVec 4 := 0x0
/-- JNZ (R104) -/
abbrev Cond.jnz : BitVec 4 := 0x1
/-- JN (R104) -/
abbrev Cond.jn : BitVec 4 := 0x2
/-- JNN (R104) -/
abbrev Cond.jnn : BitVec 4 := 0x3
/-- JP (R104) -/
abbrev Cond.jp : BitVec 4 := 0x4
/-- JNP (R104) -/
abbrev Cond.jnp : BitVec 4 := 0x5
/-- JC (R104) -/
abbrev Cond.jc : BitVec 4 := 0x6
/-- JNC (R104) -/
abbrev Cond.jnc : BitVec 4 := 0x7
/-- JV (R104) -/
abbrev Cond.jv : BitVec 4 := 0x8
/-- JNV (R104) -/
abbrev Cond.jnv : BitVec 4 := 0x9
/-- JA (R104) -/
abbrev Cond.ja : BitVec 4 := 0xA
/-- JNA (R104) -/
abbrev Cond.jna : BitVec 4 := 0xB
/-- JLT (R104) -/
abbrev Cond.jlt : BitVec 4 := 0xC
/-- JLE (R104) -/
abbrev Cond.jle : BitVec 4 := 0xD
/-- JGT (R104) -/
abbrev Cond.jgt : BitVec 4 := 0xE
/-- JGE (R104) -/
abbrev Cond.jge : BitVec 4 := 0xF

/-! ### Second opcodes under CODE (R105) -/

/-- JMPR (R105) -/
abbrev Code.jmpr : BitVec 4 := 0x0
/-- CR (R105) -/
abbrev Code.cr : BitVec 4 := 0x1
/-- CRF (R105) -/
abbrev Code.crf : BitVec 4 := 0x2
/-- RET (R105) -/
abbrev Code.ret : BitVec 4 := 0x3
/-- RETF (R105) -/
abbrev Code.retf : BitVec 4 := 0x4
/-- SWE (R105) -/
abbrev Code.swe : BitVec 4 := 0x5
/-- RFE (R105) -/
abbrev Code.rfe : BitVec 4 := 0x6
/-- NOP (R105) -/
abbrev Code.nop : BitVec 4 := 0x7

end Sys2Proof.Opmap
end

