-- ==== Sys2Proof/WellFormed.lean ====
section
/-!
DEFINITION. Which operands an instruction word can hold (30_encoding.md R95 to R97).
-/
namespace Sys2Proof

/-- ADDI, SUBI, CMPI: "k ∈ [-8 .. +7]" (R95). -/
def isK4 (k : Int) : Bool := decide (-8 ≤ k ∧ k ≤ 7)

/-- Bit numbers and counts: "n ∈ [0 .. 15]" (R95). -/
def isN4 (n : Nat) : Bool := decide (n ≤ 15)

/-- LDO, STO: "off ∈ [-16 .. +14]", even (R95, R96). -/
def isOff (off : Int) : Bool := decide (-16 ≤ off ∧ off ≤ 14) && decide (off % 2 = 0)

/-- MOVL: "k ∈ [-128 .. +127]"; the same range for the 8-bit displacement (R95, R97). -/
def isS8 (k : Int) : Bool := decide (-128 ≤ k ∧ k ≤ 127)

/-- MOVH, SWE: "k ∈ [0 .. 255]" (R95). -/
def isU8 (k : Nat) : Bool := decide (k ≤ 255)

/-- The 12-bit displacement of JMP, CALL, CALLF, in words: reach EIS - 4096 to EIS + 4094 (R97). -/
def isS12 (dif : Int) : Bool := decide (-2048 ≤ dif ∧ dif ≤ 2047)

/-- The operands fit the fields of the instruction's encoding. -/
def Instr.wellFormed : Instr → Bool
  | .add _ _ | .addc _ _ | .sub _ _ | .subb _ _ | .cmp _ _ | .mul _ _ | .div _ _ | .mod _ _ | .neg _ => true
  | .addi _ k | .subi _ k | .cmpi _ k => isK4 k
  | .shra _ n | .shla _ n => isN4 n
  | .and _ _ | .or _ _ | .not _ | .xor _ _ | .test _ _ => true
  | .bit _ n | .setbit _ n | .clrbit _ n | .cplbit _ n => isN4 n
  | .shr _ n | .shl _ n | .ror _ n | .rol _ n | .rorc _ n | .rolc _ n => isN4 n
  | .ldo _ _ off | .sto _ off _ => isOff off
  | .ldr _ _ _ | .str _ _ _ => true
  | .ldb _ _ | .stb _ _ | .ldp _ _ | .stp _ _ | .movrr _ _ | .movar _ _ | .movra _ _ | .movru _ | .movur _ => true
  | .swapr _ _ | .swapm _ _ | .push _ | .pop _ => true
  | .movl _ k => isS8 k
  | .movh _ k => isU8 k
  | .jz d | .jnz d | .jn d | .jnn d | .jp d | .jnp d | .jc d | .jnc d => isS8 d
  | .jv d | .jnv d | .ja d | .jna d | .jlt d | .jle d | .jgt d | .jge d => isS8 d
  | .jmp d | .call d | .callf d => isS12 d
  | .jmpr _ | .cr _ | .crf _ | .ret | .retf | .rfe | .nop => true
  | .swe k => isU8 k

/-- `i` is an instruction that some word encodes. -/
abbrev Instr.WellFormed (i : Instr) : Prop := i.wellFormed = true

end Sys2Proof
end

