-- ==== Sys2Proof/Decode.lean ====
section
/-!
DEFINITION. The decoder, total on all words (30_encoding.md R108), and the encoder. The numbers and the field
positions are those of the parameter OPMAP (Sys2Proof/Machine/Opmap.lean; D1, D2: log 1, log 2). Fields marked XXXX are
ignored by the decoder and written 0 by the encoder (R98).
-/
namespace Sys2Proof

/-- The register with a number (R20, R94). -/
def Reg.ofField (b : BitVec 4) : Reg :=
  if h : b.toNat < 11 then .r ⟨b.toNat, h⟩
  else if b.toNat = 11 then .rl
  else if b.toNat = 12 then .sp
  else if b.toNat = 13 then .re
  else if b.toNat = 14 then .bte
  else .temp

/-- The number of a register (R20, R94). -/
def Reg.field : Reg → BitVec 4
  | .r i => BitVec.ofNat 4 i.val
  | .rl => 11
  | .sp => 12
  | .re => 13
  | .bte => 14
  | .temp => 15

/-! ### The fields of a word (R91, R92) -/

/-- The field "1º opcode" of a word. -/
def opcode1 (w : Word) : BitVec 4 := w.extractLsb' Opmap.opcode1At 4

/-- The field "2º opcode" of a word, in format R3 and RI8 a register. -/
def opcode2 (w : Word) : BitVec 4 := w.extractLsb' Opmap.opcode2At 4

/-- The field "1º operando" of a word: A of R92. -/
def operand1 (w : Word) : BitVec 4 := w.extractLsb' Opmap.operand1At 4

/-- The field "2º operando" of a word: B of R92. -/
def operand2 (w : Word) : BitVec 4 := w.extractLsb' Opmap.operand2At 4

/-- The constant of 8 bits of formats RI8, C8 and K8: both operands joined (R92, D2). -/
def constant8 (w : Word) : BitVec 8 := operand1 w ++ operand2 w

/-- The displacement of 12 bits of format J12: the second opcode and both operands joined (R92, D2). -/
def constant12 (w : Word) : BitVec 12 := opcode2 w ++ operand1 w ++ operand2 w

/-- Four bits at their position, every other bit 0. -/
def fieldAt (position : Nat) (v : BitVec 4) : Word := v.setWidth 16 <<< position

/-- A word of format RR or R3: the four fields at their positions (R91, R92). -/
def fields (op1 op2 a b : BitVec 4) : Word :=
  fieldAt Opmap.opcode1At op1 ||| fieldAt Opmap.opcode2At op2 ||| fieldAt Opmap.operand1At a ||| fieldAt Opmap.operand2At b

/-- A word of format RI8, C8 or K8 (R92). -/
def fields8 (op1 op2 : BitVec 4) (k : BitVec 8) : Word := fields op1 op2 (k.extractLsb' 4 4) (k.extractLsb' 0 4)

/-- A word of format J12 (R92). -/
def fields12 (op1 : BitVec 4) (dif : BitVec 12) : Word :=
  fields op1 (dif.extractLsb' 8 4) (dif.extractLsb' 4 4) (dif.extractLsb' 0 4)

/-! ### The decoder -/

/-- Why a word is no instruction (R106): each raises COD_INV. -/
inductive DecodeError where
  /-- OP1 = EH or FH: no row of the tables uses them -/
  | unusedFirstOpcode
  /-- a "Livre" second opcode under ARITOP -/
  | freeAritop
  /-- a "Livre" second opcode under BITOP -/
  | freeBitop
  /-- a "Livre" second opcode under XFER -/
  | freeXfer
  /-- a "Livre" second opcode under CODE -/
  | freeCode
deriving DecidableEq, Repr

/-- Second opcodes under ARITOP (R101). -/
def decodeAritop (op2 a b : BitVec 4) : Except DecodeError Instr :=
  let rd := Reg.ofField a
  let rs := Reg.ofField b
  if op2 = Opmap.Arit.add then .ok (.add rd rs)
  else if op2 = Opmap.Arit.addi then .ok (.addi rd b.toInt)
  else if op2 = Opmap.Arit.addc then .ok (.addc rd rs)
  else if op2 = Opmap.Arit.sub then .ok (.sub rd rs)
  else if op2 = Opmap.Arit.subi then .ok (.subi rd b.toInt)
  else if op2 = Opmap.Arit.subb then .ok (.subb rd rs)
  else if op2 = Opmap.Arit.cmp then .ok (.cmp rd rs)
  else if op2 = Opmap.Arit.cmpi then .ok (.cmpi rd b.toInt)
  else if op2 = Opmap.Arit.mul then .ok (.mul rd rs)
  else if op2 = Opmap.Arit.div then .ok (.div rd rs)
  else if op2 = Opmap.Arit.mod then .ok (.mod rd rs)
  else if op2 = Opmap.Arit.neg then .ok (.neg rd)
  else if op2 = Opmap.Arit.shra then .ok (.shra rd b.toNat)
  else if op2 = Opmap.Arit.shla then .ok (.shla rd b.toNat)
  else .error .freeAritop

/-- Second opcodes under BITOP (R102). -/
def decodeBitop (op2 a b : BitVec 4) : Except DecodeError Instr :=
  let rd := Reg.ofField a
  let rs := Reg.ofField b
  if op2 = Opmap.Bit.and then .ok (.and rd rs)
  else if op2 = Opmap.Bit.or then .ok (.or rd rs)
  else if op2 = Opmap.Bit.not then .ok (.not rd)
  else if op2 = Opmap.Bit.xor then .ok (.xor rd rs)
  else if op2 = Opmap.Bit.test then .ok (.test rd rs)
  else if op2 = Opmap.Bit.bit then .ok (.bit rd b.toNat)
  else if op2 = Opmap.Bit.setbit then .ok (.setbit rd b.toNat)
  else if op2 = Opmap.Bit.clrbit then .ok (.clrbit rd b.toNat)
  else if op2 = Opmap.Bit.cplbit then .ok (.cplbit rd b.toNat)
  else if op2 = Opmap.Bit.shr then .ok (.shr rd b.toNat)
  else if op2 = Opmap.Bit.shl then .ok (.shl rd b.toNat)
  else if op2 = Opmap.Bit.ror then .ok (.ror rd b.toNat)
  else if op2 = Opmap.Bit.rol then .ok (.rol rd b.toNat)
  else if op2 = Opmap.Bit.rorc then .ok (.rorc rd b.toNat)
  else if op2 = Opmap.Bit.rolc then .ok (.rolc rd b.toNat)
  else .error .freeBitop

/-- Second opcodes under XFER (R103). -/
def decodeXfer (op2 a b : BitVec 4) : Except DecodeError Instr :=
  let rd := Reg.ofField a
  let rs := Reg.ofField b
  if op2 = Opmap.Xfer.ldb then .ok (.ldb rd rs)
  else if op2 = Opmap.Xfer.stb then .ok (.stb rd rs)
  else if op2 = Opmap.Xfer.ldp then .ok (.ldp rd rs)
  else if op2 = Opmap.Xfer.stp then .ok (.stp rd rs)
  else if op2 = Opmap.Xfer.movrr then .ok (.movrr rd rs)
  else if op2 = Opmap.Xfer.movar then .ok (.movar a.toFin rs)
  else if op2 = Opmap.Xfer.movra then .ok (.movra rd b.toFin)
  else if op2 = Opmap.Xfer.movru then .ok (.movru rd)
  else if op2 = Opmap.Xfer.movur then .ok (.movur rs)
  else if op2 = Opmap.Xfer.swapr then .ok (.swapr rd rs)
  else if op2 = Opmap.Xfer.swapm then .ok (.swapm rd rs)
  else if op2 = Opmap.Xfer.push then .ok (.push rd)
  else if op2 = Opmap.Xfer.pop then .ok (.pop rd)
  else .error .freeXfer

/-- Second opcodes under COND (R104), with the 8-bit displacement: all sixteen are used. -/
def decodeCond (op2 : BitVec 4) (k : BitVec 8) : Instr :=
  let dif := k.toInt
  if op2 = Opmap.Cond.jz then .jz dif
  else if op2 = Opmap.Cond.jnz then .jnz dif
  else if op2 = Opmap.Cond.jn then .jn dif
  else if op2 = Opmap.Cond.jnn then .jnn dif
  else if op2 = Opmap.Cond.jp then .jp dif
  else if op2 = Opmap.Cond.jnp then .jnp dif
  else if op2 = Opmap.Cond.jc then .jc dif
  else if op2 = Opmap.Cond.jnc then .jnc dif
  else if op2 = Opmap.Cond.jv then .jv dif
  else if op2 = Opmap.Cond.jnv then .jnv dif
  else if op2 = Opmap.Cond.ja then .ja dif
  else if op2 = Opmap.Cond.jna then .jna dif
  else if op2 = Opmap.Cond.jlt then .jlt dif
  else if op2 = Opmap.Cond.jle then .jle dif
  else if op2 = Opmap.Cond.jgt then .jgt dif
  else .jge dif

/-- Second opcodes under CODE (R105); SWE takes both operand fields as its constant. -/
def decodeCode (op2 b : BitVec 4) (k : BitVec 8) : Except DecodeError Instr :=
  let rs := Reg.ofField b
  if op2 = Opmap.Code.jmpr then .ok (.jmpr rs)
  else if op2 = Opmap.Code.cr then .ok (.cr rs)
  else if op2 = Opmap.Code.crf then .ok (.crf rs)
  else if op2 = Opmap.Code.ret then .ok .ret
  else if op2 = Opmap.Code.retf then .ok .retf
  else if op2 = Opmap.Code.swe then .ok (.swe k.toNat)
  else if op2 = Opmap.Code.rfe then .ok .rfe
  else if op2 = Opmap.Code.nop then .ok .nop
  else .error .freeCode

/-- The decoder (R93, R100, R108). -/
def decode (w : Word) : Except DecodeError Instr :=
  let op1 := opcode1 w
  let op2 := opcode2 w
  let a := operand1 w
  let b := operand2 w
  let k := constant8 w
  if op1 = Opmap.aritop then decodeAritop op2 a b
  else if op1 = Opmap.bitop then decodeBitop op2 a b
  else if op1 = Opmap.ldo then .ok (.ldo (Reg.ofField op2) (Reg.ofField a) (b.toInt * 2))
  else if op1 = Opmap.ldr then .ok (.ldr (Reg.ofField op2) (Reg.ofField a) (Reg.ofField b))
  else if op1 = Opmap.sto then .ok (.sto (Reg.ofField a) (b.toInt * 2) (Reg.ofField op2))
  else if op1 = Opmap.str then .ok (.str (Reg.ofField a) (Reg.ofField b) (Reg.ofField op2))
  else if op1 = Opmap.xfer then decodeXfer op2 a b
  else if op1 = Opmap.movl then .ok (.movl (Reg.ofField op2) k.toInt)
  else if op1 = Opmap.movh then .ok (.movh (Reg.ofField op2) k.toNat)
  else if op1 = Opmap.cond then .ok (decodeCond op2 k)
  else if op1 = Opmap.jmp then .ok (.jmp (constant12 w).toInt)
  else if op1 = Opmap.call then .ok (.call (constant12 w).toInt)
  else if op1 = Opmap.callf then .ok (.callf (constant12 w).toInt)
  else if op1 = Opmap.code then decodeCode op2 b k
  else .error .unusedFirstOpcode

/-- The decoder on an instruction as it lies in memory: the byte at the even address first (R62, R91). -/
def decodeBytes (high low : Byte) : Except DecodeError Instr := decode (high ++ low)

/-! ### The encoder -/

/-- The word of an instruction, by the encoding lines of its own rule in the files 40 to 44. -/
def encode : Instr → Word
  | .add rd rs => fields Opmap.aritop Opmap.Arit.add rd.field rs.field
  | .addi rd k => fields Opmap.aritop Opmap.Arit.addi rd.field (BitVec.ofInt 4 k)
  | .addc rd rs => fields Opmap.aritop Opmap.Arit.addc rd.field rs.field
  | .sub rd rs => fields Opmap.aritop Opmap.Arit.sub rd.field rs.field
  | .subi rd k => fields Opmap.aritop Opmap.Arit.subi rd.field (BitVec.ofInt 4 k)
  | .subb rd rs => fields Opmap.aritop Opmap.Arit.subb rd.field rs.field
  | .cmp rd rs => fields Opmap.aritop Opmap.Arit.cmp rd.field rs.field
  | .cmpi rd k => fields Opmap.aritop Opmap.Arit.cmpi rd.field (BitVec.ofInt 4 k)
  | .mul rd rs => fields Opmap.aritop Opmap.Arit.mul rd.field rs.field
  | .div rd rs => fields Opmap.aritop Opmap.Arit.div rd.field rs.field
  | .mod rd rs => fields Opmap.aritop Opmap.Arit.mod rd.field rs.field
  | .neg rd => fields Opmap.aritop Opmap.Arit.neg rd.field 0x0
  | .shra rd n => fields Opmap.aritop Opmap.Arit.shra rd.field (BitVec.ofNat 4 n)
  | .shla rd n => fields Opmap.aritop Opmap.Arit.shla rd.field (BitVec.ofNat 4 n)
  | .and rd rs => fields Opmap.bitop Opmap.Bit.and rd.field rs.field
  | .or rd rs => fields Opmap.bitop Opmap.Bit.or rd.field rs.field
  | .not rd => fields Opmap.bitop Opmap.Bit.not rd.field 0x0
  | .xor rd rs => fields Opmap.bitop Opmap.Bit.xor rd.field rs.field
  | .test rd rs => fields Opmap.bitop Opmap.Bit.test rd.field rs.field
  | .bit rd n => fields Opmap.bitop Opmap.Bit.bit rd.field (BitVec.ofNat 4 n)
  | .setbit rd n => fields Opmap.bitop Opmap.Bit.setbit rd.field (BitVec.ofNat 4 n)
  | .clrbit rd n => fields Opmap.bitop Opmap.Bit.clrbit rd.field (BitVec.ofNat 4 n)
  | .cplbit rd n => fields Opmap.bitop Opmap.Bit.cplbit rd.field (BitVec.ofNat 4 n)
  | .shr rd n => fields Opmap.bitop Opmap.Bit.shr rd.field (BitVec.ofNat 4 n)
  | .shl rd n => fields Opmap.bitop Opmap.Bit.shl rd.field (BitVec.ofNat 4 n)
  | .ror rd n => fields Opmap.bitop Opmap.Bit.ror rd.field (BitVec.ofNat 4 n)
  | .rol rd n => fields Opmap.bitop Opmap.Bit.rol rd.field (BitVec.ofNat 4 n)
  | .rorc rd n => fields Opmap.bitop Opmap.Bit.rorc rd.field (BitVec.ofNat 4 n)
  | .rolc rd n => fields Opmap.bitop Opmap.Bit.rolc rd.field (BitVec.ofNat 4 n)
  | .ldo rd rs off => fields Opmap.ldo rd.field rs.field (BitVec.ofInt 4 (off / 2))
  | .ldr rd rs ri => fields Opmap.ldr rd.field rs.field ri.field
  | .sto rd off rs => fields Opmap.sto rs.field rd.field (BitVec.ofInt 4 (off / 2))
  | .str rd ri rs => fields Opmap.str rs.field rd.field ri.field
  | .ldb rd rs => fields Opmap.xfer Opmap.Xfer.ldb rd.field rs.field
  | .stb rd rs => fields Opmap.xfer Opmap.Xfer.stb rd.field rs.field
  | .ldp rd rs => fields Opmap.xfer Opmap.Xfer.ldp rd.field rs.field
  | .stp rd rs => fields Opmap.xfer Opmap.Xfer.stp rd.field rs.field
  | .movrr rd rs => fields Opmap.xfer Opmap.Xfer.movrr rd.field rs.field
  | .movar ad rs => fields Opmap.xfer Opmap.Xfer.movar (BitVec.ofFin ad) rs.field
  | .movra rd ax => fields Opmap.xfer Opmap.Xfer.movra rd.field (BitVec.ofFin ax)
  | .movru rd => fields Opmap.xfer Opmap.Xfer.movru rd.field 0x0
  | .movur rs => fields Opmap.xfer Opmap.Xfer.movur 0x0 rs.field
  | .swapr rd rs => fields Opmap.xfer Opmap.Xfer.swapr rd.field rs.field
  | .swapm rd rs => fields Opmap.xfer Opmap.Xfer.swapm rd.field rs.field
  | .push rd => fields Opmap.xfer Opmap.Xfer.push rd.field 0x0
  | .pop rd => fields Opmap.xfer Opmap.Xfer.pop rd.field 0x0
  | .movl rd k => fields8 Opmap.movl rd.field (BitVec.ofInt 8 k)
  | .movh rd k => fields8 Opmap.movh rd.field (BitVec.ofNat 8 k)
  | .jz dif => fields8 Opmap.cond Opmap.Cond.jz (BitVec.ofInt 8 dif)
  | .jnz dif => fields8 Opmap.cond Opmap.Cond.jnz (BitVec.ofInt 8 dif)
  | .jn dif => fields8 Opmap.cond Opmap.Cond.jn (BitVec.ofInt 8 dif)
  | .jnn dif => fields8 Opmap.cond Opmap.Cond.jnn (BitVec.ofInt 8 dif)
  | .jp dif => fields8 Opmap.cond Opmap.Cond.jp (BitVec.ofInt 8 dif)
  | .jnp dif => fields8 Opmap.cond Opmap.Cond.jnp (BitVec.ofInt 8 dif)
  | .jc dif => fields8 Opmap.cond Opmap.Cond.jc (BitVec.ofInt 8 dif)
  | .jnc dif => fields8 Opmap.cond Opmap.Cond.jnc (BitVec.ofInt 8 dif)
  | .jv dif => fields8 Opmap.cond Opmap.Cond.jv (BitVec.ofInt 8 dif)
  | .jnv dif => fields8 Opmap.cond Opmap.Cond.jnv (BitVec.ofInt 8 dif)
  | .ja dif => fields8 Opmap.cond Opmap.Cond.ja (BitVec.ofInt 8 dif)
  | .jna dif => fields8 Opmap.cond Opmap.Cond.jna (BitVec.ofInt 8 dif)
  | .jlt dif => fields8 Opmap.cond Opmap.Cond.jlt (BitVec.ofInt 8 dif)
  | .jle dif => fields8 Opmap.cond Opmap.Cond.jle (BitVec.ofInt 8 dif)
  | .jgt dif => fields8 Opmap.cond Opmap.Cond.jgt (BitVec.ofInt 8 dif)
  | .jge dif => fields8 Opmap.cond Opmap.Cond.jge (BitVec.ofInt 8 dif)
  | .jmp dif => fields12 Opmap.jmp (BitVec.ofInt 12 dif)
  | .call dif => fields12 Opmap.call (BitVec.ofInt 12 dif)
  | .callf dif => fields12 Opmap.callf (BitVec.ofInt 12 dif)
  | .jmpr rs => fields Opmap.code Opmap.Code.jmpr 0x0 rs.field
  | .cr rs => fields Opmap.code Opmap.Code.cr 0x0 rs.field
  | .crf rs => fields Opmap.code Opmap.Code.crf 0x0 rs.field
  | .ret => fields Opmap.code Opmap.Code.ret 0x0 0x0
  | .retf => fields Opmap.code Opmap.Code.retf 0x0 0x0
  | .swe k => fields8 Opmap.code Opmap.Code.swe (BitVec.ofNat 8 k)
  | .rfe => fields Opmap.code Opmap.Code.rfe 0x0 0x0
  | .nop => fields Opmap.code Opmap.Code.nop 0x0 0x0

/-- The bits of an instruction's word that the PEPE ignores: the fields marked XXXX (R98). -/
def Instr.ignoredBits : Instr → Word
  | .neg _ | .not _ | .movru _ | .push _ | .pop _ => fieldAt Opmap.operand2At 0xF
  | .movur _ | .jmpr _ | .cr _ | .crf _ => fieldAt Opmap.operand1At 0xF
  | .ret | .retf | .rfe | .nop => fieldAt Opmap.operand1At 0xF ||| fieldAt Opmap.operand2At 0xF
  | _ => 0x0000

/-- The instruction the decoder reads from an instruction whose bits are `w`, numbered as `spec/opcode_table.json`
numbers them; `nbits` is the width the table gives, the bits above it being 0. The one word is laid out in memory order
(its byte of bits 15..8 first, R62) and given to the decoder. -/
def decodeTableWord (nbits w : Nat) : Option Instr :=
  let word := w % 2 ^ nbits
  (decodeBytes (BitVec.ofNat 8 (word / 256)) (BitVec.ofNat 8 word)).toOption

end Sys2Proof
end

