-- ==== Sys2Proof/Machine/Fetch.lean ====
section
/-!
DEFINITION. Fetching and decoding the next instruction (20_memory.md R69, 60_exceptions.md R326, R328), and placing one
where the fetch finds it.
-/
namespace Sys2Proof.Machine

/-- The instruction at pc, decoded from its two bytes (R62, R69). -/
def State.fetched (s : State) : Except DecodeError Instr := decodeBytes (s.byteAt s.pc) (s.byteAt (s.pc + 1))

/-- I_DESALINHADO (R328): a fetch with pc odd; what is saved is the parameter IFETCH_FAULT_RER (D11; log 17). -/
def State.fetchMisaligned (s : State) : Result := s.enter .iDesalinhado (Params.ifetchFaultRer s.pc)

/-- COD_INV (R326): detected at decode, before any effect; the address after the word is saved (D11; log 17). -/
def State.invalidOpcode (s : State) : Result := s.enter .codInv s.eis

/-- The step of R332 after its boundary: an interrupt, or a misaligned fetch, or an invalid opcode, or one instruction
run by `run`. The fetch is a bus cycle: DMA accesses may come between it and what follows (R72, R350). -/
def State.dispatch (s : State) (run : Instr → State → Result) : Result :=
  match s.readyInt with
  | some i => s.takeInt i
  | none =>
    if isEven s.pc then
      match s.fetched with
      | .ok i => run i s.gap
      | .error _ => s.gap.invalidOpcode
    else s.fetchMisaligned

/-- `s` with the one-word instruction of bits `w` stored big-endian at pc (R62, R69). -/
def State.placeAtPc (s : State) (nbits w : Nat) : State := s.setWord s.pc (BitVec.ofNat 16 (w % 2 ^ nbits))

end Sys2Proof.Machine
end

