-- ==== Sys2Proof/Machine/Step.lean ====
section
/-!
DEFINITION. One step of the machine (60_exceptions.md R332).
-/
namespace Sys2Proof.Machine

/-- One step: the boundary with the environment's events, then an interrupt entry, or a misaligned fetch, or an invalid
opcode, or one instruction. -/
def step (s : State) : Host.Outcome State Fault Refusal := s.boundary.dispatch exec

/-- `s` with the instruction whose bits are `w` (numbered as `spec/opcode_table.json` numbers them) stored where the next
step fetches: at pc. Nothing else changes. -/
def State.withFetchWord (s : State) (nbits w : Nat) : State := s.placeAtPc nbits w

end Sys2Proof.Machine
end

