-- ==== Sys2Proof/Machine/Assembler.lean ====
section
/-!
DEFINITION. The assembler of 49_assembler.md, which 00_scope.md R3 puts in scope: literals, the choice of the machine
instruction, the assembler-only mnemonics, labels, the address counter and the directives. It is no part of the hardware
and touches no state; what it yields is an image that a platform loads (R47, R61). Lexical details the manual leaves
open: log 45.
-/
namespace Sys2Proof.Machine.Asm

/-! ### Literals (R292 to R297) -/

/-- A digit in the bases up to sixteen; letters of either case (log 45). -/
def digit? (c : Char) : Option Nat :=
  if '0'.toNat ≤ c.toNat ∧ c.toNat ≤ '9'.toNat then some (c.toNat - '0'.toNat)
  else if 'a'.toNat ≤ c.toNat ∧ c.toNat ≤ 'f'.toNat then some (c.toNat - 'a'.toNat + 10)
  else if 'A'.toNat ≤ c.toNat ∧ c.toNat ≤ 'F'.toNat then some (c.toNat - 'A'.toNat + 10)
  else none

/-- The value of a non-empty run of digits of a base. -/
def natural (base : Nat) (cs : List Char) : Option Nat :=
  if cs.isEmpty then none
  else cs.foldl (fun acc c => acc.bind fun n => (digit? c).bind fun d => if d < base then some (n * base + d) else none) (some 0)

/-- A value of 16 bits written without a sign: 0 to 65535 (R292 with 90_conflicts.md C11, R293, R295). -/
def unsigned16 (v : Option Nat) : Option Int :=
  v.bind fun n => if n ≤ 65535 then some (n : Int) else none

/-- A decimal literal, with an optional sign, -32768 to 65535 (R294; that `+` may be written: DESIGN CHOICE, log 45). The
value is kept as written, since R308 and the ranges of R95 tell -1 from 65535; wherever it becomes an address, a size or
data it is the 16-bit pattern that both stand for. -/
def decimal (cs : List Char) : Option Int :=
  match cs with
  | '-' :: ds => (natural 10 ds).bind fun n => if n ≤ 32768 then some (-(n : Int)) else none
  | '+' :: ds => unsigned16 (natural 10 ds)
  | ds => unsigned16 (natural 10 ds)

/-- A numeric literal: binary ends in b, octal in o, hexadecimal in h and begins with a decimal digit, decimal in d or
nothing (R292 to R295). -/
def numeric (cs : List Char) : Option Int :=
  match cs.getLast? with
  | none => none
  | some last =>
    let body := cs.dropLast
    if last = 'b' ∨ last = 'B' then unsigned16 (natural 2 body)
    else if last = 'o' ∨ last = 'O' then unsigned16 (natural 8 body)
    else if last = 'h' ∨ last = 'H' then
      if body.headD 'x' ≤ '9' ∧ '0' ≤ body.headD 'x' then unsigned16 (natural 16 body) else none
    else if last = 'd' ∨ last = 'D' then decimal body
    else decimal cs

/-- A character literal: its ASCII code (R296; the table itself is general knowledge, and a character outside it is refused,
DESIGN CHOICE: log 45). -/
def character (c : Char) : Option Int := if c.toNat < 128 then some (c.toNat : Int) else none

/-- A label or symbol: letters, digits and `_`, the first no digit (R299). That the letters are those of ASCII, of either case,
and that a name may be spelt as a register or a mnemonic is: DESIGN CHOICE, R299 does not say (log 45). -/
def isName (cs : List Char) : Bool :=
  match cs with
  | [] => false
  | c :: _ => !c.isDigit && cs.all fun d => d.isAlphanum || d == '_'

/-! ### The assembler-only mnemonics (R308 to R311) -/

/-- `MOV Rd, k` (R308, D38): MOVL alone for -128 to 127, else MOVL of the low byte and MOVH of the high byte. -/
def movConstant (rd : Reg) (k : Int) : Option (List Instr) :=
  if -128 ≤ k ∧ k ≤ 127 then some [.movl rd k]
  else if -32768 ≤ k ∧ k ≤ 65535 then
    let w := BitVec.ofInt 16 k
    some [.movl rd (w.extractLsb' 0 8).toInt, .movh rd (w.extractLsb' 8 8).toNat]
  else none

/-- The fifteen mnemonics on one bit of RE (R175, R309). -/
inductive ReMnemonic where
  | EI | EI0 | EI1 | EI2 | EI3 | SETC | EDMA
  | DI | DI0 | DI1 | DI2 | DI3 | CLRC | DDMA
  | CPLC
deriving DecidableEq, Repr

/-- Their expansion: SET, CLR or CPL of RE with a fixed bit number (R309). -/
def reMnemonic : ReMnemonic → Instr
  | .EI => .setbit .re 7
  | .EI0 => .setbit .re 8
  | .EI1 => .setbit .re 9
  | .EI2 => .setbit .re 10
  | .EI3 => .setbit .re 11
  | .SETC => .setbit .re 2
  | .EDMA => .setbit .re 12
  | .DI => .clrbit .re 7
  | .DI0 => .clrbit .re 8
  | .DI1 => .clrbit .re 9
  | .DI2 => .clrbit .re 10
  | .DI3 => .clrbit .re 11
  | .CLRC => .clrbit .re 2
  | .DDMA => .clrbit .re 12
  | .CPLC => .cplbit .re 2

/-! ### Source lines (R290, R291, R300 to R304) -/

/-- The mnemonics of the assembly language (R309 to R312). -/
inductive Mnemonic where
  | ADD | ADDC | SUB | SUBB | CMP | MUL | DIV | MOD | NEG | SHRA | SHLA
  | AND | OR | NOT | XOR | TEST | BIT | SET | CLR | CPL | SHR | SHL | ROR | ROL | RORC | ROLC
  | MOV | MOVB | MOVP | SWAP | PUSH | POP | MOVL | MOVH
  | JZ | JNZ | JEQ | JNE | JN | JNN | JP | JNP | JC | JNC | JV | JNV | JA | JNA | JLT | JLE | JGT | JGE
  | JMP | CALL | CALLF | RET | RETF | SWE | RFE | NOP
  | onRe (m : ReMnemonic)
deriving DecidableEq, Repr

/-- A constant of the source: a value, or a symbol (a label or an EQU name). -/
inductive Const where
  | num (v : Int)
  | sym (name : List Char)
deriving DecidableEq, Repr

/-- An operand (R290, R291). -/
inductive Operand where
  | reg (r : Reg)
  | aux (a : AReg)
  | usp
  | const (c : Const)
  /-- `[Rb + off]`; `[Rb]` is `off = 0` -/
  | based (rb : Reg) (off : Const)
  /-- `[Rb + Ri]` -/
  | indexed (rb ri : Reg)
deriving DecidableEq, Repr

/-- An item of STRING (R303). -/
inductive Item where
  | const (c : Const)
  | text (cs : List Char)
deriving DecidableEq, Repr

/-- A source line; a label stands before an instruction or a directive that takes one. -/
inductive Line where
  | instr (label : Option (List Char)) (m : Mnemonic) (ops : List Operand)
  | place (address : Const)
  | equ (name : List Char) (c : Const)
  | word (label : Option (List Char)) (c : Const)
  | string (label : Option (List Char)) (items : List Item)
  | table (label : Option (List Char)) (n : Const)
deriving DecidableEq, Repr

/-- Labels and EQU symbols in the order of their lines, each with its value, an address 0 to 65535 or a constant as written, or
`none` while that is not known. Names are told apart character by character, so that `Aqui` and `AQUI` are two symbols: DESIGN
CHOICE, case sensitivity is not given (R299, 91_not_in_source.md N36; log 45). -/
abbrev Symbols := List (List Char × Option Int)

/-- The value of a symbol, where it is known. The name is compared character by character, upper and lower case being
different: DESIGN CHOICE, case sensitivity is not given (R299, 91_not_in_source.md N36; log 45). Of a symbol defined twice the
first definition counts: DESIGN CHOICE, R299 and R301 say nothing of it (log 45). -/
def Symbols.value (sym : Symbols) (name : List Char) : Option Int := (sym.lookup name).join

/-- The value of a constant, where its symbol is known; of names see `Symbols.value`. -/
def Const.value (sym : Symbols) : Const → Option Int
  | .num v => some v
  | .sym name => sym.value name

/-! ### Choosing the machine instruction (R306, R312) -/

/-- An instruction whose operands fit its fields; what the assembler does with others is not stated (R312; log 45). -/
def fitting (i : Instr) : Option (List Instr) := if i.wellFormed then some [i] else none

/-- An unsigned operand. -/
def natOperand (k : Int) : Option Nat := if 0 ≤ k then some k.toNat else none

/-- The displacement of a relative jump or call at address `at_` to a label: `(label - EIS) / 2` (R97, R306). The difference of
the two 16-bit addresses is taken modulo 2^16 (R8) and read as a signed number, so that a jump may pass from FFFFH to 0000H:
DEDUCED, for R97, R251 and R306 do not say what happens there (log 45). A label at an odd distance from EIS, for which
`(label - EIS) / 2` is no whole number, is refused: DESIGN CHOICE, the spec says nothing of it (log 45). -/
def displacement (at_ label : Word) : Option Int :=
  let d := (label - (at_ + 2)).toInt
  if d % 2 = 0 then some (d / 2) else none

/-- A jump or call by label, which must be a symbol: a bare number is refused (R306). A symbol that EQU defines counts as a
symbolic address: DESIGN CHOICE (log 45). -/
def relative (sym : Symbols) (at_ : Word) (label : List Char) (i : Int → Instr) : Option (List Instr) :=
  (sym.value label).bind fun l => (displacement at_ (BitVec.ofInt 16 l)).bind fun d => fitting (i d)

/-- An instruction with a bit number or count. -/
def counted (n : Option Int) (i : Nat → Instr) : Option (List Instr) :=
  n.bind fun k => (natOperand k).bind fun m => fitting (i m)

/-- An instruction with a signed constant. -/
def signed (k : Option Int) (i : Int → Instr) : Option (List Instr) := k.bind fun v => fitting (i v)

/-- The MOVL field as a signed constant: the raw byte 128 to 255 names the same field (90_conflicts.md C22). -/
def movlConstant (k : Int) : Int := if 128 ≤ k ∧ k ≤ 255 then k - 256 else k

/-- The machine instructions one source instruction at address `at_` stands for (R308 to R312). -/
def select (sym : Symbols) (at_ : Word) (m : Mnemonic) (ops : List Operand) : Option (List Instr) :=
  match m, ops with
  | .ADD, [.reg d, .reg s] => some [.add d s]
  | .ADD, [.reg d, .const k] => signed (k.value sym) (.addi d)
  | .ADDC, [.reg d, .reg s] => some [.addc d s]
  | .SUB, [.reg d, .reg s] => some [.sub d s]
  | .SUB, [.reg d, .const k] => signed (k.value sym) (.subi d)
  | .SUBB, [.reg d, .reg s] => some [.subb d s]
  | .CMP, [.reg d, .reg s] => some [.cmp d s]
  | .CMP, [.reg d, .const k] => signed (k.value sym) (.cmpi d)
  | .MUL, [.reg d, .reg s] => some [.mul d s]
  | .DIV, [.reg d, .reg s] => some [.div d s]
  | .MOD, [.reg d, .reg s] => some [.mod d s]
  | .NEG, [.reg d] => some [.neg d]
  | .SHRA, [.reg d, .const n] => counted (n.value sym) (.shra d)
  | .SHLA, [.reg d, .const n] => counted (n.value sym) (.shla d)
  | .AND, [.reg d, .reg s] => some [.and d s]
  | .OR, [.reg d, .reg s] => some [.or d s]
  | .NOT, [.reg d] => some [.not d]
  | .XOR, [.reg d, .reg s] => some [.xor d s]
  | .TEST, [.reg d, .reg s] => some [.test d s]
  | .BIT, [.reg d, .const n] => counted (n.value sym) (.bit d)
  | .SET, [.reg d, .const n] => counted (n.value sym) (.setbit d)
  | .CLR, [.reg d, .const n] => counted (n.value sym) (.clrbit d)
  | .CPL, [.reg d, .const n] => counted (n.value sym) (.cplbit d)
  | .SHR, [.reg d, .const n] => counted (n.value sym) (.shr d)
  | .SHL, [.reg d, .const n] => counted (n.value sym) (.shl d)
  | .ROR, [.reg d, .const n] => counted (n.value sym) (.ror d)
  | .ROL, [.reg d, .const n] => counted (n.value sym) (.rol d)
  | .RORC, [.reg d, .const n] => counted (n.value sym) (.rorc d)
  | .ROLC, [.reg d, .const n] => counted (n.value sym) (.rolc d)
  | .MOV, [.reg d, .const k] => (k.value sym).bind (movConstant d)
  | .MOV, [.reg d, .reg s] => some [.movrr d s]
  | .MOV, [.aux a, .reg s] => some [.movar a s]
  | .MOV, [.reg d, .aux a] => some [.movra d a]
  | .MOV, [.reg d, .usp] => some [.movru d]
  | .MOV, [.usp, .reg s] => some [.movur s]
  | .MOV, [.reg d, .based b off] => signed (off.value sym) (.ldo d b)
  | .MOV, [.reg d, .indexed b i] => some [.ldr d b i]
  | .MOV, [.based b off, .reg s] => signed (off.value sym) fun o => .sto b o s
  | .MOV, [.indexed b i, .reg s] => some [.str b i s]
  | .MOVB, [.reg d, .based b (.num 0)] => some [.ldb d b]
  | .MOVB, [.based b (.num 0), .reg s] => some [.stb b s]
  | .MOVP, [.reg d, .based b (.num 0)] => some [.ldp d b]
  | .MOVP, [.based b (.num 0), .reg s] => some [.stp b s]
  | .SWAP, [.reg d, .reg s] => some [.swapr d s]
  | .SWAP, [.reg d, .based b (.num 0)] => some [.swapm d b]
  | .SWAP, [.based b (.num 0), .reg d] => some [.swapm d b]
  | .PUSH, [.reg d] => some [.push d]
  | .POP, [.reg d] => some [.pop d]
  | .MOVL, [.reg d, .const k] => signed (k.value sym) fun v => .movl d (movlConstant v)
  | .MOVH, [.reg d, .const k] => counted (k.value sym) (.movh d)
  | .JZ, [.const (.sym l)] | .JEQ, [.const (.sym l)] => relative sym at_ l .jz
  | .JNZ, [.const (.sym l)] | .JNE, [.const (.sym l)] => relative sym at_ l .jnz
  | .JN, [.const (.sym l)] => relative sym at_ l .jn
  | .JNN, [.const (.sym l)] => relative sym at_ l .jnn
  | .JP, [.const (.sym l)] => relative sym at_ l .jp
  | .JNP, [.const (.sym l)] => relative sym at_ l .jnp
  | .JC, [.const (.sym l)] => relative sym at_ l .jc
  | .JNC, [.const (.sym l)] => relative sym at_ l .jnc
  | .JV, [.const (.sym l)] => relative sym at_ l .jv
  | .JNV, [.const (.sym l)] => relative sym at_ l .jnv
  | .JA, [.const (.sym l)] => relative sym at_ l .ja
  | .JNA, [.const (.sym l)] => relative sym at_ l .jna
  | .JLT, [.const (.sym l)] => relative sym at_ l .jlt
  | .JLE, [.const (.sym l)] => relative sym at_ l .jle
  | .JGT, [.const (.sym l)] => relative sym at_ l .jgt
  | .JGE, [.const (.sym l)] => relative sym at_ l .jge
  | .JMP, [.const (.sym l)] => relative sym at_ l .jmp
  | .JMP, [.reg s] => some [.jmpr s]
  | .CALL, [.const (.sym l)] => relative sym at_ l .call
  | .CALL, [.reg s] => some [.cr s]
  | .CALLF, [.const (.sym l)] => relative sym at_ l .callf
  | .CALLF, [.reg s] => some [.crf s]
  | .RET, [] => some [.ret]
  | .RETF, [] => some [.retf]
  | .SWE, [.const k] => counted (k.value sym) .swe
  | .RFE, [] => some [.rfe]
  | .NOP, [] => some [.nop]
  | .onRe r, [] => some [reMnemonic r]
  | _, _ => none

/-! ### The address counter, labels and the image (R299 to R305) -/

/-- The lines of a source, each with the length chosen for it: true where it is a `MOV Rd, k` of two instructions (R308). -/
abbrev Sized := List (Line × Bool)

/-- Whether a line is a `MOV Rd, k` whose constant asks for two instructions (R308), as far as its value is known. -/
def Line.asksTwo (sym : Symbols) : Line → Bool
  | .instr _ .MOV [.reg _, .const k] => (k.value sym).any fun v => !(-128 ≤ v && v ≤ 127)
  | _ => false

/-- How many bytes STRING emits: one a constant, one a character (R303). -/
def Item.size : Item → Nat
  | .const _ => 1
  | .text cs => cs.length

/-- The counter after a line (R300 to R305): an instruction moves it by 2, a `MOV Rd, k` of two instructions by 4. It is a 16-bit
address: the negative value v of a PLACE or TABLE stands for v + 65536 (R294), and the counter goes on modulo 2^16 (DESIGN
CHOICE: log 45). It is not known after a PLACE or TABLE whose symbol is not known. -/
def Line.counterAfter (sym : Symbols) (two : Bool) (at_ : Option Word) : Line → Option Word
  | .instr _ _ _ => at_.map (· + if two then 4 else 2)
  | .place a => (a.value sym).map (BitVec.ofInt 16)
  | .equ _ _ => at_
  | .word _ _ => at_.map (· + 2)
  | .string _ items => at_.map (· + BitVec.ofNat 16 (items.map Item.size).sum)
  | .table _ n => at_.bind fun a => (n.value sym).map fun v => a + 2 * BitVec.ofInt 16 v

/-- The symbol a line defines: a label takes the address of its line (R299), EQU its constant (R301). -/
def Line.defines (sym : Symbols) (at_ : Option Word) : Line → Symbols
  | .instr (some l) _ _ | .word (some l) _ | .string (some l) _ | .table (some l) _ => [(l, at_.map fun a => (a.toNat : Int))]
  | .equ name c => [(name, c.value sym)]
  | _ => []

/-- The symbols of a source, with the values that follow from those known so far. A line may name a symbol that a later line
defines, label or EQU: DESIGN CHOICE for EQU, R301 saying only that the symbol "can then be used" (log 45). -/
def collect (sym : Symbols) (at_ : Option Word) : Sized → Symbols
  | [] => []
  | (l, two) :: ls => l.defines sym at_ ++ collect sym (l.counterAfter sym two at_) ls

/-- The address counter before any PLACE: its initial value is not stated (R305, 91_not_in_source.md N36); DESIGN CHOICE 0000H
(log 45). -/
def counterAtStart : Word := 0x0000

/-- `collect` repeated until nothing more becomes known. -/
def resolve (ls : Sized) : Nat → Symbols → Symbols
  | 0, sym => sym
  | n + 1, sym =>
    let next := collect sym (some counterAtStart) ls
    if next = sym then sym else resolve ls n next

/-- The symbols of a source whose lengths are chosen. Every round of `resolve` gives some symbol its value, so that these rounds
are enough (`collect_symbols` of Sys2Proof/Laws/Assembler.lean): a symbol is left without a value only where it is defined by way
of itself or of an undefined one. That the first counts as undefined too is: DESIGN CHOICE, the spec says nothing of it (log
45). -/
def symbols (ls : Sized) : Symbols := resolve ls (ls.length + 1) []

/-- From the short form of every `MOV Rd, k`, the two instructions where the constant asks for them, until no more do: where two
lengths would each agree with the constant (a label that is 126 after one instruction and 128 after two) the short one stands.
DESIGN CHOICE: R308 says only that a label's address depends on the constants before it (log 45). -/
def lengthen : Nat → Sized → Sized
  | 0, ls => ls
  | n + 1, ls =>
    let next := ls.map fun p => (p.1, p.2 || p.1.asksTwo (symbols ls))
    if next = ls then ls else lengthen n next

/-- The cells of a run of bytes from an address on. -/
def cellsFrom (at_ : Word) : List Byte → List (Word × Byte)
  | [] => []
  | b :: bs => (at_, b) :: cellsFrom (at_ + 1) bs

/-- A word big-endian (R62, R305). -/
def wordBytes (w : Word) : List Byte := [w.extractLsb' 8 8, w.extractLsb' 0 8]

/-- The bytes of an item of STRING (R303): the low 8 bits of a constant, or the codes of the characters. -/
def Item.bytes (sym : Symbols) : Item → Option (List Byte)
  | .const c => (c.value sym).map fun v => [BitVec.ofInt 8 v]
  | .text cs => cs.mapM fun ch => (character ch).map (BitVec.ofInt 8)

/-- What a line emits (R300 to R305); nothing, so that the source is refused, where a symbol it names is not defined: in an
operand, in WORD or STRING, in PLACE, EQU or TABLE alike (DESIGN CHOICE, the spec says nothing of undefined symbols: log 45). -/
def Line.emit (sym : Symbols) (at_ : Word) : Line → Option (List (Word × Byte))
  | .instr _ m ops => (select sym at_ m ops).map fun is => cellsFrom at_ (is.flatMap fun i => wordBytes (encode i))
  | .word _ c => (c.value sym).map fun v => cellsFrom at_ (wordBytes (BitVec.ofInt 16 v))
  | .string _ items => (items.mapM (Item.bytes sym)).map fun bs => cellsFrom at_ bs.flatten
  | .place c | .equ _ c | .table _ c => (c.value sym).map fun _ => []

/-- The cells of a source, laid out. -/
def emitFrom (sym : Symbols) (at_ : Option Word) : Sized → Option (List (Word × Byte))
  | [] => some []
  | (l, two) :: ls => at_.bind fun a => (l.emit sym a).bind fun cells =>
      (emitFrom sym (l.counterAfter sym two at_) ls).map (cells ++ ·)

/-- The image of a source whose lengths are chosen: nothing where a length is not the one its constant asks for (R308), or a
name, an operand or a distance will not do. -/
def image (ls : Sized) : Option (List (Word × Byte)) :=
  let sym := symbols ls
  if (ls.all fun p => p.2 == p.1.asksTwo sym) && (sym.all fun p => isName p.1) then emitFrom sym (some counterAtStart) ls
  else none

/-- The lengths a line may have (R308): `MOV Rd, symbol` either, every other line the one that can be read off it. -/
def Line.lengths : Line → List Bool
  | .instr _ .MOV [.reg _, .const (.sym _)] => [false, true]
  | l => [l.asksTwo []]

/-- The first image that any choice of lengths for the lines still to come gives, short forms first. -/
def search : List Line → Sized → Option (List (Word × Byte))
  | [], done => image done
  | l :: ls, done => l.lengths.findSome? fun two => search ls (done ++ [(l, two)])

/-- The assembler: the image of a source, or nothing where a name, an operand or a distance will not do. The counter starts at
`counterAtStart`, which is the model's choice, and so is the choice of lengths where the spec's rules allow several (log 45):
that of `lengthen`; only where it will not do (a longer form moved a label past FFFFH) the first of `search`. -/
def assemble (ls : List Line) : Option (List (Word × Byte)) :=
  image (lengthen ls.length (ls.map fun l => (l, false))) <|> search ls []

end Sys2Proof.Machine.Asm

namespace Sys2Proof.Machine

/-- An image placed in memory by the platform (R47, R61; log 40). -/
def State.loadImage (s : State) (image : List (Word × Byte)) : State := image.foldl (fun t c => t.setByte c.1 c.2) s

end Sys2Proof.Machine
end

