-- ==== Sys2Proof/Safety.lean ====
section
/-!
DEFINITION. The terms the statements use: what a step keeps and what it writes, what an exception entry leaves, the
invariant of memory, a machine that cannot double-fault, the end of a run, what each instruction may write.
-/
namespace Sys2Proof

/-- The registers an instruction's rule writes by name or implicitly (the RTL of the files 40 to 44, R22, R23, R26). -/
def Instr.destinations : Instr → List Reg
  | .add rd _ | .addi rd _ | .addc rd _ | .sub rd _ | .subi rd _ | .subb rd _ | .div rd _ | .mod rd _ | .neg rd => [rd]
  | .cmp _ _ | .cmpi _ _ | .test _ _ | .bit _ _ => []
  | .mul rd rs => [rd, rs]
  | .and rd _ | .or rd _ | .not rd | .xor rd _ | .setbit rd _ | .clrbit rd _ | .cplbit rd _ => [rd]
  | .shra rd _ | .shla rd _ | .shr rd _ | .shl rd _ | .ror rd _ | .rol rd _ | .rorc rd _ | .rolc rd _ => [rd]
  | .ldo rd _ _ | .ldr rd _ _ | .ldb rd _ | .ldp rd _ | .movrr rd _ | .movra rd _ | .movru rd | .movl rd _ | .movh rd _ => [rd]
  | .sto _ _ _ | .str _ _ _ | .stb _ _ | .stp _ _ | .movar _ _ | .movur _ => []
  | .swapr rd rs => [rd, rs, .temp]
  | .swapm rd _ => [rd, .temp]
  | .push _ | .call _ | .cr _ | .ret => [.sp]
  | .pop rd => [rd, .sp]
  | .callf _ | .crf _ => [.rl]
  | .jz _ | .jnz _ | .jn _ | .jnn _ | .jp _ | .jnp _ | .jc _ | .jnc _ => []
  | .jv _ | .jnv _ | .ja _ | .jna _ | .jlt _ | .jle _ | .jgt _ | .jge _ => []
  | .jmp _ | .jmpr _ | .retf | .nop => []
  | .swe _ | .rfe => [.temp, .sp, .re]

end Sys2Proof

namespace Sys2Proof.Machine

/-- The flags an instruction writes as result flags: the table of R39. -/
def resultFlags : Instr → List ReField
  | .add _ _ | .addi _ _ | .addc _ _ | .sub _ _ | .subi _ _ | .subb _ _ | .cmp _ _ | .cmpi _ _ => [.z, .n, .c, .v]
  | .mul _ _ | .div _ _ | .mod _ _ | .neg _ | .shla _ _ => [.z, .n, .c, .v]
  | .shra _ _ | .shr _ _ | .shl _ _ | .ror _ _ | .rol _ _ | .rorc _ _ | .rolc _ _ => [.z, .n, .c]
  | .and _ _ | .or _ _ | .not _ | .xor _ _ | .test _ _ | .setbit _ _ | .clrbit _ _ | .cplbit _ _ => [.z, .n]
  | .bit _ _ => [.z]
  | .ldo _ _ _ | .ldr _ _ _ | .sto _ _ _ | .str _ _ _ | .ldb _ _ | .stb _ _ | .ldp _ _ | .stp _ _ => []
  | .movrr _ _ | .movar _ _ | .movra _ _ | .movru _ | .movur _ | .swapr _ _ | .swapm _ _ | .push _ | .pop _ => []
  | .movl _ _ | .movh _ _ => []
  | .jz _ | .jnz _ | .jn _ | .jnn _ | .jp _ | .jnp _ | .jc _ | .jnc _ => []
  | .jv _ | .jnv _ | .ja _ | .jna _ | .jlt _ | .jle _ | .jgt _ | .jge _ => []
  | .jmp _ | .call _ | .callf _ | .jmpr _ | .cr _ | .crf _ | .ret | .retf | .swe _ | .rfe | .nop => []

/-- All sixteen bits of RE. -/
def allBits : List Nat := List.range 16

/-- `t` differs from `s` at most in: the register cells listed, the bits of RE listed, the bytes of memory listed, and
pc, and the counter of free values. Everything else reads as before: every other register cell (the auxiliary registers,
both stack pointers and RER among them), every other bit of RE, every other byte of memory, the interrupt latches, what
the environment and the DMA master will do, and the output pins. -/
structure Keeps (s t : State) (cells : List Phys) (bits : List Nat) (bytes : List Word) : Prop where
  cells : ∀ p, p ∉ cells → p ≠ .re → t.cell p = s.cell p
  bits : ∀ i, i < 16 → i ∉ bits → t.re.getLsbD i = s.re.getLsbD i
  bytes : ∀ a, a ∉ bytes → t.byteAt a = s.byteAt a
  pend : t.pend = s.pend
  env : t.env = s.env
  gaps : t.gaps = s.gaps
  intAck : t.intAck = s.intAck
  busGrant : t.busGrant = s.busGrant

/-- Rule R31 for an instruction that writes `v` to register `d` and assigns `flags`, and does nothing else. With `d` = RE,
RE takes exactly `v`; otherwise the cell that `d` names takes `v`, the listed flags their values, and every other bit of
RE keeps its own. -/
def Wrote (s t : State) (d : Reg) (v : Word) (flags : List (ReField × Bool)) : Prop :=
  if d = .re then t.re = v ∧ Keeps s t [] allBits []
  else t.cell (s.phys d) = v ∧ (∀ f ∈ flags, t.flag f.1 = f.2) ∧ Keeps s t [s.phys d] (flags.map fun f => f.1.index) []

/-- An instruction that assigns `flags` and does nothing else. -/
def Flagged (s t : State) (flags : List (ReField × Bool)) : Prop :=
  (∀ f ∈ flags, t.flag f.1 = f.2) ∧ Keeps s t [] (flags.map fun f => f.1.index) []

/-- The exact signed value `x` fits 16 bits (R34). -/
abbrev Fits16 (x : Int) : Prop := -32768 ≤ x ∧ x ≤ 32767

/-- What MUL Rd, Rs leaves for the exact signed product `p` (R139, D6; log 11). With different registers, neither of them RE,
Rd has the low 16 bits and Z, N, V describe them, and Rs and C have values nothing is said of; with RE as Rd the register
that Rs names is the one of the RE just written. With the same register only what is kept is said. -/
structure Multiplied (s t : State) (rd rs : Reg) (p : Int) : Prop where
  plain : rd ≠ rs → rd ≠ .re → rs ≠ .re →
    t.cell (s.phys rd) = BitVec.ofInt 16 p ∧ t.flag .z = (BitVec.ofInt 16 p == 0) ∧
    t.flag .n = (BitVec.ofInt 16 p).msb ∧ t.flag .v = decide (¬ Fits16 p) ∧
    Keeps s t [s.phys rd, s.phys rs] [0, 1, 2, 3] []
  rdRe : rd ≠ rs → rd = .re →
    t.re = BitVec.ofInt 16 p ∧ Keeps s t [Reg.phys ((BitVec.ofInt 16 p).getLsbD 13) rs] allBits []
  rsRe : rd ≠ rs → rs = .re → t.cell (s.phys rd) = BitVec.ofInt 16 p ∧ Keeps s t [s.phys rd] allBits []
  same : rd = rs → rd ≠ .re → Keeps s t [s.phys rd] [0, 1, 2, 3] []
  sameRe : rd = rs → rd = .re → Keeps s t [] allBits []

/-- `t` is `s` after the entry of exception `e` with the return address `ret` (R330): TEMP holds the old RE, RE is 0000H,
the system stack holds the old RE at the new SSP and the return address above it, and pc is the word at BTE plus the
exception's offset, read after the frame is written. -/
structure Entered (s t : State) (e : Exc) (ret : Word) : Prop where
  temp : t.temp = s.re
  re : t.re = 0x0000
  rer : t.rer = ret
  ssp : t.ssp = s.ssp - 4
  savedRe : t.wordAt t.ssp = s.re
  savedPc : t.wordAt (t.ssp + 2) = ret
  handler : t.pc = t.wordAt (s.bte + e.offset)
  keeps : Keeps s t [.temp, .rer, .ssp] allBits [s.ssp - 4, s.ssp - 3, s.ssp - 2, s.ssp - 1]

/-- The memory is in its canonical form. -/
def State.canonical (s : State) : Bool := s.mem.wf

/-- Neither word of an entry's frame nor the table entry is misaligned: no entry from here is a double fault (R338). -/
def State.entrySafe (s : State) : Bool := isEven s.ssp && isEven s.bte

/-- `r` is the taking of exception `e` from `u` with the return address `ret`: with SSP and BTE of `u` even the entry (R330),
with either odd the double fault (R338). -/
structure Takes (r : Result) (u : State) (e : Exc) (ret : Word) : Prop where
  enters : r = u.enter e ret
  even : u.entrySafe = true → ∃ t, r = .next t ∧ Entered u t e ret
  odd : u.entrySafe = false → r = .fault .doubleFault

/-- END_OF_RUN, a named parameter (R6, R13; R353, D32; log 35): the instruction at pc is a jump to itself and no enabled
interrupt is pending. -/
def State.endOfRun (s : State) : Bool :=
  isEven s.pc && decide (s.fetched.toOption = some (.jmp (-1))) && s.readyInt.isNone

end Sys2Proof.Machine
end

