-- ==== Sys2Proof/Certificates/Slice0/Obligations.lean ====
section
/-!
DEFINITION. The statements for the provers, each from the numbered rules of spec/. `Keeps`, `Wrote`, `Flagged`, `Entered`
(Sys2Proof/Safety.lean) say what a step leaves unchanged. `s.canonical` is the invariant `StepKeepsMemoryCanonical` is
about; `s.entrySafe` says that SSP and BTE are even (R23, R25).
-/

open Sys2Proof Sys2Proof.Machine

/-! ### Encoding -/

/-- 30_encoding.md R94, R95, R108, R110: decoding the word of any instruction whose operands fit its fields gives that
instruction back. The numbers of the words are OPMAP's (D1, D2: log 1, log 2). -/
def Obligations.DecodeOfEncode : Prop :=
  ∀ i : Instr, i.WellFormed → decode (encode i) = .ok i

/-- 30_encoding.md R98, R107, R108: whatever a word decodes to has operands that fit its fields and is written as that word,
its ignored fields apart, where the encoder writes 0. The numbers and the field positions are OPMAP's (D1, D2: log 1, log
2); that the B fields of PUSH and RET are ignored is 91_not_in_source.md N4 (log 44). -/
def Obligations.EncodeOfDecode : Prop :=
  ∀ (w : Word) (i : Instr), decode w = .ok i → i.WellFormed ∧ encode i = w &&& ~~~i.ignoredBits

/-- 30_encoding.md R98: the fields marked XXXX may hold any value: two words that differ only in the ignored fields of one
of them decode alike; and the fields below are ignored (the B cells of PUSH and RET by 91_not_in_source.md N4: log 44). The
opcode numbers and the field positions of the words are OPMAP's (D1, D2: log 1, log 2). -/
def Obligations.IgnoredFieldsAreIgnored : Prop :=
  (∀ (w w' : Word) (i : Instr), decode w = .ok i → (w ^^^ w') &&& ~~~i.ignoredBits = 0 → decode w' = .ok i) ∧
  ∀ d s x y : BitVec 4,
    decode (fields 0x0 0xB d x) = .ok (.neg (Reg.ofField d)) ∧
    decode (fields 0x1 0x2 d x) = .ok (.not (Reg.ofField d)) ∧
    decode (fields 0x6 0x7 d x) = .ok (.movru (Reg.ofField d)) ∧
    decode (fields 0x6 0x8 x s) = .ok (.movur (Reg.ofField s)) ∧
    decode (fields 0x6 0xB d x) = .ok (.push (Reg.ofField d)) ∧
    decode (fields 0x6 0xC d x) = .ok (.pop (Reg.ofField d)) ∧
    decode (fields 0xD 0x0 x s) = .ok (.jmpr (Reg.ofField s)) ∧
    decode (fields 0xD 0x1 x s) = .ok (.cr (Reg.ofField s)) ∧
    decode (fields 0xD 0x2 x s) = .ok (.crf (Reg.ofField s)) ∧
    decode (fields 0xD 0x3 x y) = .ok .ret ∧
    decode (fields 0xD 0x4 x y) = .ok .retf ∧
    decode (fields 0xD 0x6 x y) = .ok .rfe ∧
    decode (fields 0xD 0x7 x y) = .ok .nop

/-- 30_encoding.md R106 (with D1, D2, D21: log 1, log 2, log 24): the invalid words are exactly EXXX, FXXX, 0CXX, 0DXX,
1FXX, 6DXX, 6EXX, 6FXX and D8XX to DFXX. -/
def Obligations.InvalidWords : Prop :=
  ∀ w : Word, (∃ e, decode w = .error e) ↔
    (0xE000 ≤ w.toNat ∨ (0x0C00 ≤ w.toNat ∧ w.toNat ≤ 0x0DFF) ∨ (0x1F00 ≤ w.toNat ∧ w.toNat ≤ 0x1FFF) ∨
      (0x6D00 ≤ w.toNat ∧ w.toNat ≤ 0x6FFF) ∨ (0xD800 ≤ w.toNat ∧ w.toNat ≤ 0xDFFF))

/-- One word of each format as the spec's rules print it (R131, R166, R194, R211, R213, R220, R221, R233, R236, R253, R268,
R276), decoded. The numbers are OPMAP's (D1, D2: log 1, log 2), the register field of MOVUR N4's (log 44). -/
def Obligations.DecodeSampleWords : Prop :=
  decode 0x0012 = .ok (.add (.r 1) (.r 2)) ∧
  decode 0x15D0 = .ok (.bit .re 0) ∧
  decode 0x0F12 = .ok (.shla (.r 1) 2) ∧
  decode 0x2122 = .ok (.ldo (.r 1) (.r 2) 4) ∧
  decode 0x451F = .ok (.sto (.r 1) (-2) (.r 5)) ∧
  decode 0x71FF = .ok (.movl (.r 1) (-1)) ∧
  decode 0x82F3 = .ok (.movh (.r 2) 0xF3) ∧
  decode 0x6802 = .ok (.movur (.r 2)) ∧
  decode 0x6A12 = .ok (.swapm (.r 1) (.r 2)) ∧
  decode 0x91FB = .ok (.jnz (-5)) ∧
  decode 0xAFFF = .ok (.jmp (-1)) ∧
  decode 0xD507 = .ok (.swe 7)

/-! ### The step -/

/-- 60_exceptions.md R332, 20_memory.md R69, R72: when no enabled interrupt is pending after the boundary, pc is even and
the word at pc decodes to `i`, the step is `exec i` from the state after the gap that follows the fetch, in which only DMA
can act (log 31) and nothing happens without RE.DE or without a DMA access to come. The model's own choices: with no event
of the environment (log 38) the boundary only drops the two output pins (IntAck: log 21; BusGrant: log 31); what it does
with events to come EnvironmentEvents says. -/
def Obligations.StepRunsTheDecodedInstruction : Prop :=
  (∀ (s : State) (i : Instr), s.boundary.readyInt = none → isEven s.boundary.pc = true → s.boundary.fetched = .ok i →
    Sys2Proof.Machine.step s = Sys2Proof.Machine.exec i s.boundary.gap) ∧
  (∀ s : State, s.env = [] → s.boundary = { s with intAck := false, busGrant := false }) ∧
  (∀ s : State, s.flag .de = false ∨ s.gaps = [] → s.gap = s) ∧
  (∀ s : State, s.fetched = decode (s.wordAt s.pc))

/-- 20_memory.md R62, R69, R79 with the round trip of the encoding: the word of a well-formed instruction placed at an even
pc is the instruction the next step runs, after the gap that follows the fetch (log 31). It rests on fetches and data
sharing one memory in order (D18, D19: log 22), on how a word is placed from outside (log 40), on OPMAP (D1, D2: log 1, log
2) and on the pins falling at the boundary (IntAck: log 21; BusGrant: log 31). -/
def Obligations.PlacedWordRunsNext : Prop :=
  ∀ (s : State) (i : Instr), i.WellFormed → s.canonical = true → s.env = [] → s.readyInt = none → isEven s.pc = true →
    Sys2Proof.Machine.step (s.withFetchWord 16 (encode i).toNat) =
      Sys2Proof.Machine.exec i ({ s with intAck := false, busGrant := false }.withFetchWord 16 (encode i).toNat).gap

/-! ### Arithmetic (40_arithmetic.md) -/

/-- R131, R132, R133 with R31, R34: ADD, ADD with a constant, ADDC. Unless the overflow trap is armed and the signed sum
does not fit, the instruction completes: Rd takes the sum, Z and N describe it, C is the carry out of bit 15, V is signed
overflow (D5: log 10), nothing else changes; RE as destination takes exactly the sum. The flags of the form with a constant,
whose cell is blank: N4 (log 44). Flags assigned both ways and RE as destination: D3, D27 (log 8, log 30). -/
def Obligations.AdditionResults : Prop :=
  ∀ (s : State) (rd : Reg) (a b : Word) (cin : Bool), a = s.reg rd →
    (s.flag .tv = false ∨ Fits16 (a.toInt + b.toInt + cin.toNat)) →
    ∀ r c v, r = a + b + BitVec.ofNat 16 cin.toNat → c = decide (65536 ≤ a.toNat + b.toNat + cin.toNat) →
      v = decide (¬ Fits16 (a.toInt + b.toInt + cin.toNat)) →
    (∀ rs, b = s.reg rs → cin = false → ∃ t, Sys2Proof.Machine.exec (.add rd rs) s = .next t ∧ t.pc = s.pc + 2 ∧
      Wrote s t rd r [(.z, r == 0), (.n, r.msb), (.c, c), (.v, v)]) ∧
    (∀ k : Int, -8 ≤ k → k ≤ 7 → b = BitVec.ofInt 16 k → cin = false →
      ∃ t, Sys2Proof.Machine.exec (.addi rd k) s = .next t ∧ t.pc = s.pc + 2 ∧
      Wrote s t rd r [(.z, r == 0), (.n, r.msb), (.c, c), (.v, v)]) ∧
    (∀ rs, b = s.reg rs → cin = s.flag .c → ∃ t, Sys2Proof.Machine.exec (.addc rd rs) s = .next t ∧ t.pc = s.pc + 2 ∧
      Wrote s t rd r [(.z, r == 0), (.n, r.msb), (.c, c), (.v, v)])

/-- R134, R135, R136, R143 with R31, R34: SUB, SUB with a constant, SUBB, NEG. As for the sums, C being the borrow (D4: log
9); NEG subtracts Rd from 0. Flags assigned both ways and RE as destination: D3, D27 (log 8, log 30). -/
def Obligations.SubtractionResults : Prop :=
  ∀ (s : State) (rd : Reg) (a b : Word) (bin : Bool),
    (s.flag .tv = false ∨ Fits16 (a.toInt - b.toInt - bin.toNat)) →
    ∀ r c v, r = a - b - BitVec.ofNat 16 bin.toNat → c = decide (a.toNat < b.toNat + bin.toNat) →
      v = decide (¬ Fits16 (a.toInt - b.toInt - bin.toNat)) →
    (∀ rs, a = s.reg rd → b = s.reg rs → bin = false →
      ∃ t, Sys2Proof.Machine.exec (.sub rd rs) s = .next t ∧ t.pc = s.pc + 2 ∧
      Wrote s t rd r [(.z, r == 0), (.n, r.msb), (.c, c), (.v, v)]) ∧
    (∀ k : Int, -8 ≤ k → k ≤ 7 → a = s.reg rd → b = BitVec.ofInt 16 k → bin = false →
      ∃ t, Sys2Proof.Machine.exec (.subi rd k) s = .next t ∧ t.pc = s.pc + 2 ∧
      Wrote s t rd r [(.z, r == 0), (.n, r.msb), (.c, c), (.v, v)]) ∧
    (∀ rs, a = s.reg rd → b = s.reg rs → bin = s.flag .c →
      ∃ t, Sys2Proof.Machine.exec (.subb rd rs) s = .next t ∧ t.pc = s.pc + 2 ∧
      Wrote s t rd r [(.z, r == 0), (.n, r.msb), (.c, c), (.v, v)]) ∧
    (a = 0 → b = s.reg rd → bin = false → ∃ t, Sys2Proof.Machine.exec (.neg rd) s = .next t ∧ t.pc = s.pc + 2 ∧
      Wrote s t rd r [(.z, r == 0), (.n, r.msb), (.c, c), (.v, v)])

/-- R137, R138: CMP assigns Z, N, C (borrow, D4: log 9) and V (D5: log 10) of Rd minus the second operand, and changes no
register, also when Rd is RE, whose other bits it keeps. Flags assigned both ways: D3 (log 8). -/
def Obligations.ComparisonFlags : Prop :=
  ∀ (s : State) (rd : Reg) (a b : Word), a = s.reg rd → (s.flag .tv = false ∨ Fits16 (a.toInt - b.toInt)) →
    (∀ rs, b = s.reg rs → ∃ t, Sys2Proof.Machine.exec (.cmp rd rs) s = .next t ∧ t.pc = s.pc + 2 ∧
      Flagged s t [(.z, a == b), (.n, (a - b).msb), (.c, decide (a.toNat < b.toNat)),
        (.v, decide (¬ Fits16 (a.toInt - b.toInt)))]) ∧
    (∀ k : Int, -8 ≤ k → k ≤ 7 → b = BitVec.ofInt 16 k →
      ∃ t, Sys2Proof.Machine.exec (.cmpi rd k) s = .next t ∧ t.pc = s.pc + 2 ∧
      Flagged s t [(.z, a == b), (.n, (a - b).msb), (.c, decide (a.toNat < b.toNat)),
        (.v, decide (¬ Fits16 (a.toInt - b.toInt)))])

/-- R137, R258, R259, R264 to R267 (derived there): after `CMP Rd, Rs` the jumps compare: JZ and JNZ equality, JLT, JLE,
JGT, JGE the signed values, JC and JNC the unsigned ones. It rests on C as borrow and V as signed overflow (D4, D5: log 9,
log 10). Flags assigned both ways: D3 (log 8). -/
def Obligations.JumpsAfterCompare : Prop :=
  ∀ (s : State) (rd rs : Reg) (dif : Int) (a b : Word), a = s.reg rd → b = s.reg rs → s.flag .tv = false →
    ∃ t, Sys2Proof.Machine.exec (.cmp rd rs) s = .next t ∧
      Sys2Proof.Machine.exec (.jz dif) t = .next (t.setPc (if a = b then t.target dif else t.eis)) ∧
      Sys2Proof.Machine.exec (.jnz dif) t = .next (t.setPc (if a ≠ b then t.target dif else t.eis)) ∧
      Sys2Proof.Machine.exec (.jlt dif) t = .next (t.setPc (if a.toInt < b.toInt then t.target dif else t.eis)) ∧
      Sys2Proof.Machine.exec (.jle dif) t = .next (t.setPc (if a.toInt ≤ b.toInt then t.target dif else t.eis)) ∧
      Sys2Proof.Machine.exec (.jgt dif) t = .next (t.setPc (if b.toInt < a.toInt then t.target dif else t.eis)) ∧
      Sys2Proof.Machine.exec (.jge dif) t = .next (t.setPc (if b.toInt ≤ a.toInt then t.target dif else t.eis)) ∧
      Sys2Proof.Machine.exec (.jc dif) t = .next (t.setPc (if a.toNat < b.toNat then t.target dif else t.eis)) ∧
      Sys2Proof.Machine.exec (.jnc dif) t = .next (t.setPc (if b.toNat ≤ a.toNat then t.target dif else t.eis))

/-- R139 (D6: log 11): MUL completes unless the overflow trap is armed and the signed product does not fit, and leaves what
`Multiplied` says: with different registers Rd takes the low 16 bits of the product with Z, N, V, and Rs is changed to a
value nothing is said of (C too); the register that SP names for that last write is the one of the RE just written. With the
same register only what is kept is stated. Flags, RE as destination, SP: D3, D27, D12 (log 8, log 30, log 18). -/
def Obligations.MultiplicationResult : Prop :=
  ∀ (s : State) (rd rs : Reg) (p : Int), p = (s.reg rd).toInt * (s.reg rs).toInt →
    (s.flag .tv = false ∨ Fits16 p) →
    ∃ t, Sys2Proof.Machine.exec (.mul rd rs) s = .next t ∧ t.pc = s.pc + 2 ∧ Multiplied s t rd rs p

/-- R140, R142 (signed and truncating: D7, log 12; 8000H / FFFFH: D9, log 14; C: U4, log 15): with a non-zero divisor DIV
and MOD complete, whatever TV and TD are: Rd takes the quotient truncated toward zero, or the remainder with the sign of the
dividend, Z and N follow it, V is 0 and nothing is said of C. For DIV of 8000H by FFFFH Rd takes some value, with Z and N of
it. Flags assigned both ways and RE as destination: D3, D27 (log 8, log 30). -/
def Obligations.DivisionResults : Prop :=
  ∀ (s : State) (rd rs : Reg) (a b : Word), a = s.reg rd → b = s.reg rs → b ≠ 0 →
    (∃ t r c, Sys2Proof.Machine.exec (.div rd rs) s = .next t ∧ t.pc = s.pc + 2 ∧
      (¬ (a = 0x8000 ∧ b = 0xFFFF) → r.toInt = a.toInt.tdiv b.toInt) ∧
      Wrote s t rd r [(.z, r == 0), (.n, r.msb), (.c, c), (.v, false)]) ∧
    (∃ t r c, Sys2Proof.Machine.exec (.mod rd rs) s = .next t ∧ t.pc = s.pc + 2 ∧
      r.toInt = a.toInt.tmod b.toInt ∧
      Wrote s t rd r [(.z, r == 0), (.n, r.msb), (.c, c), (.v, false)])

/-- R140, R142: with both operands in 0000H..7FFFH and a non-zero divisor, quotient and remainder are those of the natural
numbers, under each convention the parameter DIVMOD_CONVENTION can take (D7: log 12), and DIV and MOD write them. -/
def Obligations.DivisionOfNonNegatives : Prop :=
  (∀ (conv : Config.DivMod) (a b : Word), a.toNat < 0x8000 → b.toNat < 0x8000 → b ≠ 0 →
    (∃ q, quotient conv a b = some q ∧ q.toNat = a.toNat / b.toNat) ∧ (remainder conv a b).toNat = a.toNat % b.toNat) ∧
  ∀ (s : State) (rd rs : Reg), rd ≠ .re → (s.reg rd).toNat < 0x8000 → (s.reg rs).toNat < 0x8000 → s.reg rs ≠ 0 →
    (∃ t, Sys2Proof.Machine.exec (.div rd rs) s = .next t ∧
      (t.cell (s.phys rd)).toNat = (s.reg rd).toNat / (s.reg rs).toNat) ∧
    (∃ t, Sys2Proof.Machine.exec (.mod rd rs) s = .next t ∧
      (t.cell (s.phys rd)).toNat = (s.reg rd).toNat % (s.reg rs).toNat)

/-- R141, R323, R324 (D8, D24, D23, D11: log 13, log 27, log 26, log 17): a division by zero. With TD = 0 it writes V = 1,
some value in Rd, Z and N of it, and some C: with TV = 0 it completes so; with TV = 1 it then takes EXCESSO from the very
state so written (a state `u`), whose SSP or BTE, where Rd is SP or BTE, is that value (log 46). With TD = 1, whatever TV is,
DIV0 is taken from a state in which nothing is written. With SSP and BTE even the entry completes, with either odd it is the
double fault (R338, D29: log 32). Flags, RE as destination, the entry sequence: D3, D27, D10 (log 8, log 30, log 16). -/
def Obligations.DivisionByZero : Prop :=
  ∀ (s : State) (rd rs : Reg) (i : Instr), i = .div rd rs ∨ i = .mod rd rs → s.reg rs = 0 →
    (s.flag .td = false → s.flag .tv = false →
      ∃ t r c, Sys2Proof.Machine.exec i s = .next t ∧ t.pc = s.pc + 2 ∧
        Wrote s t rd r [(.z, r == 0), (.n, r.msb), (.c, c), (.v, true)]) ∧
    (s.flag .td = false → s.flag .tv = true → s.canonical = true →
      ∃ u r c, Wrote s u rd r [(.z, r == 0), (.n, r.msb), (.c, c), (.v, true)] ∧
        Takes (Sys2Proof.Machine.exec i s) u .excesso (s.pc + 2)) ∧
    (s.flag .td = true → s.canonical = true → Takes (Sys2Proof.Machine.exec i s) s .div0 (s.pc + 2))

/-- R144, R323 (D23, D11: log 26, log 17): with TV = 1 each instruction of R131 to R139, R143 and R194 that overflows (DIV
and MOD by zero: the statement above) first writes its result and flags, V = 1 among them (a state `u`), and then takes
EXCESSO from that very `u`, returning after the instruction. With SSP and BTE of `u` even the entry completes, with either
odd, which an instruction that writes SP or BTE may have made it (log 46), it is the double fault (R338, D29: log 32). V is
the signed overflow (D5: log 10), C of a difference the borrow (D4: log 9), what MUL leaves D6 (log 11), the flags of ADD
Rd, k N4 (log 44). Flags, RE as destination, the entry sequence: D3, D27, D10 (log 8, log 30, log 16). -/
def Obligations.OverflowTrapEntersExcesso : Prop :=
  ∀ (s : State) (rd rs : Reg) (k : Int) (a b : Word) (x : Bool) (i : Instr), s.flag .tv = true → s.canonical = true →
    -8 ≤ k → k ≤ 7 →
    (¬ Fits16 (a.toInt + b.toInt + x.toNat) → a = s.reg rd →
      ((i = .add rd rs ∧ b = s.reg rs ∧ x = false) ∨ (i = .addi rd k ∧ b = BitVec.ofInt 16 k ∧ x = false) ∨
        (i = .addc rd rs ∧ b = s.reg rs ∧ x = s.flag .c)) →
      ∀ r c, r = a + b + BitVec.ofNat 16 x.toNat → c = decide (65536 ≤ a.toNat + b.toNat + x.toNat) →
      ∃ u, Wrote s u rd r [(.z, r == 0), (.n, r.msb), (.c, c), (.v, true)] ∧
        Takes (Sys2Proof.Machine.exec i s) u .excesso (s.pc + 2)) ∧
    (¬ Fits16 (a.toInt - b.toInt - x.toNat) →
      ((i = .sub rd rs ∧ a = s.reg rd ∧ b = s.reg rs ∧ x = false) ∨
        (i = .subi rd k ∧ a = s.reg rd ∧ b = BitVec.ofInt 16 k ∧ x = false) ∨
        (i = .subb rd rs ∧ a = s.reg rd ∧ b = s.reg rs ∧ x = s.flag .c) ∨ (i = .neg rd ∧ a = 0 ∧ b = s.reg rd ∧ x = false)) →
      ∀ r c, r = a - b - BitVec.ofNat 16 x.toNat → c = decide (a.toNat < b.toNat + x.toNat) →
      ∃ u, Wrote s u rd r [(.z, r == 0), (.n, r.msb), (.c, c), (.v, true)] ∧
        Takes (Sys2Proof.Machine.exec i s) u .excesso (s.pc + 2)) ∧
    (¬ Fits16 (a.toInt - b.toInt) → a = s.reg rd →
      ((i = .cmp rd rs ∧ b = s.reg rs) ∨ (i = .cmpi rd k ∧ b = BitVec.ofInt 16 k)) →
      ∃ u, Flagged s u [(.z, a == b), (.n, (a - b).msb), (.c, decide (a.toNat < b.toNat)), (.v, true)] ∧
        Takes (Sys2Proof.Machine.exec i s) u .excesso (s.pc + 2)) ∧
    (∀ n, 1 ≤ n → n ≤ 15 → ¬ Fits16 (a.toInt * 2 ^ n) → a = s.reg rd →
      ∃ u, Wrote s u rd (a <<< n) [(.z, a <<< n == 0), (.n, (a <<< n).msb), (.c, a.getLsbD (16 - n)), (.v, true)] ∧
        Takes (Sys2Proof.Machine.exec (.shla rd n) s) u .excesso (s.pc + 2)) ∧
    (∀ p, p = (s.reg rd).toInt * (s.reg rs).toInt → ¬ Fits16 p →
      ∃ u, Multiplied s u rd rs p ∧ Takes (Sys2Proof.Machine.exec (.mul rd rs) s) u .excesso (s.pc + 2))

/-! ### Logic and single bits (41_bit_logic.md) -/

/-- R161, R162, R163, R164 with R31: AND, OR, NOT, XOR always complete: Rd takes the bitwise result with Z and N of it, C
and V and everything else kept; RE as destination takes exactly the result. Flags assigned both ways and RE as destination:
D3, D27 (log 8, log 30). -/
def Obligations.LogicResults : Prop :=
  ∀ (s : State) (rd rs : Reg),
    (∃ t r, Sys2Proof.Machine.exec (.and rd rs) s = .next t ∧ t.pc = s.pc + 2 ∧
      (∀ j, j < 16 → r.getLsbD j = ((s.reg rd).getLsbD j && (s.reg rs).getLsbD j)) ∧
      Wrote s t rd r [(.z, r == 0), (.n, r.msb)]) ∧
    (∃ t r, Sys2Proof.Machine.exec (.or rd rs) s = .next t ∧ t.pc = s.pc + 2 ∧
      (∀ j, j < 16 → r.getLsbD j = ((s.reg rd).getLsbD j || (s.reg rs).getLsbD j)) ∧
      Wrote s t rd r [(.z, r == 0), (.n, r.msb)]) ∧
    (∃ t r, Sys2Proof.Machine.exec (.not rd) s = .next t ∧ t.pc = s.pc + 2 ∧
      (∀ j, j < 16 → r.getLsbD j = !(s.reg rd).getLsbD j) ∧
      Wrote s t rd r [(.z, r == 0), (.n, r.msb)]) ∧
    (∃ t r, Sys2Proof.Machine.exec (.xor rd rs) s = .next t ∧ t.pc = s.pc + 2 ∧
      (∀ j, j < 16 → r.getLsbD j = ((s.reg rd).getLsbD j ^^ (s.reg rs).getLsbD j)) ∧
      Wrote s t rd r [(.z, r == 0), (.n, r.msb)])

/-- R160: the nine logic and single-bit instructions complete from every state, with any bit number 0 to 15, which is field
B of the word, unsigned; they raise no exception and access no memory: with other bytes in memory they do the same and leave
those; a destination other than RE leaves C and V (and all but Z and N) alone, with Z and N from the result; RE as
destination takes the result exactly. The opcode numbers and field positions of the words: D1, D2 (log 1, log 2); Z and N of
SET, CLR and CPL from the whole result: D26 (log 29); field B of SET and CLR: N4 (log 44); flags assigned both ways and RE
as destination: D3, D27 (log 8, log 30). -/
def Obligations.LogicNeverTrapsAndKeepsCarryOverflow : Prop :=
  (∀ (s : State) (rd rs : Reg) (n : Nat) (i : Instr), n ≤ 15 →
    (i ∈ [Instr.and rd rs, .or rd rs, .not rd, .xor rd rs, .setbit rd n, .clrbit rd n, .cplbit rd n] →
      ∃ t r, Sys2Proof.Machine.exec i s = .next t ∧ t.pc = s.pc + 2 ∧ Wrote s t rd r [(.z, r == 0), (.n, r.msb)] ∧
        ∀ m, Sys2Proof.Machine.exec i { s with mem := m } = .next { t with mem := m }) ∧
    (i = .test rd rs → ∃ t z m, Sys2Proof.Machine.exec i s = .next t ∧ t.pc = s.pc + 2 ∧
      Flagged s t [(.z, z), (.n, m)] ∧ z = (s.reg rd &&& s.reg rs == 0) ∧ m = (s.reg rd &&& s.reg rs).msb ∧
      ∀ m, Sys2Proof.Machine.exec i { s with mem := m } = .next { t with mem := m }) ∧
    (i = .bit rd n → ∃ t z, Sys2Proof.Machine.exec i s = .next t ∧ t.pc = s.pc + 2 ∧ Flagged s t [(.z, z)] ∧
      ∀ m, Sys2Proof.Machine.exec i { s with mem := m } = .next { t with mem := m })) ∧
  (∀ a b : BitVec 4,
    decode (fields 0x1 0x5 a b) = .ok (.bit (Reg.ofField a) b.toNat) ∧
    decode (fields 0x1 0x6 a b) = .ok (.setbit (Reg.ofField a) b.toNat) ∧
    decode (fields 0x1 0x7 a b) = .ok (.clrbit (Reg.ofField a) b.toNat) ∧
    decode (fields 0x1 0x8 a b) = .ok (.cplbit (Reg.ofField a) b.toNat))

/-- R165, R166: TEST assigns Z and N of the bitwise AND, BIT assigns Z the complement of bit n of Rd; no register changes,
also when Rd is RE, whose other bits stay. Flags assigned both ways: D3 (log 8). -/
def Obligations.TestAndBitFlags : Prop :=
  ∀ (s : State) (rd rs : Reg) (n : Nat), n ≤ 15 →
    (∃ t, Sys2Proof.Machine.exec (.test rd rs) s = .next t ∧ t.pc = s.pc + 2 ∧
      Flagged s t [(.z, s.reg rd &&& s.reg rs == 0), (.n, (s.reg rd).msb && (s.reg rs).msb)]) ∧
    (∃ t, Sys2Proof.Machine.exec (.bit rd n) s = .next t ∧ t.pc = s.pc + 2 ∧
      Flagged s t [(.z, !(s.reg rd).getLsbD n)])

/-- R172, R173, R174 with R31, R36 (Z and N of the whole register: D26, log 29): SET, CLR, CPL change bit n of Rd alone,
with Z and N of the new value; with Rd = RE exactly bit n of RE changes. Flags assigned both ways and RE as destination: D3,
D27 (log 8, log 30). -/
def Obligations.SingleBitResults : Prop :=
  ∀ (s : State) (rd : Reg) (n : Nat), n ≤ 15 →
    (∃ t r, Sys2Proof.Machine.exec (.setbit rd n) s = .next t ∧ t.pc = s.pc + 2 ∧
      (∀ j, j < 16 → r.getLsbD j = if j = n then true else (s.reg rd).getLsbD j) ∧
      Wrote s t rd r [(.z, r == 0), (.n, r.msb)]) ∧
    (∃ t r, Sys2Proof.Machine.exec (.clrbit rd n) s = .next t ∧ t.pc = s.pc + 2 ∧
      (∀ j, j < 16 → r.getLsbD j = if j = n then false else (s.reg rd).getLsbD j) ∧
      Wrote s t rd r [(.z, r == 0), (.n, r.msb)]) ∧
    (∃ t r, Sys2Proof.Machine.exec (.cplbit rd n) s = .next t ∧ t.pc = s.pc + 2 ∧
      (∀ j, j < 16 → r.getLsbD j = if j = n then !(s.reg rd).getLsbD j else (s.reg rd).getLsbD j) ∧
      Wrote s t rd r [(.z, r == 0), (.n, r.msb)])

/-- R175, R309: each of the fifteen mnemonics on RE changes exactly the bit it names, to 1, to 0, or to its complement. The
bits of RE as destination: D27 (log 30). -/
def Obligations.ReMnemonicsChangeOneBit : Prop :=
  ∀ (s : State) (m : Asm.ReMnemonic) (f : ReField) (b : Bool),
    (m, f, b) ∈ [(.EI, .ie, true), (.EI0, .ie0, true), (.EI1, .ie1, true), (.EI2, .ie2, true), (.EI3, .ie3, true),
      (.SETC, .c, true), (.EDMA, .de, true), (.DI, .ie, false), (.DI0, .ie0, false), (.DI1, .ie1, false),
      (.DI2, .ie2, false), (.DI3, .ie3, false), (.CLRC, .c, false), (.DDMA, .de, false), (.CPLC, .c, !s.flag .c)] →
    ∃ t, Sys2Proof.Machine.exec (Asm.reMnemonic m) s = .next t ∧ t.pc = s.pc + 2 ∧ Flagged s t [(f, b)]

/-! ### Shifts and rotates (42_shift_rotate.md) -/

/-- R190 (SHLA's V: D25, log 28): by 0 places, each of the eight writes Rd with its own value and assigns Z and N from it,
keeping C (and V, which SHLA clears); with Rd = RE nothing changes at all. Flags assigned both ways and RE as destination:
D3, D27 (log 8, log 30). -/
def Obligations.ShiftByZero : Prop :=
  ∀ (s : State) (rd : Reg) (a : Word), a = s.reg rd →
    (∀ i ∈ [Instr.shr rd 0, .shl rd 0, .shra rd 0, .ror rd 0, .rol rd 0, .rorc rd 0, .rolc rd 0],
      ∃ t, Sys2Proof.Machine.exec i s = .next t ∧ t.pc = s.pc + 2 ∧ Wrote s t rd a [(.z, a == 0), (.n, a.msb)]) ∧
    (∃ t, Sys2Proof.Machine.exec (.shla rd 0) s = .next t ∧ t.pc = s.pc + 2 ∧
      Wrote s t rd a [(.z, a == 0), (.n, a.msb), (.v, false)])

/-- R191, R192, R193: SHR, SHL, SHRA by 1 to 15 places, bit by bit, with C the last bit shifted out; V is kept. Flags
assigned both ways and RE as destination: D3, D27 (log 8, log 30). -/
def Obligations.ShiftResults : Prop :=
  ∀ (s : State) (rd : Reg) (n : Nat) (a : Word), a = s.reg rd → 1 ≤ n → n ≤ 15 →
    (∃ t r, Sys2Proof.Machine.exec (.shr rd n) s = .next t ∧ t.pc = s.pc + 2 ∧
      (∀ j, j < 16 → r.getLsbD j = if j + n < 16 then a.getLsbD (j + n) else false) ∧
      Wrote s t rd r [(.z, r == 0), (.n, r.msb), (.c, a.getLsbD (n - 1))]) ∧
    (∃ t r, Sys2Proof.Machine.exec (.shl rd n) s = .next t ∧ t.pc = s.pc + 2 ∧
      (∀ j, j < 16 → r.getLsbD j = if n ≤ j then a.getLsbD (j - n) else false) ∧
      Wrote s t rd r [(.z, r == 0), (.n, r.msb), (.c, a.getLsbD (16 - n))]) ∧
    (∃ t r, Sys2Proof.Machine.exec (.shra rd n) s = .next t ∧ t.pc = s.pc + 2 ∧
      (∀ j, j < 16 → r.getLsbD j = if j + n < 16 then a.getLsbD (j + n) else a.getLsbD 15) ∧
      Wrote s t rd r [(.z, r == 0), (.n, r.msb), (.c, a.getLsbD (n - 1))])

/-- R194 (V cleared otherwise: D25, log 28): SHLA by 1 to 15 places writes what SHL writes, and V = 1 exactly when the
signed value times 2^n does not fit 16 bits; it completes unless that happens with the trap armed. Flags assigned both ways
and RE as destination: D3, D27 (log 8, log 30). -/
def Obligations.ArithmeticLeftShift : Prop :=
  ∀ (s : State) (rd : Reg) (n : Nat) (a : Word), a = s.reg rd → 1 ≤ n → n ≤ 15 →
    (s.flag .tv = false ∨ Fits16 (a.toInt * 2 ^ n)) →
    ∃ t r, Sys2Proof.Machine.exec (.shla rd n) s = .next t ∧ t.pc = s.pc + 2 ∧
      (∀ j, j < 16 → r.getLsbD j = if n ≤ j then a.getLsbD (j - n) else false) ∧
      Wrote s t rd r [(.z, r == 0), (.n, r.msb), (.c, a.getLsbD (16 - n)), (.v, decide (¬ Fits16 (a.toInt * 2 ^ n)))]

/-- R195, R196: ROR and ROL by 1 to 15 places: bit j of the result is bit j + n, or j - n, around the word; C takes the last
bit moved around; V is kept and the old C does not enter. Flags assigned both ways and RE as destination: D3, D27 (log 8,
log 30). -/
def Obligations.RotateResults : Prop :=
  ∀ (s : State) (rd : Reg) (n : Nat) (a : Word), a = s.reg rd → 1 ≤ n → n ≤ 15 →
    (∃ t r, Sys2Proof.Machine.exec (.ror rd n) s = .next t ∧ t.pc = s.pc + 2 ∧
      (∀ j, j < 16 → r.getLsbD j = a.getLsbD ((j + n) % 16)) ∧
      Wrote s t rd r [(.z, r == 0), (.n, r.msb), (.c, a.getLsbD (n - 1))]) ∧
    (∃ t r, Sys2Proof.Machine.exec (.rol rd n) s = .next t ∧ t.pc = s.pc + 2 ∧
      (∀ j, j < 16 → r.getLsbD j = a.getLsbD ((j + 16 - n) % 16)) ∧
      Wrote s t rd r [(.z, r == 0), (.n, r.msb), (.c, a.getLsbD (16 - n))])

/-- R197, R198: RORC and ROLC by 1 to 15 places rotate the 17 bits made of Rd and C. In RORC, C is bit 0 of the 17; in ROLC
it is bit 16. Flags assigned both ways and RE as destination: D3, D27 (log 8, log 30). -/
def Obligations.RotateThroughCarryResults : Prop :=
  ∀ (s : State) (rd : Reg) (n : Nat) (a : Word) (c0 : Bool), a = s.reg rd → c0 = s.flag .c → 1 ≤ n → n ≤ 15 →
    (∃ t r c, Sys2Proof.Machine.exec (.rorc rd n) s = .next t ∧ t.pc = s.pc + 2 ∧
      (∀ x : Nat → Bool, x 0 = c0 → (∀ j, j < 16 → x (j + 1) = a.getLsbD j) →
        c = x (n % 17) ∧ ∀ j, j < 16 → r.getLsbD j = x ((j + 1 + n) % 17)) ∧
      Wrote s t rd r [(.z, r == 0), (.n, r.msb), (.c, c)]) ∧
    (∃ t r c, Sys2Proof.Machine.exec (.rolc rd n) s = .next t ∧ t.pc = s.pc + 2 ∧
      (∀ x : Nat → Bool, x 16 = c0 → (∀ j, j < 16 → x j = a.getLsbD j) →
        c = x (16 - n) ∧ ∀ j, j < 16 → r.getLsbD j = x ((j + 17 - n) % 17)) ∧
      Wrote s t rd r [(.z, r == 0), (.n, r.msb), (.c, c)])

/-! ### Data transfer (43_data_transfer.md) -/

/-- R210, R211, R212, R217 with R62, R66, R80 (MOVP as MOV: D17, log 7; wrap: D20, log 23): a word load from an even address
completes: Rd takes the two bytes at the address, the one at the address itself above; no flag changes, but that RE as
destination takes the word. `s.gap` is `s` after what a DMA master granted the bus may do between the read and the write of
Rd (R72: log 31). RE as destination: D27 (log 30). -/
def Obligations.WordLoads : Prop :=
  ∀ (s : State) (rd rs ri : Reg) (off : Int) (ea : Word), isEven ea = true →
    (ea = s.reg rs + BitVec.ofInt 16 off → ∃ t, Sys2Proof.Machine.exec (.ldo rd rs off) s = .next t ∧ t.pc = s.pc + 2 ∧
      Wrote s.gap t rd (s.byteAt ea ++ s.byteAt (ea + 1)) []) ∧
    (ea = s.reg rs + s.reg ri → ∃ t, Sys2Proof.Machine.exec (.ldr rd rs ri) s = .next t ∧ t.pc = s.pc + 2 ∧
      Wrote s.gap t rd (s.byteAt ea ++ s.byteAt (ea + 1)) []) ∧
    (ea = s.reg rs → ∃ t, Sys2Proof.Machine.exec (.ldp rd rs) s = .next t ∧ t.pc = s.pc + 2 ∧
      Wrote s.gap t rd (s.byteAt ea ++ s.byteAt (ea + 1)) [])

/-- R213, R214, R218 with R62, R66, R80 (MOVP as MOV: D17, log 7; wrap: D20, log 23): a word store to an even address
completes: the upper byte of Rs at the address the operand form gives, the lower byte above it, no other byte, no register
and no flag changed. -/
def Obligations.WordStores : Prop :=
  ∀ (s : State) (rd rs ri : Reg) (off : Int) (ea : Word), s.canonical = true → isEven ea = true →
    (ea = s.based rd off → ∃ t, Sys2Proof.Machine.exec (.sto rd off rs) s = .next t ∧ t.pc = s.pc + 2 ∧
      t.byteAt ea = (s.reg rs).extractLsb' 8 8 ∧ t.byteAt (ea + 1) = (s.reg rs).extractLsb' 0 8 ∧
      Keeps s t [] [] [ea, ea + 1]) ∧
    (ea = s.indexed rd ri → ∃ t, Sys2Proof.Machine.exec (.str rd ri rs) s = .next t ∧ t.pc = s.pc + 2 ∧
      t.byteAt ea = (s.reg rs).extractLsb' 8 8 ∧ t.byteAt (ea + 1) = (s.reg rs).extractLsb' 0 8 ∧
      Keeps s t [] [] [ea, ea + 1]) ∧
    (ea = s.reg rd → ∃ t, Sys2Proof.Machine.exec (.stp rd rs) s = .next t ∧ t.pc = s.pc + 2 ∧
      t.byteAt ea = (s.reg rs).extractLsb' 8 8 ∧ t.byteAt (ea + 1) = (s.reg rs).extractLsb' 0 8 ∧
      Keeps s t [] [] [ea, ea + 1])

/-- R215, R216: MOVB loads one byte, zero-extended, from any address; and stores the low byte of Rs at any address, the
adjacent byte and everything else unchanged. `s.gap`: as in `WordLoads` (log 31). RE as destination: D27 (log 30). -/
def Obligations.ByteTransfers : Prop :=
  ∀ (s : State) (rd rs : Reg),
    (∃ t r, Sys2Proof.Machine.exec (.ldb rd rs) s = .next t ∧ t.pc = s.pc + 2 ∧
      r.toNat = (s.byteAt (s.reg rs)).toNat ∧ Wrote s.gap t rd r []) ∧
    (s.canonical = true → ∃ t, Sys2Proof.Machine.exec (.stb rd rs) s = .next t ∧ t.pc = s.pc + 2 ∧
      t.byteAt (s.reg rd) = (s.reg rs).extractLsb' 0 8 ∧ Keeps s t [] [] [s.reg rd])

/-- R220, R221 with R31: MOVL writes Rd with the sign-extended constant, MOVH the upper byte of Rd only; no flag, but that
RE as destination takes the value written (D35: log 30). And D27 (log 30). -/
def Obligations.ConstantLoads : Prop :=
  ∀ (s : State) (rd : Reg),
    (∀ k : Int, -128 ≤ k → k ≤ 127 → ∃ t r, Sys2Proof.Machine.exec (.movl rd k) s = .next t ∧ t.pc = s.pc + 2 ∧
      r.toInt = k ∧ Wrote s t rd r []) ∧
    (∀ k : Nat, k ≤ 255 → ∃ t r, Sys2Proof.Machine.exec (.movh rd k) s = .next t ∧ t.pc = s.pc + 2 ∧
      r.toNat = 256 * k + (s.reg rd).toNat % 256 ∧ Wrote s t rd r [])

/-- R308 (D38: log 45): the one or two instructions that `MOV Rd, k` stands for, run in order, leave k in Rd, for every k
from -32768 to 65535. SP and RE as destination: D12, D35 (log 18, log 30). -/
def Obligations.MovConstantLeavesTheConstant : Prop :=
  ∀ (s : State) (rd : Reg) (k : Int), -32768 ≤ k → k ≤ 65535 →
    (∃ i t, Asm.movConstant rd k = some [i] ∧ i.WellFormed ∧ Sys2Proof.Machine.exec i s = .next t ∧
      t.reg rd = BitVec.ofInt 16 k) ∨
    (∃ i j t u, Asm.movConstant rd k = some [i, j] ∧ i.WellFormed ∧ j.WellFormed ∧
      Sys2Proof.Machine.exec i s = .next t ∧ Sys2Proof.Machine.exec j t = .next u ∧ u.reg rd = BitVec.ofInt 16 k)

/-- R229 to R233 (A registers: D22, log 25; no privilege: D13, log 19): the register moves copy a register, to or from an
auxiliary register, and to or from USP whatever RE.NP is; no flag, but that RE as destination takes the value. RE as
destination: D27 (log 30). -/
def Obligations.RegisterMoves : Prop :=
  ∀ (s : State) (rd rs : Reg) (x : AReg),
    (∃ t, Sys2Proof.Machine.exec (.movrr rd rs) s = .next t ∧ t.pc = s.pc + 2 ∧ Wrote s t rd (s.reg rs) []) ∧
    (∃ t, Sys2Proof.Machine.exec (.movar x rs) s = .next t ∧ t.pc = s.pc + 2 ∧ t.cell (.aux x) = s.reg rs ∧
      Keeps s t [.aux x] [] []) ∧
    (∃ t, Sys2Proof.Machine.exec (.movra rd x) s = .next t ∧ t.pc = s.pc + 2 ∧ Wrote s t rd (s.cell (.aux x)) []) ∧
    (∃ t, Sys2Proof.Machine.exec (.movru rd) s = .next t ∧ t.pc = s.pc + 2 ∧ Wrote s t rd s.usp []) ∧
    (∃ t, Sys2Proof.Machine.exec (.movur rs) s = .next t ∧ t.pc = s.pc + 2 ∧ t.usp = s.reg rs ∧ Keeps s t [.usp] [] [])

/-- R235 (literal order for TEMP, RE and equal operands: U8, log 36): SWAP Rd, Rs exchanges the two registers and leaves the
old Rd in TEMP. With RE among them RE takes the other's value, the second register being the one its name stands for after
RE is written. With TEMP named the three assignments are read in order. SP and RE: D12, D27 (log 18, log 30). -/
def Obligations.RegisterSwap : Prop :=
  ∀ (s : State) (rd rs : Reg),
    ∃ t, Sys2Proof.Machine.exec (.swapr rd rs) s = .next t ∧ t.pc = s.pc + 2 ∧
      (rd ≠ .temp → rs ≠ .temp → rd ≠ .re → rs ≠ .re →
        t.cell (s.phys rd) = s.reg rs ∧ t.cell (s.phys rs) = s.reg rd ∧ t.temp = s.reg rd ∧
        Keeps s t [s.phys rd, s.phys rs, .temp] [] []) ∧
      (rd = .re → rs ≠ .re → rs ≠ .temp →
        t.re = s.reg rs ∧ t.cell (Reg.phys ((s.reg rs).getLsbD 13) rs) = s.re ∧ t.temp = s.re ∧
        Keeps s t [Reg.phys ((s.reg rs).getLsbD 13) rs, .temp] allBits []) ∧
      (rs = .re → rd ≠ .temp →
        t.re = s.reg rd ∧ t.cell (s.phys rd) = s.re ∧ t.temp = s.reg rd ∧ Keeps s t [s.phys rd, .temp] allBits []) ∧
      (rd = .temp → t.temp = s.reg rs ∧ Keeps s t [.temp] [] []) ∧
      (rs = .temp → rd ≠ .temp → t.temp = s.reg rd ∧ Keeps s t [.temp] [] [])

/-- R236, R72 (literal order for TEMP: U8, log 36): SWAP Rd, [Rs] at an even address exchanges Rd and the word in memory,
and leaves the old word in TEMP; with Rd = RE, RE takes the word; with Rd = TEMP the word stays and TEMP takes it. No DMA
access comes between the read and the write; what may come after them, before Rd is written, is the gap of `m` (log 31),
which changes nothing without RE.DE or a DMA access to come. SP and RE: D12, D27 (log 18, log 30). -/
def Obligations.MemorySwap : Prop :=
  ∀ (s m : State) (rd rs : Reg) (ea : Word), s.canonical = true → ea = s.reg rs → isEven ea = true →
    m = s.setWord ea (if rd = .temp then s.wordAt ea else s.reg rd) →
    ∃ t, Sys2Proof.Machine.exec (.swapm rd rs) s = .next t ∧ t.pc = s.pc + 2 ∧ t.temp = s.wordAt ea ∧
      (rd = .re → t.re = s.wordAt ea ∧ Keeps m.gap t [.temp] allBits []) ∧
      (rd ≠ .re → t.cell (s.phys rd) = s.wordAt ea ∧ Keeps m.gap t [s.phys rd, .temp] [] []) ∧
      (s.flag .de = false ∨ s.gaps = [] →
        (rd ≠ .temp → t.wordAt ea = s.reg rd) ∧
        (rd = .temp → Keeps s t [.temp] [] []) ∧
        (rd = .re → Keeps s t [.temp] allBits [ea, ea + 1]) ∧
        (rd ≠ .re → Keeps s t [s.phys rd, .temp] [] [ea, ea + 1]))

/-- R237: PUSH with an even SP stores Rd, as it was before (SP and RE included), below the top of the stack that RE.NP
selects, and lowers that SP by 2. Which SP, and the wrap: D12, D20 (log 18, log 23). -/
def Obligations.PushResult : Prop :=
  ∀ (s : State) (rd : Reg), s.canonical = true → isEven (s.reg .sp) = true →
    ∃ t, Sys2Proof.Machine.exec (.push rd) s = .next t ∧ t.pc = s.pc + 2 ∧ t.wordAt s.pushSlot = s.reg rd ∧
      t.cell (s.phys .sp) = s.reg .sp - 2 ∧ Keeps s t [s.phys .sp] [] [s.pushSlot, s.pushSlot + 1]

/-- R238 (POP SP and POP RE read literally: U9, log 36): POP with an even SP writes Rd with the word on top and raises SP by
2; POP SP leaves the popped value plus 2; POP RE raises the stack pointer of the level just popped. `s.gap`: as in
`WordLoads` (log 31). Which SP, and the wrap: D12, D20 (log 18, log 23). -/
def Obligations.PopResult : Prop :=
  ∀ (s : State) (rd : Reg) (v : Word), isEven (s.reg .sp) = true → v = s.wordAt (s.reg .sp) →
    ∃ t, Sys2Proof.Machine.exec (.pop rd) s = .next t ∧ t.pc = s.pc + 2 ∧
      (rd ≠ .re → rd ≠ .sp → t.cell (s.phys rd) = v ∧ t.cell (s.phys .sp) = s.reg .sp + 2 ∧
        Keeps s.gap t [s.phys rd, s.phys .sp] [] []) ∧
      (rd = .sp → t.cell (s.phys .sp) = v + 2 ∧ Keeps s.gap t [s.phys .sp] [] []) ∧
      (rd = .re → t.re = v ∧
        t.cell (Reg.phys (v.getLsbD 13) .sp) = s.cell (Reg.phys (v.getLsbD 13) .sp) + 2 ∧
        Keeps s.gap t [Reg.phys (v.getLsbD 13) .sp] allBits [])

/-! ### Control flow (44_control_flow.md) -/

/-- R251 to R267 with R97, R104 (wrap: D20, log 23): each conditional jump always completes, with pc at EIS plus twice the
displacement where its condition on the flags holds and at EIS elsewhere; nothing but pc changes. -/
def Obligations.ConditionalJumps : Prop :=
  ∀ (s : State) (dif : Int) (z n c v a : Bool) (go stay : Word), -128 ≤ dif → dif ≤ 127 →
    z = s.flag .z → n = s.flag .n → c = s.flag .c → v = s.flag .v → a = s.flag .a →
    go = s.pc + 2 + BitVec.ofInt 16 (2 * dif) → stay = s.pc + 2 →
    Sys2Proof.Machine.exec (.jz dif) s = .next (s.setPc (if z then go else stay)) ∧
    Sys2Proof.Machine.exec (.jnz dif) s = .next (s.setPc (if z then stay else go)) ∧
    Sys2Proof.Machine.exec (.jn dif) s = .next (s.setPc (if n then go else stay)) ∧
    Sys2Proof.Machine.exec (.jnn dif) s = .next (s.setPc (if n then stay else go)) ∧
    Sys2Proof.Machine.exec (.jp dif) s = .next (s.setPc (if n ∨ z then stay else go)) ∧
    Sys2Proof.Machine.exec (.jnp dif) s = .next (s.setPc (if n ∨ z then go else stay)) ∧
    Sys2Proof.Machine.exec (.jc dif) s = .next (s.setPc (if c then go else stay)) ∧
    Sys2Proof.Machine.exec (.jnc dif) s = .next (s.setPc (if c then stay else go)) ∧
    Sys2Proof.Machine.exec (.jv dif) s = .next (s.setPc (if v then go else stay)) ∧
    Sys2Proof.Machine.exec (.jnv dif) s = .next (s.setPc (if v then stay else go)) ∧
    Sys2Proof.Machine.exec (.ja dif) s = .next (s.setPc (if a then go else stay)) ∧
    Sys2Proof.Machine.exec (.jna dif) s = .next (s.setPc (if a then stay else go)) ∧
    Sys2Proof.Machine.exec (.jlt dif) s = .next (s.setPc (if n ≠ v then go else stay)) ∧
    Sys2Proof.Machine.exec (.jle dif) s = .next (s.setPc (if n ≠ v ∨ z then go else stay)) ∧
    Sys2Proof.Machine.exec (.jgt dif) s = .next (s.setPc (if n ≠ v ∨ z then stay else go)) ∧
    Sys2Proof.Machine.exec (.jge dif) s = .next (s.setPc (if n ≠ v then stay else go))

/-- R268, R269, R275, R279 (wrap: D20, log 23): JMP adds twice its displacement to EIS, JMP Rs and RETF take pc from a
register whatever its parity, NOP advances pc; nothing but pc changes (the blank flags cell of JMP: N4, R250, log 44). -/
def Obligations.JumpsAndNop : Prop :=
  ∀ (s : State) (rs : Reg) (dif : Int), -2048 ≤ dif → dif ≤ 2047 →
    Sys2Proof.Machine.exec (.jmp dif) s = .next (s.setPc (s.pc + 2 + BitVec.ofInt 16 (2 * dif))) ∧
    Sys2Proof.Machine.exec (.jmpr rs) s = .next (s.setPc (s.reg rs)) ∧
    Sys2Proof.Machine.exec .retf s = .next (s.setPc s.rl) ∧
    Sys2Proof.Machine.exec .nop s = .next (s.setPc (s.pc + 2))

/-- R270, R271, R274 with R42 (return address EIS: D11, log 17; wrap: D20, log 23): with an even SP, CALL stores EIS below
the top of the stack, goes to its target (Rs read before SP moves), lowers SP by 2 and leaves EIS in the internal RER; RET
takes pc from the top word and raises SP by 2. Which SP: D12 (log 18). -/
def Obligations.StackCalls : Prop :=
  ∀ (s : State) (rs : Reg) (dif : Int), isEven (s.reg .sp) = true →
    (s.canonical = true → -2048 ≤ dif → dif ≤ 2047 →
      ∃ t, Sys2Proof.Machine.exec (.call dif) s = .next t ∧ t.pc = s.pc + 2 + BitVec.ofInt 16 (2 * dif) ∧
        t.wordAt s.pushSlot = s.pc + 2 ∧ t.cell (s.phys .sp) = s.reg .sp - 2 ∧ t.rer = s.pc + 2 ∧
        Keeps s t [s.phys .sp, .rer] [] [s.pushSlot, s.pushSlot + 1]) ∧
    (s.canonical = true →
      ∃ t, Sys2Proof.Machine.exec (.cr rs) s = .next t ∧ t.pc = s.reg rs ∧
        t.wordAt s.pushSlot = s.pc + 2 ∧ t.cell (s.phys .sp) = s.reg .sp - 2 ∧ t.rer = s.pc + 2 ∧
        Keeps s t [s.phys .sp, .rer] [] [s.pushSlot, s.pushSlot + 1]) ∧
    (∃ t, Sys2Proof.Machine.exec .ret s = .next t ∧ t.pc = s.wordAt (s.reg .sp) ∧
      t.cell (s.phys .sp) = s.reg .sp + 2 ∧ Keeps s t [s.phys .sp] [] [])

/-- R270, R274: a CALL followed by a RET comes back to the instruction after the CALL with SP as it was; only RER, the stack
slot and pc differ (return address EIS: D11, log 17). Which SP: D12 (log 18). -/
def Obligations.CallThenReturn : Prop :=
  ∀ (s : State) (dif : Int), s.canonical = true → isEven (s.reg .sp) = true →
    ∃ t u, Sys2Proof.Machine.exec (.call dif) s = .next t ∧ Sys2Proof.Machine.exec .ret t = .next u ∧
      u.pc = s.pc + 2 ∧ u.reg .sp = s.reg .sp ∧ Keeps s u [.rer] [] [s.pushSlot, s.pushSlot + 1]

/-- R272, R273 with R42 (return address EIS: D11, log 17; RL as Rs: U10, log 36; wrap: D20, log 23): CALLF leaves EIS in RL
and RER and goes to its target; with Rs = RL the target is EIS. No memory changes. -/
def Obligations.LinkCalls : Prop :=
  ∀ (s : State) (rs : Reg) (dif : Int),
    (-2048 ≤ dif → dif ≤ 2047 →
      ∃ t, Sys2Proof.Machine.exec (.callf dif) s = .next t ∧ t.pc = s.pc + 2 + BitVec.ofInt 16 (2 * dif) ∧
        t.rl = s.pc + 2 ∧ t.rer = s.pc + 2 ∧ Keeps s t [.rl, .rer] [] []) ∧
    (∃ t, Sys2Proof.Machine.exec (.crf rs) s = .next t ∧ t.pc = (if rs = .rl then s.pc + 2 else s.reg rs) ∧
      t.rl = s.pc + 2 ∧ t.rer = s.pc + 2 ∧ Keeps s t [.rl, .rer] [] [])

/-- R276, R277, R325: with SSP and BTE even, SWE enters exception SOFTWARE with the address after it as return address, at
either level, whatever its constant is; with SSP or BTE odd it is the double fault (R338, D29: log 32). Both levels, return
address, wrap: D13, D11, D20 (log 19, log 17, log 23). -/
def Obligations.SweEntersSoftware : Prop :=
  ∀ (s : State) (k : Nat),
    (s.canonical = true → s.entrySafe = true →
      ∃ t, Sys2Proof.Machine.exec (.swe k) s = .next t ∧ Entered s t .software (s.pc + 2) ∧
        ∀ k', Sys2Proof.Machine.exec (.swe k') s = .next t) ∧
    (s.entrySafe = false → Sys2Proof.Machine.exec (.swe k) s = .fault .doubleFault)

/-- R278 (at user level too: D13, log 19): with an even SP, RFE pops RE (into TEMP as well) and pc and raises by 4 the stack
pointer of the level it runs at. What DMA may do after each of the two reads (R72: log 31) is the two gaps: pc is read after
the first of them. Which SP, and the wrap: D12, D20 (log 18, log 23). -/
def Obligations.RfeResult : Prop :=
  ∀ s : State, isEven (s.reg .sp) = true →
    ∃ t, Sys2Proof.Machine.exec .rfe s = .next t ∧ t.temp = s.wordAt (s.reg .sp) ∧ t.re = s.wordAt (s.reg .sp) ∧
      t.pc = s.gap.wordAt (s.reg .sp + 2) ∧ t.cell (s.phys .sp) = s.reg .sp + 4 ∧
      Keeps s.gap.gap t [.temp, s.phys .sp] allBits []

/-! ### Exceptions and interrupts (60_exceptions.md) -/

/-- R321 with 90_conflicts.md C4: the offsets of the exception table and the priorities, 1 the highest. -/
def Obligations.ExceptionTable : Prop :=
  (Exc.int 0).offset = 0x0002 ∧ (Exc.int 1).offset = 0x0004 ∧ (Exc.int 2).offset = 0x0006 ∧ (Exc.int 3).offset = 0x0008 ∧
  Exc.excesso.offset = 0x000A ∧ Exc.div0.offset = 0x000C ∧ Exc.software.offset = 0x000E ∧ Exc.codInv.offset = 0x0010 ∧
  Exc.dDesalinhado.offset = 0x0012 ∧ Exc.iDesalinhado.offset = 0x0014 ∧
  Exc.excesso.priority = 1 ∧ Exc.div0.priority = 1 ∧ Exc.dDesalinhado.priority = 1 ∧ (Exc.int 0).priority = 2 ∧
  (Exc.int 1).priority = 3 ∧ (Exc.int 2).priority = 4 ∧ (Exc.int 3).priority = 5 ∧ Exc.iDesalinhado.priority = 6 ∧
  Exc.software.priority = 7 ∧ Exc.codInv.priority = 7

/-- R330 (one sequence for all ten: D10, log 16), R338 (D29: log 32): taking an exception with SSP and BTE even saves the
return address and RE on the system stack, clears RE and takes pc from the table; with SSP or BTE odd it is the double
fault. The wrap: D20 (log 23). -/
def Obligations.ExceptionEntry : Prop :=
  ∀ (s : State) (e : Exc) (ret : Word),
    (s.canonical = true → s.entrySafe = true → ∃ t, s.enter e ret = .next t ∧ Entered s t e ret) ∧
    (s.entrySafe = false → s.enter e ret = .fault .doubleFault)

/-- R330, R334, R278: any exception entry followed at once by RFE resumes at the return address with RE, the level and both
stack pointers as they were: only TEMP, RER and the four bytes of the frame differ. The entry sequence: D10 (log 16); the
wrap: D20 (log 23). -/
def Obligations.EntryThenRfeRestores : Prop :=
  ∀ (s : State) (e : Exc) (ret : Word), s.canonical = true → s.entrySafe = true →
    ∃ t u, s.enter e ret = .next t ∧ Sys2Proof.Machine.exec .rfe t = .next u ∧ u.pc = ret ∧ u.re = s.re ∧ u.ssp = s.ssp ∧
      Keeps s u [.temp, .rer] [] [s.ssp - 4, s.ssp - 3, s.ssp - 2, s.ssp - 1]

/-- R67, R210, R327 (nothing changed: D31, log 34; return address EIS: D11, log 17): each instruction whose 16-bit access is
at an odd address takes D_DESALINHADO from a state in which it changed nothing: with SSP and BTE even the entry, with either
odd the double fault (R338, D29: log 32). The entry sequence: D10 (log 16). -/
def Obligations.MisalignedAccessEntersDDesalinhado : Prop :=
  ∀ (s : State) (i : Instr) (rd rs ri : Reg) (off dif : Int), s.canonical = true →
    ((i = .ldo rd rs off ∧ isEven (s.based rs off) = false) ∨ (i = .ldr rd rs ri ∧ isEven (s.indexed rs ri) = false) ∨
      (i = .sto rd off rs ∧ isEven (s.based rd off) = false) ∨ (i = .str rd ri rs ∧ isEven (s.indexed rd ri) = false) ∨
      (i = .ldp rd rs ∧ isEven (s.reg rs) = false) ∨ (i = .stp rd rs ∧ isEven (s.reg rd) = false) ∨
      (i = .swapm rd rs ∧ isEven (s.reg rs) = false) ∨
      ((i = .push rd ∨ i = .pop rd ∨ i = .call dif ∨ i = .cr rs ∨ i = .ret ∨ i = .rfe) ∧ isEven (s.reg .sp) = false)) →
    Takes (Sys2Proof.Machine.exec i s) s .dDesalinhado (s.pc + 2)

/-- R106, R326 (D21, D11: log 24, log 17): an invalid word at an even pc takes COD_INV, before any effect of the word, with
the address after it as return address, from the state after the gap that follows the fetch (log 31): with SSP and BTE even
the entry, with either odd the double fault (R338, D29: log 32). The entry sequence: D10 (log 16). -/
def Obligations.InvalidWordEntersCodInv : Prop :=
  ∀ (s b : State) (e : DecodeError), b = s.boundary → b.readyInt = none → isEven b.pc = true → b.fetched = .error e →
    b.canonical = true → Takes (Sys2Proof.Machine.step s) b.gap .codInv (b.pc + 2)

/-- R30: bit 0 of PC is a real bit. A register jump, RET, RETF, RFE and an exception-table entry load whatever value they
find, odd ones too, and complete; the next fetch at an odd pc takes I_DESALINHADO, the odd pc itself being the return
address (R328, R331, D11: log 17), or with SSP or BTE odd is the double fault (R338, D29: log 32); relative jumps and calls
keep the parity of pc. Where RET and RFE find the value is R274 and R278, which SP they read D12 (log 18), RFE at user level
D13 (log 19, log 36), the gap before RFE's second read R72 (log 31), one entry sequence for all ten exceptions D10 (log
16). -/
def Obligations.PcBitZeroIsReal : Prop :=
  (∀ (s : State) (rs : Reg),
    (∃ t, Sys2Proof.Machine.exec (.jmpr rs) s = .next t ∧ t.pc = s.reg rs) ∧
    (∃ t, Sys2Proof.Machine.exec .retf s = .next t ∧ t.pc = s.rl) ∧
    (rs ≠ .rl → ∃ t, Sys2Proof.Machine.exec (.crf rs) s = .next t ∧ t.pc = s.reg rs) ∧
    (isEven (s.reg .sp) = true →
      (∃ t, Sys2Proof.Machine.exec (.cr rs) s = .next t ∧ t.pc = s.reg rs) ∧
      (∃ t, Sys2Proof.Machine.exec .ret s = .next t ∧ t.pc = s.wordAt (s.reg .sp)) ∧
      (∃ t, Sys2Proof.Machine.exec .rfe s = .next t ∧ t.pc = s.gap.wordAt (s.reg .sp + 2))) ∧
    (∀ (e : Exc) (ret : Word), s.canonical = true → s.entrySafe = true →
      ∃ t, s.enter e ret = .next t ∧ t.pc = t.wordAt (s.bte + e.offset))) ∧
  (∀ s b : State, b = s.boundary → b.readyInt = none → isEven b.pc = false → b.canonical = true →
    Takes (Sys2Proof.Machine.step s) b .iDesalinhado b.pc) ∧
  (∀ (s : State) (dif : Int) (i : Instr),
    i ∈ [Instr.jz dif, .jnz dif, .jn dif, .jnn dif, .jp dif, .jnp dif, .jc dif, .jnc dif, .jv dif, .jnv dif, .ja dif,
      .jna dif, .jlt dif, .jle dif, .jgt dif, .jge dif, .jmp dif, .callf dif] ∨
      (i = .call dif ∧ isEven (s.reg .sp) = true) →
    ∃ t, Sys2Proof.Machine.exec i s = .next t ∧ isEven t.pc = isEven s.pc)

/-- R335, R336, R332, R337 (return address and timing: D11, D30, log 17, log 33; IntAck: D16, log 21): the interrupt taken
at a boundary is the pending and enabled one of smallest number, if any; its latch falls, IntAck rises for Int3 alone, and
the return address is the pc of the instruction that would run next; with SSP or BTE odd it is the double fault instead
(R338, D29: log 32). The entry sequence: D10 (log 16). -/
def Obligations.InterruptAtTheBoundary : Prop :=
  (∀ (s : State) (i : Fin 4), s.readyInt = some i ↔
    (s.flag .ie = true ∧ s.flag (.ieOf i) = true ∧ s.pend[i] = true ∧
      ∀ j : Fin 4, j < i → ¬ (s.flag (.ieOf j) = true ∧ s.pend[j] = true))) ∧
  (∀ (s b u : State) (i : Fin 4), b = s.boundary → b.readyInt = some i → b.canonical = true →
    u = { b with pend := b.pend.set i false, intAck := decide (i = 3) } →
    Takes (Sys2Proof.Machine.step s) u (.int i) b.pc)

/-- R330, R334, R335, R350: at the boundary after any exception entry, whatever the environment does there, no interrupt is
taken, interrupts and DMA are off, at the boundary and after the fetch, the level is system, and memory is as the entry left
it (DMA: D28, log 31). The entry sequence: D10 (log 16). -/
def Obligations.NoInterruptAfterEntry : Prop :=
  ∀ (s t u : State) (e : Exc) (ret : Word), s.enter e ret = .next t → u = t.boundary →
    u.readyInt = none ∧ u.flag .ie = false ∧ u.flag .de = false ∧ u.flag .np = false ∧ u.mem = t.mem ∧ u.gap = u

/-- R329, R339, R350, R81, R72 (masked edges kept: D15, log 20; DMA: D28, log 31): an edge on pin Int i sets latch i,
whatever is masked, and changes nothing else. While RE.DE = 1 a DMA write changes the byte it names and BusGrant and no
other field of the state (no register, latch, `env`, `gaps`, IntAck or draw counter), a DMA read BusGrant alone, and neither
does anything while RE.DE = 0. In a gap inside an instruction the accesses listed for it do what they would do at a
boundary, and none happens while RE.DE = 0. At the boundary before a step the events listed for it happen in their order and
are used up, the output pins having fallen first (the list of events: log 38; the pins: log 21, log 31). -/
def Obligations.EnvironmentEvents : Prop :=
  ∀ (s : State), s.canonical = true →
    (∀ i : Fin 4, s.event (.edge i) = { s with pend := s.pend.set i true }) ∧
    (∀ x : Config.DmaAccess, s.flag .de = false → s.event (.dma x) = s) ∧
    (∀ a : Word, s.flag .de = true → s.event (.dma (.read a)) = { s with busGrant := true }) ∧
    (∀ (a : Word) (v : Byte) (x : Word), s.flag .de = true →
      (s.event (.dma (.write a v))).byteAt x = (if x = a then v else s.byteAt x) ∧
      ∃ m, s.event (.dma (.write a v)) = { s with mem := m, busGrant := true }) ∧
    (s.flag .de = false → s.gap = s) ∧
    (∀ accesses later, s.flag .de = true → s.gaps = accesses :: later →
      s.gap = (accesses.map Event.dma).foldl State.event { s with gaps := later }) ∧
    (∀ events later, s.env = events :: later →
      s.boundary = events.foldl State.event { s with env := later, intAck := false, busGrant := false })

/-! ### Memory and the whole machine -/

/-- R63: after a word is written at an even address a, the byte at a is its upper and the byte at a + 1 its lower byte;
after a byte is written at b, the other byte of the word that contains b is unchanged. -/
def Obligations.MixedWidthAccess : Prop :=
  ∀ s : State, s.canonical = true →
    (∀ a v : Word, isEven a = true → ∃ t, s.store a v = some t ∧
      t.byteAt a = v.extractLsb' 8 8 ∧ t.byteAt (a + 1) = v.extractLsb' 0 8) ∧
    (∀ (b : Word) (w : Byte), (s.setByte b w).byteAt b = w ∧
      (s.setByte b w).byteAt (if isEven b then b + 1 else b - 1) = s.byteAt (if isEven b then b + 1 else b - 1))

/-- R66: a word read at an even address is the byte there followed by the byte above; a word write at an even address writes
both bytes, the address of the second never wrapping; at an odd address nothing is read or written and the instruction
raises D_DESALINHADO. -/
def Obligations.WordAccessPrimitives : Prop :=
  ∀ (s : State) (a v : Word) (read : Word → Result) (written : State → Result), s.canonical = true →
    (isEven a = true → (a + 1).toNat = a.toNat + 1) ∧
    (isEven a = true → s.withLoad a read = read (s.byteAt a ++ s.byteAt (a + 1))) ∧
    (isEven a = true → ∃ t, s.withStore a v written = written t ∧ t.byteAt a = v.extractLsb' 8 8 ∧
      t.byteAt (a + 1) = v.extractLsb' 0 8 ∧ Keeps s t [] [] [a, a + 1] ∧ t.pc = s.pc) ∧
    (isEven a = false → ∃ ret, s.withLoad a read = s.enter .dDesalinhado ret ∧
      s.withStore a v written = s.enter .dDesalinhado ret)

/-- R68: a byte read at any address answers that byte, and a byte write changes that byte and no other. -/
def Obligations.ByteAccessPrimitives : Prop :=
  ∀ (s : State) (a b : Word) (v : Byte), s.canonical = true →
    (s.setByte a v).byteAt a = v ∧ (b ≠ a → (s.setByte a v).byteAt b = s.byteAt b) ∧ Keeps s (s.setByte a v) [] [] [a]

/-- The model's invariant (log 6): every step from a state whose memory is in its canonical form (addresses rising below
65536, no entry equal to what an unlisted address reads as) leaves it so. -/
def Obligations.StepKeepsMemoryCanonical : Prop :=
  ∀ s t : State, s.canonical = true → Sys2Proof.Machine.step s = .next t → t.canonical = true

/-- R46, R370: reset clears every bit of RE, so the machine starts at system level with interrupts, DMA and the traps off
and register 12 naming SSP. What the model chose beside it (D15: pend, log 5; memory listing nothing, log 6) satisfies the
invariant. -/
def Obligations.ResetState : Prop :=
  State.reset.re = 0x0000 ∧ (∀ f : ReField, State.reset.flag f = false) ∧ State.reset.phys .sp = .ssp ∧
  State.reset.readyInt = none ∧ State.reset.canonical = true

/-- R31, R35, R38, R39, R210, R250: an instruction that does not name RE as a destination changes no bit of RE but the
result flags listed for it; so A, TV, TD, the interrupt and DMA enables, NP and the reserved bits are changed only by
instructions that write RE and by exception entries. Where the instruction takes an exception, this holds of the state `u`
from which the entry is made, whose RE is the one the entry saves. The table of R39 rests on D3, D27 (log 8, log 30) and,
for ADD Rd, k and JMP, on N4 (log 44). -/
def Obligations.OnlyListedFlagsChange : Prop :=
  ∀ (i : Instr) (s t : State), Reg.re ∉ i.destinations → Sys2Proof.Machine.exec i s = .next t →
    ∃ u : State, (∀ k, k < 16 → (∀ f ∈ resultFlags i, f.index ≠ k) → u.re.getLsbD k = s.re.getLsbD k) ∧
      (t = u ∨ ∃ (e : Exc) (ret : Word), Sys2Proof.Machine.exec i s = u.enter e ret)

/-- R21, R22, R25, R40 (A registers: D22, log 25): R0 to R10, RL and BTE are changed only by an instruction that names them
as a destination (RL by CALLF too), an auxiliary register only by MOV Ad, Rs; exception entries leave them alone. -/
def Obligations.RegistersChangeOnlyWhereNamed : Prop :=
  ∀ (i : Instr) (s t : State), Sys2Proof.Machine.exec i s = .next t →
    (∀ k : Fin 11, Reg.r k ∉ i.destinations → t.cell (.gpr k) = s.cell (.gpr k)) ∧
    (Reg.rl ∉ i.destinations → t.rl = s.rl) ∧
    (Reg.bte ∉ i.destinations → t.bte = s.bte) ∧
    (∀ x : AReg, (∀ rs, i ≠ .movar x rs) → t.cell (.aux x) = s.cell (.aux x))

/-- R27, R41: an instruction that starts and ends at user level leaves the system stack pointer alone; one that starts and
ends at system level, by an exception entry or not, leaves USP alone, unless it is MOV USP, Rs (or MUL RE, SP, whose last
write goes to the SP that the RE just written selects: log 11). Two stack pointers: D12 (log 18). -/
def Obligations.LevelsKeepTheOtherStackPointer : Prop :=
  ∀ (i : Instr) (s t : State), Sys2Proof.Machine.exec i s = .next t →
    (s.flag .np = true → t.flag .np = true → t.ssp = s.ssp) ∧
    (s.flag .np = false → t.flag .np = false → (∀ rs, i ≠ .movur rs) → i ≠ .mul .re .sp → t.usp = s.usp)
end

