-- ==== Sys2Proof/Laws/Assembler.lean ====
section
/-!
SUPPORT. What the assembler's rounds reach (49_assembler.md R299 to R308): the symbols are a fixed point of `collect`, and
`lengthen` ends with lengths that no constant asks to be longer.
-/
namespace Sys2Proof.Machine.Asm

/-- One symbol table knows no less than another: the same names in the same order, and every value that is known unchanged. -/
def Grows (a b : Symbols) : Prop := List.Forall₂ (fun p q => p.1 = q.1 ∧ (p.2 = none ∨ p.2 = q.2)) a b

/-- Every symbol that has a value in the first table has it in the second. -/
def Known (a b : Symbols) : Prop := ∀ name v, a.value name = some v → b.value name = some v

/-- The number of symbols without a value. -/
def unknowns (a : Symbols) : Nat := (a.filter fun p => p.2.isNone).length

theorem Grows.known {a b : Symbols} (h : Grows a b) : Known a b := by
  intro name v
  induction h with
  | nil => exact id
  | @cons p q ps qs hp _ ih =>
    obtain ⟨n, x⟩ := p
    obtain ⟨m, y⟩ := q
    obtain ⟨rfl, hx⟩ := hp
    simp only [Symbols.value, List.lookup] at ih ⊢
    cases name == n with
    | true => rcases hx with rfl | rfl <;> simp
    | false => exact ih

theorem Grows.unknowns_lt {a b : Symbols} (h : Grows a b) : a = b ∨ unknowns b < unknowns a := by
  induction h with
  | nil => exact .inl rfl
  | @cons p q ps qs hp _ ih =>
    obtain ⟨n, x⟩ := p
    obtain ⟨m, y⟩ := q
    obtain ⟨rfl, hx⟩ := hp
    rcases ih with rfl | ih <;> rcases hx with rfl | rfl
    · cases y <;> simp [unknowns]
    · exact .inl rfl
    · cases y <;> simp_all [unknowns]; omega
    · cases x <;> simp_all [unknowns]

theorem value_mono {a b : Symbols} (h : Known a b) (c : Const) {v : Int} (hv : c.value a = some v) : c.value b = some v := by
  cases c with
  | num => exact hv
  | sym name => exact h _ _ hv

/-- A value that is not known, or one that stays. -/
def Stays {α : Type} (x y : Option α) : Prop := x = none ∨ x = y

theorem Stays.map {α β : Type} {x y : Option α} (f : α → β) (h : Stays x y) : Stays (x.map f) (y.map f) := by
  rcases h with rfl | rfl <;> simp [Stays]

theorem value_stays {a b : Symbols} (h : Known a b) (c : Const) : Stays (c.value a) (c.value b) := by
  cases hv : c.value a with
  | none => exact .inl rfl
  | some v => exact .inr (value_mono h c hv).symm

theorem counterAfter_stays {a b : Symbols} (h : Known a b) (two : Bool) {x y : Option Word} (hx : Stays x y) (l : Line) :
    Stays (l.counterAfter a two x) (l.counterAfter b two y) := by
  cases l with
  | place c => exact (value_stays h c).map _
  | equ => exact hx
  | table _ n =>
    rcases hx with rfl | rfl
    · exact .inl rfl
    · cases x with
      | none => exact .inl rfl
      | some w => exact (value_stays h n).map _
  | instr | word | string => exact hx.map _

theorem defines_grows {a b : Symbols} (h : Known a b) {x y : Option Word} (hx : Stays x y) (l : Line) :
    Grows (l.defines a x) (l.defines b y) := by
  have one (name : List Char) {u v : Option Int} (huv : Stays u v) : Grows [(name, u)] [(name, v)] := .cons ⟨rfl, huv⟩ .nil
  cases l with
  | place => exact .nil
  | equ name c => exact one name (value_stays h c)
  | instr l | word l | string l | table l =>
    cases l with
    | none => exact .nil
    | some name => exact one name (hx.map _)

theorem collect_grows {a b : Symbols} (h : Known a b) (ls : Sized) {x y : Option Word} (hx : Stays x y) :
    Grows (collect a x ls) (collect b y ls) := by
  induction ls generalizing x y with
  | nil => exact .nil
  | cons l ls ih => exact List.rel_append (defines_grows h hx l.1) (ih (counterAfter_stays h l.2 hx l.1))

theorem unknowns_collect_le (a : Symbols) (x : Option Word) (ls : Sized) : unknowns (collect a x ls) ≤ ls.length := by
  refine (List.length_filter_le _ _).trans ?_
  induction ls generalizing x with
  | nil => exact Nat.le_refl 0
  | cons l ls ih =>
    have hd : (l.1.defines a x).length ≤ 1 := by
      unfold Line.defines
      split <;> simp
    have := ih (l.1.counterAfter a l.2 x)
    simp only [collect, List.length_append, List.length_cons]
    omega

theorem collect_resolve (ls : Sized) (n : Nat) (sym : Symbols) (h : Grows sym (collect sym (some counterAtStart) ls))
    (hn : unknowns sym ≤ n) :
    collect (resolve ls n sym) (some counterAtStart) ls = resolve ls n sym := by
  induction n generalizing sym with
  | zero => exact (h.unknowns_lt.resolve_right (by omega)).symm
  | succ n ih =>
    unfold resolve
    by_cases e : collect sym (some counterAtStart) ls = sym
    · simp only [e, if_true]
    · simp only [e, if_false]
      exact ih _ (collect_grows h.known ls (.inr rfl)) (by have := h.unknowns_lt.resolve_left (Ne.symm e); omega)

/-- The symbols agree with the lines that define them: no further round would change one (R299, R301). -/
theorem collect_symbols (ls : Sized) : collect (symbols ls) (some counterAtStart) ls = symbols ls := by
  unfold symbols resolve
  by_cases e : collect [] (some counterAtStart) ls = []
  · simp only [e, if_true]
  · simp only [e, if_false]
    exact collect_resolve ls _ _ (collect_grows (fun _ _ h => by simp [Symbols.value] at h) ls (.inr rfl))
      (unknowns_collect_le _ _ _)

/-- The number of lines with the short form. -/
def shorts (ls : Sized) : Nat := (ls.filter fun p => !p.2).length

theorem lengthen_round (f : Line → Bool) (ls : Sized) :
    (ls.map fun p => (p.1, p.2 || f p.1)) = ls ∨ shorts (ls.map fun p => (p.1, p.2 || f p.1)) < shorts ls := by
  induction ls with
  | nil => exact .inl rfl
  | cons p ps ih =>
    obtain ⟨l, two⟩ := p
    rcases ih with ih | ih <;> cases two <;> cases hf : f l <;> simp_all [shorts]; omega

/-- After `lengthen` no line of the short form asks for the long one (R308): its rounds are enough. -/
theorem lengthen_settled (n : Nat) (ls : Sized) (hn : shorts ls ≤ n) :
    ∀ p ∈ lengthen n ls, p.1.asksTwo (symbols (lengthen n ls)) = true → p.2 = true := by
  have fixed (ls : Sized) (h : (ls.map fun p => (p.1, p.2 || p.1.asksTwo (symbols ls))) = ls) :
      ∀ p ∈ ls, p.1.asksTwo (symbols ls) = true → p.2 = true := by
    intro p hp ha
    have h' : ∀ q ∈ ls, (q.1, q.2 || q.1.asksTwo (symbols ls)) = q := by
      simpa using List.map_inj_left.mp (h.trans (List.map_id ls).symm)
    simpa [ha] using (congrArg Prod.snd (h' p hp)).symm
  induction n generalizing ls with
  | zero => exact fixed ls ((lengthen_round _ ls).resolve_right (by omega))
  | succ n ih =>
    unfold lengthen
    by_cases e : (ls.map fun p => (p.1, p.2 || p.1.asksTwo (symbols ls))) = ls
    · simp only [e, if_true]
      exact fixed ls e
    · simp only [e, if_false]
      exact ih _ (by have := (lengthen_round (fun l => l.asksTwo (symbols ls)) ls).resolve_left e; omega)

/-- Lengths that the lines may have, one each. -/
def Lengths (ls : List Line) (sized : Sized) : Prop := List.Forall₂ (fun l p => p.1 = l ∧ p.2 ∈ l.lengths) ls sized

theorem search_complete {ls : List Line} {done rest : Sized} (h : Lengths ls rest) (hi : (image (done ++ rest)).isSome) :
    (search ls done).isSome := by
  induction h generalizing done with
  | nil => simpa [search] using hi
  | @cons l p ls rest hp _ ih =>
    obtain ⟨l', two⟩ := p
    obtain ⟨rfl, hm⟩ := hp
    simp only [search, List.findSome?_isSome_iff]
    exact ⟨two, hm, ih (by simpa using hi)⟩

theorem mem_lengths (l : Line) (sym : Symbols) : l.asksTwo sym ∈ l.lengths := by
  unfold Line.lengths
  split
  · cases Line.asksTwo sym _ <;> simp
  · rename_i h
    rw [List.mem_singleton]
    unfold Line.asksTwo
    split
    · rename_i k
      cases k with
      | num => rfl
      | sym => exact absurd rfl (h _ _ _)
    · rfl

theorem lengths_of_image {sized : Sized} (hi : (image sized).isSome) : Lengths (sized.map Prod.fst) sized := by
  have asked : ∀ p ∈ sized, p.2 = p.1.asksTwo (symbols sized) := by
    simp only [image] at hi
    split at hi
    · simp_all
    · simp at hi
  refine List.forall₂_map_left_iff.mpr (List.forall₂_same.mpr fun p hp => ⟨rfl, ?_⟩)
  exact asked p hp ▸ mem_lengths p.1 _

/-- A source is refused only where no choice of lengths gives an image (R301, R308). -/
theorem assemble_complete {sized : Sized} (hi : (image sized).isSome) : (assemble (sized.map Prod.fst)).isSome := by
  have := search_complete (done := []) (lengths_of_image hi) (by simpa using hi)
  unfold assemble
  cases image (lengthen _ _) <;> simp_all

theorem lengthen_lines (n : Nat) (ls : Sized) : (lengthen n ls).map Prod.fst = ls.map Prod.fst := by
  induction n generalizing ls with
  | zero => rfl
  | succ n ih =>
    simp only [lengthen]
    split
    · rfl
    · simp [ih, Function.comp_def]

theorem search_sound {ls : List Line} {done : Sized} {cells : List (Word × Byte)} (h : search ls done = some cells) :
    ∃ rest : Sized, rest.map Prod.fst = ls ∧ image (done ++ rest) = some cells := by
  induction ls generalizing done with
  | nil => exact ⟨[], rfl, by simpa [search] using h⟩
  | cons l ls ih =>
    obtain ⟨two, _, h⟩ := List.exists_of_findSome?_eq_some h
    obtain ⟨rest, hr, hi⟩ := ih h
    exact ⟨(l, two) :: rest, by simp [hr], by simpa using hi⟩

/-- What `assemble` answers is the image of its lines under some choice of lengths, each the one its constant asks for (R308). -/
theorem assemble_sound {ls : List Line} {cells : List (Word × Byte)} (h : assemble ls = some cells) :
    ∃ sized : Sized, sized.map Prod.fst = ls ∧ image sized = some cells := by
  unfold assemble at h
  cases hi : image (lengthen ls.length (ls.map fun l => (l, false))) with
  | none => exact search_sound (by simpa [hi] using h)
  | some c => exact ⟨_, by simp [lengthen_lines, Function.comp_def], hi.trans (by simpa [hi] using h)⟩

end Sys2Proof.Machine.Asm
end

