-- ==== Sys2Proof/Laws/State.lean ====
section
/-!
SUPPORT. One lemma for each field of State and each update: what the update leaves in that field.
-/
namespace Sys2Proof.Machine

/-! ### `setPc` -/

@[simp] theorem State.setPc_gpr (s : State) (t : Word) : (s.setPc t).gpr = s.gpr := rfl
@[simp] theorem State.setPc_rl (s : State) (t : Word) : (s.setPc t).rl = s.rl := rfl
@[simp] theorem State.setPc_ssp (s : State) (t : Word) : (s.setPc t).ssp = s.ssp := rfl
@[simp] theorem State.setPc_usp (s : State) (t : Word) : (s.setPc t).usp = s.usp := rfl
@[simp] theorem State.setPc_re (s : State) (t : Word) : (s.setPc t).re = s.re := rfl
@[simp] theorem State.setPc_bte (s : State) (t : Word) : (s.setPc t).bte = s.bte := rfl
@[simp] theorem State.setPc_temp (s : State) (t : Word) : (s.setPc t).temp = s.temp := rfl
@[simp] theorem State.setPc_aux (s : State) (t : Word) : (s.setPc t).aux = s.aux := rfl
@[simp] theorem State.setPc_rer (s : State) (t : Word) : (s.setPc t).rer = s.rer := rfl
@[simp] theorem State.setPc_pc (s : State) (t : Word) : (s.setPc t).pc = t := rfl
@[simp] theorem State.setPc_pend (s : State) (t : Word) : (s.setPc t).pend = s.pend := rfl
@[simp] theorem State.setPc_mem (s : State) (t : Word) : (s.setPc t).mem = s.mem := rfl
@[simp] theorem State.setPc_draws (s : State) (t : Word) : (s.setPc t).draws = s.draws := rfl
@[simp] theorem State.setPc_env (s : State) (t : Word) : (s.setPc t).env = s.env := rfl
@[simp] theorem State.setPc_gaps (s : State) (t : Word) : (s.setPc t).gaps = s.gaps := rfl
@[simp] theorem State.setPc_intAck (s : State) (t : Word) : (s.setPc t).intAck = s.intAck := rfl
@[simp] theorem State.setPc_busGrant (s : State) (t : Word) : (s.setPc t).busGrant = s.busGrant := rfl

/-! ### `drawn` -/

@[simp] theorem State.drawn_gpr (s : State) (k : Nat) : (s.drawn k).gpr = s.gpr := rfl
@[simp] theorem State.drawn_rl (s : State) (k : Nat) : (s.drawn k).rl = s.rl := rfl
@[simp] theorem State.drawn_ssp (s : State) (k : Nat) : (s.drawn k).ssp = s.ssp := rfl
@[simp] theorem State.drawn_usp (s : State) (k : Nat) : (s.drawn k).usp = s.usp := rfl
@[simp] theorem State.drawn_re (s : State) (k : Nat) : (s.drawn k).re = s.re := rfl
@[simp] theorem State.drawn_bte (s : State) (k : Nat) : (s.drawn k).bte = s.bte := rfl
@[simp] theorem State.drawn_temp (s : State) (k : Nat) : (s.drawn k).temp = s.temp := rfl
@[simp] theorem State.drawn_aux (s : State) (k : Nat) : (s.drawn k).aux = s.aux := rfl
@[simp] theorem State.drawn_rer (s : State) (k : Nat) : (s.drawn k).rer = s.rer := rfl
@[simp] theorem State.drawn_pc (s : State) (k : Nat) : (s.drawn k).pc = s.pc := rfl
@[simp] theorem State.drawn_pend (s : State) (k : Nat) : (s.drawn k).pend = s.pend := rfl
@[simp] theorem State.drawn_mem (s : State) (k : Nat) : (s.drawn k).mem = s.mem := rfl
@[simp] theorem State.drawn_draws (s : State) (k : Nat) : (s.drawn k).draws = s.draws + k := rfl
@[simp] theorem State.drawn_env (s : State) (k : Nat) : (s.drawn k).env = s.env := rfl
@[simp] theorem State.drawn_gaps (s : State) (k : Nat) : (s.drawn k).gaps = s.gaps := rfl
@[simp] theorem State.drawn_intAck (s : State) (k : Nat) : (s.drawn k).intAck = s.intAck := rfl
@[simp] theorem State.drawn_busGrant (s : State) (k : Nat) : (s.drawn k).busGrant = s.busGrant := rfl

/-! ### `setByte` -/

@[simp] theorem State.setByte_gpr (s : State) (a : Word) (v : Byte) : (s.setByte a v).gpr = s.gpr := rfl
@[simp] theorem State.setByte_rl (s : State) (a : Word) (v : Byte) : (s.setByte a v).rl = s.rl := rfl
@[simp] theorem State.setByte_ssp (s : State) (a : Word) (v : Byte) : (s.setByte a v).ssp = s.ssp := rfl
@[simp] theorem State.setByte_usp (s : State) (a : Word) (v : Byte) : (s.setByte a v).usp = s.usp := rfl
@[simp] theorem State.setByte_re (s : State) (a : Word) (v : Byte) : (s.setByte a v).re = s.re := rfl
@[simp] theorem State.setByte_bte (s : State) (a : Word) (v : Byte) : (s.setByte a v).bte = s.bte := rfl
@[simp] theorem State.setByte_temp (s : State) (a : Word) (v : Byte) : (s.setByte a v).temp = s.temp := rfl
@[simp] theorem State.setByte_aux (s : State) (a : Word) (v : Byte) : (s.setByte a v).aux = s.aux := rfl
@[simp] theorem State.setByte_rer (s : State) (a : Word) (v : Byte) : (s.setByte a v).rer = s.rer := rfl
@[simp] theorem State.setByte_pc (s : State) (a : Word) (v : Byte) : (s.setByte a v).pc = s.pc := rfl
@[simp] theorem State.setByte_pend (s : State) (a : Word) (v : Byte) : (s.setByte a v).pend = s.pend := rfl
@[simp] theorem State.setByte_mem (s : State) (a : Word) (v : Byte) : (s.setByte a v).mem = s.mem.write a.toNat v := rfl
@[simp] theorem State.setByte_draws (s : State) (a : Word) (v : Byte) : (s.setByte a v).draws = s.draws := rfl
@[simp] theorem State.setByte_env (s : State) (a : Word) (v : Byte) : (s.setByte a v).env = s.env := rfl
@[simp] theorem State.setByte_gaps (s : State) (a : Word) (v : Byte) : (s.setByte a v).gaps = s.gaps := rfl
@[simp] theorem State.setByte_intAck (s : State) (a : Word) (v : Byte) : (s.setByte a v).intAck = s.intAck := rfl
@[simp] theorem State.setByte_busGrant (s : State) (a : Word) (v : Byte) : (s.setByte a v).busGrant = s.busGrant := rfl

/-! ### `setWord` -/

@[simp] theorem State.setWord_gpr (s : State) (a v : Word) : (s.setWord a v).gpr = s.gpr := rfl
@[simp] theorem State.setWord_rl (s : State) (a v : Word) : (s.setWord a v).rl = s.rl := rfl
@[simp] theorem State.setWord_ssp (s : State) (a v : Word) : (s.setWord a v).ssp = s.ssp := rfl
@[simp] theorem State.setWord_usp (s : State) (a v : Word) : (s.setWord a v).usp = s.usp := rfl
@[simp] theorem State.setWord_re (s : State) (a v : Word) : (s.setWord a v).re = s.re := rfl
@[simp] theorem State.setWord_bte (s : State) (a v : Word) : (s.setWord a v).bte = s.bte := rfl
@[simp] theorem State.setWord_temp (s : State) (a v : Word) : (s.setWord a v).temp = s.temp := rfl
@[simp] theorem State.setWord_aux (s : State) (a v : Word) : (s.setWord a v).aux = s.aux := rfl
@[simp] theorem State.setWord_rer (s : State) (a v : Word) : (s.setWord a v).rer = s.rer := rfl
@[simp] theorem State.setWord_pc (s : State) (a v : Word) : (s.setWord a v).pc = s.pc := rfl
@[simp] theorem State.setWord_pend (s : State) (a v : Word) : (s.setWord a v).pend = s.pend := rfl
@[simp] theorem State.setWord_mem (s : State) (a v : Word) : (s.setWord a v).mem = (s.mem.write a.toNat (v.extractLsb' 8 8)).write (a + 1).toNat (v.extractLsb' 0 8) := rfl
@[simp] theorem State.setWord_draws (s : State) (a v : Word) : (s.setWord a v).draws = s.draws := rfl
@[simp] theorem State.setWord_env (s : State) (a v : Word) : (s.setWord a v).env = s.env := rfl
@[simp] theorem State.setWord_gaps (s : State) (a v : Word) : (s.setWord a v).gaps = s.gaps := rfl
@[simp] theorem State.setWord_intAck (s : State) (a v : Word) : (s.setWord a v).intAck = s.intAck := rfl
@[simp] theorem State.setWord_busGrant (s : State) (a v : Word) : (s.setWord a v).busGrant = s.busGrant := rfl

/-! ### `advance` -/

@[simp] theorem State.advance_gpr (s : State) : (s.advance).gpr = s.gpr := rfl
@[simp] theorem State.advance_rl (s : State) : (s.advance).rl = s.rl := rfl
@[simp] theorem State.advance_ssp (s : State) : (s.advance).ssp = s.ssp := rfl
@[simp] theorem State.advance_usp (s : State) : (s.advance).usp = s.usp := rfl
@[simp] theorem State.advance_re (s : State) : (s.advance).re = s.re := rfl
@[simp] theorem State.advance_bte (s : State) : (s.advance).bte = s.bte := rfl
@[simp] theorem State.advance_temp (s : State) : (s.advance).temp = s.temp := rfl
@[simp] theorem State.advance_aux (s : State) : (s.advance).aux = s.aux := rfl
@[simp] theorem State.advance_rer (s : State) : (s.advance).rer = s.rer := rfl
@[simp] theorem State.advance_pc (s : State) : (s.advance).pc = s.eis := rfl
@[simp] theorem State.advance_pend (s : State) : (s.advance).pend = s.pend := rfl
@[simp] theorem State.advance_mem (s : State) : (s.advance).mem = s.mem := rfl
@[simp] theorem State.advance_draws (s : State) : (s.advance).draws = s.draws := rfl
@[simp] theorem State.advance_env (s : State) : (s.advance).env = s.env := rfl
@[simp] theorem State.advance_gaps (s : State) : (s.advance).gaps = s.gaps := rfl
@[simp] theorem State.advance_intAck (s : State) : (s.advance).intAck = s.intAck := rfl
@[simp] theorem State.advance_busGrant (s : State) : (s.advance).busGrant = s.busGrant := rfl

/-! ### `setCell`: the fields that are no register cell -/

@[simp] theorem State.setCell_pc (s : State) (p : Phys) (v : Word) : (s.setCell p v).pc = s.pc := by cases p <;> rfl
@[simp] theorem State.setCell_pend (s : State) (p : Phys) (v : Word) : (s.setCell p v).pend = s.pend := by cases p <;> rfl
@[simp] theorem State.setCell_mem (s : State) (p : Phys) (v : Word) : (s.setCell p v).mem = s.mem := by cases p <;> rfl
@[simp] theorem State.setCell_draws (s : State) (p : Phys) (v : Word) : (s.setCell p v).draws = s.draws := by cases p <;> rfl
@[simp] theorem State.setCell_env (s : State) (p : Phys) (v : Word) : (s.setCell p v).env = s.env := by cases p <;> rfl
@[simp] theorem State.setCell_gaps (s : State) (p : Phys) (v : Word) : (s.setCell p v).gaps = s.gaps := by cases p <;> rfl
@[simp] theorem State.setCell_intAck (s : State) (p : Phys) (v : Word) : (s.setCell p v).intAck = s.intAck := by cases p <;> rfl
@[simp] theorem State.setCell_busGrant (s : State) (p : Phys) (v : Word) : (s.setCell p v).busGrant = s.busGrant := by cases p <;> rfl

end Sys2Proof.Machine
end

