-- ==== Sys2Proof/Laws/Memory.lean ====
section
/-!
SUPPORT. What the memory operations do (20_memory.md R62, R63, R66, R68): reading after a write, and the canonical form,
which every write keeps and which makes memories that read alike equal.
-/
namespace Sys2Proof.Machine

/-! ### The canonical form -/

theorem Memory.wfFrom_mono {lo hi : Nat} {m : Memory} (h : Memory.wfFrom hi m = true) (hle : lo ≤ hi) :
    Memory.wfFrom lo m = true := by
  cases m with
  | nil => rfl
  | cons c m =>
    simp only [Memory.wfFrom, Bool.and_eq_true, decide_eq_true_eq] at h ⊢
    exact ⟨⟨⟨by omega, h.1.1.2⟩, h.1.2⟩, h.2⟩

/-- Below the bound nothing is listed. -/
theorem Memory.read_of_lt {lo a : Nat} {m : Memory} (h : Memory.wfFrom lo m = true) (ha : a < lo) :
    m.read a = Params.unlistedByte := by
  induction m generalizing lo with
  | nil => rfl
  | cons c m ih =>
    simp only [Memory.wfFrom, Bool.and_eq_true, decide_eq_true_eq] at h
    have : a ≠ c.1 := by omega
    simp only [Memory.read, this, if_false]
    exact ih h.2 (by omega)

theorem Memory.put_wfFrom {lo a : Nat} {v : Byte} {m : Memory} (h : Memory.wfFrom (a + 1) m = true) (hlo : lo ≤ a)
    (ha : a < 65536) : Memory.wfFrom lo (Memory.put a v m) = true := by
  unfold Memory.put
  split
  · exact Memory.wfFrom_mono h (by omega)
  · simp_all [Memory.wfFrom]

/-- A write keeps the canonical form. -/
theorem Memory.write_wfFrom {lo a : Nat} {v : Byte} {m : Memory} (h : Memory.wfFrom lo m = true) (hlo : lo ≤ a)
    (ha : a < 65536) : Memory.wfFrom lo (m.write a v) = true := by
  induction m generalizing lo with
  | nil => exact Memory.put_wfFrom rfl hlo ha
  | cons c m ih =>
    have hc := h
    simp only [Memory.wfFrom, Bool.and_eq_true, decide_eq_true_eq] at h
    unfold Memory.write
    split
    · refine Memory.put_wfFrom ?_ hlo ha
      simp only [Memory.wfFrom, Bool.and_eq_true, decide_eq_true_eq]
      exact ⟨⟨⟨by omega, h.1.1.2⟩, h.1.2⟩, h.2⟩
    · split
      · rename_i hlt heq
        exact Memory.put_wfFrom (heq ▸ h.2) hlo ha
      · simp only [Memory.wfFrom, Bool.and_eq_true, decide_eq_true_eq]
        exact ⟨⟨⟨h.1.1.1, h.1.1.2⟩, h.1.2⟩, ih h.2 (by omega)⟩

theorem Memory.write_wf {a : Nat} {v : Byte} {m : Memory} (h : m.wf = true) (ha : a < 65536) :
    (m.write a v).wf = true := Memory.write_wfFrom h (Nat.zero_le a) ha

/-! ### Reading after a write -/

theorem Memory.read_put (a : Nat) (v : Byte) (m : Memory) (h : m.read a = Params.unlistedByte) (b : Nat) :
    (Memory.put a v m).read b = if b = a then v else m.read b := by
  unfold Memory.put
  split
  · rename_i hv
    split
    · rename_i hb; rw [hb, h, hv]
    · rfl
  · rfl

/-- Reading a byte after a write, from any memory in the canonical form. -/
theorem Memory.read_write {lo : Nat} {m : Memory} (h : Memory.wfFrom lo m = true) (a : Nat) (v : Byte) (b : Nat) :
    (m.write a v).read b = if b = a then v else m.read b := by
  induction m generalizing lo with
  | nil => exact Memory.read_put a v [] rfl b
  | cons c m ih =>
    have hc := h
    simp only [Memory.wfFrom, Bool.and_eq_true, decide_eq_true_eq] at h
    unfold Memory.write
    split
    · rename_i hlt
      apply Memory.read_put
      have hw : Memory.wfFrom c.1 (c :: m) = true := by
        simp only [Memory.wfFrom, Bool.and_eq_true, decide_eq_true_eq]
        exact ⟨⟨⟨le_refl _, h.1.1.2⟩, h.1.2⟩, h.2⟩
      exact Memory.read_of_lt hw hlt
    · split
      · rename_i hlt heq
        rw [Memory.read_put a v m (Memory.read_of_lt h.2 (by omega))]
        simp only [Memory.read, ← heq]
        split <;> rfl
      · rename_i hlt hne
        simp only [Memory.read]
        split
        · rename_i hb
          have : b ≠ a := by omega
          simp [this]
        · exact ih h.2

/-- Two memories in the canonical form that read alike are equal. -/
theorem Memory.eq_of_read_eq {lo : Nat} {m m' : Memory} (h : Memory.wfFrom lo m = true) (h' : Memory.wfFrom lo m' = true)
    (hr : ∀ a, m.read a = m'.read a) : m = m' := by
  induction m generalizing lo m' with
  | nil =>
    cases m' with
    | nil => rfl
    | cons c' m' =>
      simp only [Memory.wfFrom, Bool.and_eq_true, decide_eq_true_eq] at h'
      have := hr c'.1
      simp only [Memory.read, if_true] at this
      exact absurd this.symm h'.1.2
  | cons c m ih =>
    have hm := h
    simp only [Memory.wfFrom, Bool.and_eq_true, decide_eq_true_eq] at h
    cases m' with
    | nil =>
      have := hr c.1
      simp only [Memory.read, if_true] at this
      exact absurd this h.1.2
    | cons c' m' =>
      have hm' := h'
      simp only [Memory.wfFrom, Bool.and_eq_true, decide_eq_true_eq] at h'
      have key : c.1 = c'.1 := by
        rcases Nat.lt_trichotomy c.1 c'.1 with hlt | heq | hgt
        · have := hr c.1
          have hne : c.1 ≠ c'.1 := by omega
          simp only [Memory.read, if_true, hne, if_false] at this
          rw [Memory.read_of_lt h'.2 (by omega)] at this
          exact absurd this h.1.2
        · exact heq
        · have := hr c'.1
          have hne : c'.1 ≠ c.1 := by omega
          simp only [Memory.read, if_true, hne, if_false] at this
          rw [Memory.read_of_lt h.2 (by omega)] at this
          exact absurd this.symm h'.1.2
      have hv : c.2 = c'.2 := by
        have := hr c.1
        simpa [Memory.read, key] using this
      have hrest : m = m' := by
        refine ih h.2 (key ▸ h'.2) fun a => ?_
        have := hr a
        simp only [Memory.read, key] at this
        by_cases ha : a = c'.1
        · rw [Memory.read_of_lt h.2 (by omega), Memory.read_of_lt h'.2 (by omega)]
        · simpa [ha] using this
      rw [hrest, Prod.ext key hv]

/-! ### Bytes and words of a state -/

@[simp] theorem State.byteAt_setCell (s : State) (p : Phys) (v a : Word) : (s.setCell p v).byteAt a = s.byteAt a := by
  simp [State.byteAt]
@[simp] theorem State.byteAt_setPc (s : State) (t a : Word) : (s.setPc t).byteAt a = s.byteAt a := rfl
@[simp] theorem State.byteAt_drawn (s : State) (k : Nat) (a : Word) : (s.drawn k).byteAt a = s.byteAt a := rfl
@[simp] theorem State.byteAt_advance (s : State) (a : Word) : s.advance.byteAt a = s.byteAt a := rfl

/-- A state's memory in the canonical form stays so under a byte write. -/
theorem State.setByte_wf {s : State} (h : s.mem.wf = true) (a : Word) (v : Byte) : (s.setByte a v).mem.wf = true :=
  Memory.write_wf h a.isLt

theorem State.setWord_wf {s : State} (h : s.mem.wf = true) (a v : Word) : (s.setWord a v).mem.wf = true :=
  State.setByte_wf (State.setByte_wf h a _) (a + 1) _

/-- A byte after a byte write (R68). -/
theorem State.byteAt_setByte {s : State} (h : s.mem.wf = true) (a : Word) (v : Byte) (b : Word) :
    (s.setByte a v).byteAt b = if b = a then v else s.byteAt b := by
  simp only [State.byteAt, State.setByte_mem, Memory.read_write h, BitVec.toNat_inj]

/-- A byte after a word write (R62, R63): the upper byte at the address itself, the lower byte above it. -/
theorem State.byteAt_setWord {s : State} (h : s.mem.wf = true) (a v b : Word) :
    (s.setWord a v).byteAt b =
      if b = a then v.extractLsb' 8 8 else if b = a + 1 then v.extractLsb' 0 8 else s.byteAt b := by
  have hne : a ≠ a + 1 := by bv_omega
  rw [State.setWord, State.byteAt_setByte (State.setByte_wf h a _), State.byteAt_setByte h]
  by_cases h1 : b = a
  · simp [h1]
  · simp [h1]

/-- A word is its two bytes, the upper one first (R62). -/
theorem word_of_bytes (v : Word) : (v.extractLsb' 8 8 ++ v.extractLsb' 0 8 : Word) = v := by
  apply BitVec.eq_of_getLsbD_eq
  intro i hi
  rw [BitVec.getLsbD_append]
  simp only [BitVec.getLsbD_extractLsb']
  by_cases h8 : i < 8
  · simp [h8]
  · have : i - 8 < 8 := by omega
    have : 8 + (i - 8) = i := by omega
    simp [*]

/-- A word read where it was stored. -/
theorem State.wordAt_setWord {s : State} (h : s.mem.wf = true) (a v : Word) : (s.setWord a v).wordAt a = v := by
  have hne : a + 1 ≠ a := by bv_omega
  simp only [State.wordAt, State.byteAt_setWord h, if_true, hne, if_false]
  exact word_of_bytes v

/-! ### `load` and `store` (R66) -/

/-- `load` answers the word at an even address, and nothing at an odd one. -/
theorem State.load_eq_some {s : State} {a v : Word} : s.load a = some v ↔ isEven a = true ∧ v = s.wordAt a := by
  unfold State.load
  split
  · rename_i h; simp only [h, true_and, Option.some.injEq]; exact eq_comm
  · rename_i h; simp [h]

/-- `store` writes the word at an even address, and does nothing at an odd one. -/
theorem State.store_eq_some {s t : State} {a v : Word} : s.store a v = some t ↔ isEven a = true ∧ t = s.setWord a v := by
  unfold State.store
  split
  · rename_i h; simp only [h, true_and, Option.some.injEq]; exact eq_comm
  · rename_i h; simp [h]

theorem State.load_even (s : State) {a : Word} (h : isEven a = true) : s.load a = some (s.wordAt a) := by
  simp [State.load, h]

theorem State.store_even (s : State) {a : Word} (v : Word) (h : isEven a = true) : s.store a v = some (s.setWord a v) := by
  simp [State.store, h]

theorem State.load_odd (s : State) {a : Word} (h : isEven a = false) : s.load a = none := by
  simp [State.load, h]

theorem State.store_odd (s : State) {a : Word} (v : Word) (h : isEven a = false) : s.store a v = none := by
  simp [State.store, h]

end Sys2Proof.Machine
end

