-- ==== Sys2Proof/Laws/Regs.lean ====
section
/-!
SUPPORT. What the register operations do (10_state.md R20, R27, R31, R35): reading a cell after a write to one, the bits
of RE after a flag update, and `wr`.
-/
namespace Sys2Proof.Machine

/-! ### Register cells -/

/-- A cell after a write to a cell. -/
theorem State.cell_setCell (s : State) (p q : Phys) (v : Word) :
    (s.setCell p v).cell q = if q = p then v else s.cell q := by
  cases p <;> cases q <;> simp [State.cell, State.setCell, Vector.getElem_set, Fin.ext_iff, eq_comm]

@[simp] theorem State.cell_setCell_same (s : State) (p : Phys) (v : Word) : (s.setCell p v).cell p = v := by
  simp [State.cell_setCell]

theorem State.cell_setCell_ne (s : State) {p q : Phys} (v : Word) (h : q ≠ p) :
    (s.setCell p v).cell q = s.cell q := by
  simp [State.cell_setCell, h]

/-- Two states with the same cells and the same other fields are the same state. -/
theorem State.ext_cells {s t : State} (hc : ∀ p, s.cell p = t.cell p) (hpc : s.pc = t.pc) (hp : s.pend = t.pend)
    (hm : s.mem = t.mem) (hd : s.draws = t.draws) (he : s.env = t.env) (hg : s.gaps = t.gaps)
    (hi : s.intAck = t.intAck) (hb : s.busGrant = t.busGrant) : s = t := by
  have hr : s.gpr = t.gpr := Vector.ext fun i hi => hc (.gpr ⟨i, hi⟩)
  have ha : s.aux = t.aux := Vector.ext fun i hi => hc (.aux ⟨i, hi⟩)
  have h1 := hc .rl
  have h2 := hc .ssp
  have h3 := hc .usp
  have h4 := hc .re
  have h5 := hc .bte
  have h6 := hc .temp
  have h7 := hc .rer
  cases s
  cases t
  simp_all [State.cell]

@[simp] theorem State.cell_setPc (s : State) (t : Word) (p : Phys) : (s.setPc t).cell p = s.cell p := by cases p <;> rfl
@[simp] theorem State.cell_drawn (s : State) (k : Nat) (p : Phys) : (s.drawn k).cell p = s.cell p := by cases p <;> rfl
@[simp] theorem State.cell_setByte (s : State) (a : Word) (v : Byte) (p : Phys) : (s.setByte a v).cell p = s.cell p := by
  cases p <;> rfl
@[simp] theorem State.cell_setWord (s : State) (a v : Word) (p : Phys) : (s.setWord a v).cell p = s.cell p := by
  cases p <;> rfl
@[simp] theorem State.cell_advance (s : State) (p : Phys) : s.advance.cell p = s.cell p := by cases p <;> rfl

/-- RE is one of the cells. -/
theorem State.re_eq_cell (s : State) : s.re = s.cell .re := rfl

theorem State.re_setCell (s : State) (p : Phys) (v : Word) : (s.setCell p v).re = if p = .re then v else s.re := by
  simp [State.re_eq_cell, State.cell_setCell, eq_comm]

@[simp] theorem State.re_setCell_re (s : State) (v : Word) : (s.setCell .re v).re = v := rfl

theorem State.re_setCell_ne (s : State) {p : Phys} (v : Word) (h : p ≠ .re) : (s.setCell p v).re = s.re := by
  simp [State.re_setCell, h]

/-! ### What a register name stands for -/

/-- A register name stands for RE only if it is RE. -/
@[simp] theorem State.phys_eq_re (s : State) (r : Reg) : s.phys r = .re ↔ r = .re := by
  cases r <;> simp [State.phys, Reg.phys]
  split <;> simp

theorem State.phys_ne_re (s : State) {r : Reg} (h : r ≠ .re) : s.phys r ≠ .re := by simpa using h

/-- Different register names stand for different cells. -/
theorem Reg.phys_injective (np : Bool) {a b : Reg} (h : Reg.phys np a = Reg.phys np b) : a = b := by
  cases np <;> cases a <;> cases b <;> simp_all [Reg.phys]

/-- What a name stands for depends on RE alone (R27). -/
theorem State.phys_congr {s t : State} (h : t.re = s.re) (r : Reg) : t.phys r = s.phys r := by
  simp [State.phys, State.flag, h]

theorem State.flag_congr {s t : State} (h : t.re = s.re) (f : ReField) : t.flag f = s.flag f := by
  simp [State.flag, h]

/-! ### Flags -/

@[simp] theorem ReField.index_lt (f : ReField) : f.index < 16 := by cases f <;> decide

theorem ReField.index_injective {f g : ReField} (h : f.index = g.index) : f = g := by
  cases f <;> cases g <;> first | rfl | exact absurd h (by decide)

/-- A bit after `putBit`. -/
theorem getLsbD_putBit (w : Word) (i : Nat) (b : Bool) (j : Nat) (hj : j < 16) :
    (putBit w i b).getLsbD j = if j = i then b else w.getLsbD j := by
  by_cases h : j = i
  · subst h
    cases b <;> simp [putBit, hj]
  · cases b <;> simp only [putBit, h, if_true, if_false, Bool.false_eq_true]
    · simp [hj]
      omega
    · simp [hj]
      omega

theorem getLsbD_putBit? (w : Word) (i : Nat) (b : Option Bool) (j : Nat) (hj : j < 16) :
    (putBit? w i b).getLsbD j = if j = i then b.getD (w.getLsbD j) else w.getLsbD j := by
  cases b with
  | none => simp only [putBit?, Option.getD_none, ite_self]
  | some b => exact getLsbD_putBit w i b j hj

/-- A bit of RE after a flag update (R35): an assigned flag has its value, every other bit is kept. -/
theorem FlagUpd.getLsbD_apply (f : FlagUpd) (re : Word) (j : Nat) (hj : j < 16) :
    (f.apply re).getLsbD j =
      if j = 0 then f.z.getD (re.getLsbD 0)
      else if j = 1 then f.n.getD (re.getLsbD 1)
      else if j = 2 then f.c.getD (re.getLsbD 2)
      else if j = 3 then f.v.getD (re.getLsbD 3)
      else re.getLsbD j := by
  simp only [FlagUpd.apply, ReField.index]
  rw [getLsbD_putBit? _ _ _ _ hj, getLsbD_putBit? _ _ _ _ hj, getLsbD_putBit? _ _ _ _ hj, getLsbD_putBit? _ _ _ _ hj]
  by_cases h0 : j = 0
  · subst h0; simp
  by_cases h1 : j = 1
  · subst h1; simp
  by_cases h2 : j = 2
  · subst h2; simp
  by_cases h3 : j = 3
  · subst h3; simp
  simp [h0, h1, h2, h3]

@[simp] theorem FlagUpd.apply_nothing (re : Word) : FlagUpd.nothing.apply re = re := rfl

/-! ### `wr` (R31) -/

@[simp] theorem State.wr_re (s : State) (v : Word) (f : FlagUpd) : s.wr .re v f = s.setCell .re v := by simp [State.wr]

theorem State.wr_ne (s : State) {d : Reg} (v : Word) (f : FlagUpd) (h : d ≠ .re) :
    s.wr d v f = (s.setCell (s.phys d) v).setCell .re (f.apply s.re) := by
  simp [State.wr, State.setReg, State.setFlags, h, State.re_setCell_ne s v (s.phys_ne_re h)]

@[simp] theorem State.wr_pc (s : State) (d : Reg) (v : Word) (f : FlagUpd) : (s.wr d v f).pc = s.pc := by
  simp only [State.wr, State.setReg, State.setFlags]; split <;> simp
@[simp] theorem State.wr_pend (s : State) (d : Reg) (v : Word) (f : FlagUpd) : (s.wr d v f).pend = s.pend := by
  simp only [State.wr, State.setReg, State.setFlags]; split <;> simp
@[simp] theorem State.wr_mem (s : State) (d : Reg) (v : Word) (f : FlagUpd) : (s.wr d v f).mem = s.mem := by
  simp only [State.wr, State.setReg, State.setFlags]; split <;> simp
@[simp] theorem State.wr_draws (s : State) (d : Reg) (v : Word) (f : FlagUpd) : (s.wr d v f).draws = s.draws := by
  simp only [State.wr, State.setReg, State.setFlags]; split <;> simp
@[simp] theorem State.wr_env (s : State) (d : Reg) (v : Word) (f : FlagUpd) : (s.wr d v f).env = s.env := by
  simp only [State.wr, State.setReg, State.setFlags]; split <;> simp
@[simp] theorem State.wr_gaps (s : State) (d : Reg) (v : Word) (f : FlagUpd) : (s.wr d v f).gaps = s.gaps := by
  simp only [State.wr, State.setReg, State.setFlags]; split <;> simp
@[simp] theorem State.wr_intAck (s : State) (d : Reg) (v : Word) (f : FlagUpd) : (s.wr d v f).intAck = s.intAck := by
  simp only [State.wr, State.setReg, State.setFlags]; split <;> simp
@[simp] theorem State.wr_busGrant (s : State) (d : Reg) (v : Word) (f : FlagUpd) : (s.wr d v f).busGrant = s.busGrant := by
  simp only [State.wr, State.setReg, State.setFlags]; split <;> simp

/-- The cells after `wr`: everything it does to registers and RE. -/
theorem State.cell_wr (s : State) (d : Reg) (v : Word) (f : FlagUpd) (p : Phys) :
    (s.wr d v f).cell p =
      if p = s.phys d then v else if p = .re then (if d = .re then v else f.apply s.re) else s.cell p := by
  by_cases hd : d = .re
  · subst hd
    simp only [State.wr_re, State.cell_setCell]
    have : s.phys .re = .re := by simp
    simp only [this, if_true]
    split <;> simp_all
  · rw [State.wr_ne s v f hd]
    have hp := s.phys_ne_re hd
    simp only [State.cell_setCell, hd, if_false]
    by_cases h : p = s.phys d
    · have : p ≠ .re := h ▸ hp
      simp [h, hp]
    · simp [h]

/-- RE after `wr`: the value itself where RE is the destination, the flag update otherwise. -/
theorem State.re_wr (s : State) (d : Reg) (v : Word) (f : FlagUpd) :
    (s.wr d v f).re = if d = .re then v else f.apply s.re := by
  rw [State.re_eq_cell, State.cell_wr]
  by_cases hd : d = .re
  · subst hd; simp
  · simp [hd, (s.phys_ne_re hd).symm]

/-! ### Stack pointer banking (R27) -/

/-- SP names the user stack pointer at user level and the system one at system level. -/
theorem State.reg_sp (s : State) : s.reg .sp = if s.flag .np then s.usp else s.ssp := by
  simp only [State.reg, State.phys, Reg.phys]
  split <;> rfl

end Sys2Proof.Machine
end

