-- ==== Sys2Proof/Laws/Dma.lean ====
section
/-!
SUPPORT. What the DMA master can do in a gap between two bus cycles (20_memory.md R72, R81, 60_exceptions.md R350): bytes of
memory, the pin BusGrant and its own list, and nothing of the processor.
-/
namespace Sys2Proof.Machine

/-! ### One access -/

@[simp] theorem State.dma_cell (s : State) (x : Config.DmaAccess) (p : Phys) : (s.dma x).cell p = s.cell p := by
  cases x <;> cases p <;> rfl
@[simp] theorem State.dma_pc (s : State) (x : Config.DmaAccess) : (s.dma x).pc = s.pc := by cases x <;> rfl
@[simp] theorem State.dma_pend (s : State) (x : Config.DmaAccess) : (s.dma x).pend = s.pend := by cases x <;> rfl
@[simp] theorem State.dma_draws (s : State) (x : Config.DmaAccess) : (s.dma x).draws = s.draws := by cases x <;> rfl
@[simp] theorem State.dma_env (s : State) (x : Config.DmaAccess) : (s.dma x).env = s.env := by cases x <;> rfl
@[simp] theorem State.dma_gaps (s : State) (x : Config.DmaAccess) : (s.dma x).gaps = s.gaps := by cases x <;> rfl
@[simp] theorem State.dma_intAck (s : State) (x : Config.DmaAccess) : (s.dma x).intAck = s.intAck := by cases x <;> rfl
@[simp] theorem State.dma_busGrant (s : State) (x : Config.DmaAccess) : (s.dma x).busGrant = true := by cases x <;> rfl

theorem State.dma_wf {s : State} (h : s.mem.wf = true) (x : Config.DmaAccess) : (s.dma x).mem.wf = true := by
  cases x with
  | read _ => exact h
  | write a v => exact State.setByte_wf h a v

/-- An access does not depend on the register cells. -/
theorem State.dma_setCell (s : State) (p : Phys) (v : Word) (x : Config.DmaAccess) :
    (s.setCell p v).dma x = (s.dma x).setCell p v := by cases x <;> cases p <;> rfl

theorem State.dma_setPc (s : State) (t : Word) (x : Config.DmaAccess) : (s.setPc t).dma x = (s.dma x).setPc t := by
  cases x <;> rfl

/-! ### A gap -/

/-- Without RE.DE nothing is granted (R81, R350). -/
theorem State.gap_of_de {s : State} (h : s.flag .de = false) : s.gap = s := by simp [State.gap, h]

/-- Without a DMA master nothing happens in a gap. -/
theorem State.gap_of_nil {s : State} (h : s.gaps = []) : s.gap = s := by simp [State.gap, h]

/-- Everything a gap can do: what every access keeps, whatever the list of accesses becomes, the gap keeps. -/
theorem State.gap_induction {P : State → Prop} {s : State} (hdma : ∀ s x, P s → P (s.dma x))
    (h : ∀ gaps, P { s with gaps := gaps }) : P s.gap := by
  have hf : ∀ (l : List Config.DmaAccess) (t : State), P t → P (l.foldl State.dma t) := by
    intro l
    induction l with
    | nil => exact fun _ ht => ht
    | cons x l ih => exact fun t ht => ih _ (hdma t x ht)
  unfold State.gap
  split
  · split
    · exact h s.gaps
    · exact hf _ _ (h _)
  · exact h s.gaps

@[simp] theorem State.gap_cell (s : State) (p : Phys) : s.gap.cell p = s.cell p :=
  State.gap_induction (P := fun t => t.cell p = s.cell p) (fun t x h => by simpa using h) fun _ => by cases p <;> rfl
@[simp] theorem State.gap_re (s : State) : s.gap.re = s.re := s.gap_cell .re
@[simp] theorem State.gap_ssp (s : State) : s.gap.ssp = s.ssp := s.gap_cell .ssp
@[simp] theorem State.gap_bte (s : State) : s.gap.bte = s.bte := s.gap_cell .bte
@[simp] theorem State.gap_pc (s : State) : s.gap.pc = s.pc :=
  State.gap_induction (P := fun t => t.pc = s.pc) (fun t x h => by simpa using h) fun _ => rfl
@[simp] theorem State.gap_pend (s : State) : s.gap.pend = s.pend :=
  State.gap_induction (P := fun t => t.pend = s.pend) (fun t x h => by simpa using h) fun _ => rfl
@[simp] theorem State.gap_draws (s : State) : s.gap.draws = s.draws :=
  State.gap_induction (P := fun t => t.draws = s.draws) (fun t x h => by simpa using h) fun _ => rfl
@[simp] theorem State.gap_env (s : State) : s.gap.env = s.env :=
  State.gap_induction (P := fun t => t.env = s.env) (fun t x h => by simpa using h) fun _ => rfl
@[simp] theorem State.gap_intAck (s : State) : s.gap.intAck = s.intAck :=
  State.gap_induction (P := fun t => t.intAck = s.intAck) (fun t x h => by simpa using h) fun _ => rfl

@[simp] theorem State.gap_flag (s : State) (f : ReField) : s.gap.flag f = s.flag f := State.flag_congr s.gap_re f
@[simp] theorem State.gap_phys (s : State) (r : Reg) : s.gap.phys r = s.phys r := State.phys_congr s.gap_re r
@[simp] theorem State.gap_reg (s : State) (r : Reg) : s.gap.reg r = s.reg r := by simp [State.reg]

/-- A gap keeps the canonical form. -/
theorem State.gap_wf {s : State} (h : s.mem.wf = true) : s.gap.mem.wf = true :=
  State.gap_induction (P := fun t => t.mem.wf = true) (fun _ x h => State.dma_wf h x) fun _ => h

/-- What happens in a gap does not depend on a register cell other than RE. -/
theorem State.gap_setCell (s : State) {p : Phys} (v : Word) (h : p ≠ .re) : (s.setCell p v).gap = s.gap.setCell p v := by
  have hf : ∀ (l : List Config.DmaAccess) (t : State), l.foldl State.dma (t.setCell p v) = (l.foldl State.dma t).setCell p v := by
    intro l
    induction l with
    | nil => exact fun _ => rfl
    | cons x l ih => intro t; rw [List.foldl_cons, State.dma_setCell, ih]; rfl
  have hd : (s.setCell p v).flag .de = s.flag .de := State.flag_congr (State.re_setCell_ne s v h) _
  have hg : ∀ g, { s.setCell p v with gaps := g } = State.setCell { s with gaps := g } p v := fun g => by cases p <;> rfl
  simp only [State.gap, hd, State.setCell_gaps]
  split
  · split
    · rfl
    · rw [hg, hf]
  · rfl

/-- What happens in a gap does not depend on pc. -/
theorem State.gap_setPc (s : State) (t : Word) : (s.setPc t).gap = s.gap.setPc t := by
  have hf : ∀ (l : List Config.DmaAccess) (u : State), l.foldl State.dma (u.setPc t) = (l.foldl State.dma u).setPc t := by
    intro l
    induction l with
    | nil => exact fun _ => rfl
    | cons x l ih => intro u; rw [List.foldl_cons, State.dma_setPc, ih]; rfl
  have hg : ∀ g, { s.setPc t with gaps := g } = State.setPc { s with gaps := g } t := fun _ => rfl
  simp only [State.gap, show (s.setPc t).flag .de = s.flag .de from rfl, State.setPc_gaps]
  split
  · split
    · rfl
    · rw [hg, hf]
  · rfl

end Sys2Proof.Machine
end

