-- ==== Sys2Proof/Laws/Encoding.lean ====
section
/-!
SUPPORT. The fields of an instruction word (30_encoding.md R91, R92): what each format's word holds in each field, and the
register numbers (R94).
-/
namespace Sys2Proof

/-- A register's number names that register (R94). -/
@[simp] theorem Reg.ofField_field (r : Reg) : Reg.ofField r.field = r := by
  cases r with
  | r i => revert i; decide
  | _ => rfl

/-- Each number is the number of the register it names (R94). -/
@[simp] theorem Reg.field_ofField (b : BitVec 4) : (Reg.ofField b).field = b := by revert b; decide

/-- A 4-bit constant in range is its field, sign-extended (R95). -/
theorem toInt_ofInt_4 {k : Int} (h : -8 ≤ k ∧ k ≤ 7) : (BitVec.ofInt 4 k).toInt = k := by
  rw [BitVec.toInt_ofInt, Int.bmod_def]; omega

/-- An 8-bit constant in range is its field, sign-extended (R95). -/
theorem toInt_ofInt_8 {k : Int} (h : -128 ≤ k ∧ k ≤ 127) : (BitVec.ofInt 8 k).toInt = k := by
  rw [BitVec.toInt_ofInt, Int.bmod_def]; omega

/-- A 12-bit displacement in range is its field, sign-extended (R97). -/
theorem toInt_ofInt_12 {k : Int} (h : -2048 ≤ k ∧ k ≤ 2047) : (BitVec.ofInt 12 k).toInt = k := by
  rw [BitVec.toInt_ofInt, Int.bmod_def]; omega

/-- An even offset in range is twice its field, sign-extended (R96). -/
theorem toInt_ofInt_half {k : Int} (h : -16 ≤ k ∧ k ≤ 14) (h2 : k % 2 = 0) : (BitVec.ofInt 4 (k / 2)).toInt * 2 = k := by
  rw [toInt_ofInt_4 (by omega)]; omega

/-! ### The fields of each format -/

/-- At the positions of D2 a word is its fields side by side (R91). -/
theorem fields_append (p q a b : BitVec 4) : fields p q a b = p ++ q ++ a ++ b := by
  apply BitVec.eq_of_getLsbD_eq
  intro i hi
  simp only [fields, fieldAt, Opmap.opcode1At, Opmap.opcode2At, Opmap.operand1At, Opmap.operand2At, BitVec.getLsbD_or,
    BitVec.getLsbD_shiftLeft, BitVec.getLsbD_setWidth, BitVec.getLsbD_append]
  interval_cases i <;> simp

/-- A constant of 8 bits is its two fields joined (R92). -/
theorem join8 (k : BitVec 8) : (k.extractLsb' 4 4 ++ k.extractLsb' 0 4 : BitVec 8) = k := by
  apply BitVec.eq_of_getLsbD_eq
  intro i hi
  simp only [BitVec.getLsbD_append, BitVec.getLsbD_extractLsb']
  interval_cases i <;> simp

/-- A constant of 12 bits is its three fields joined (R92). -/
theorem join12 (d : BitVec 12) : (d.extractLsb' 8 4 ++ d.extractLsb' 4 4 ++ d.extractLsb' 0 4 : BitVec 12) = d := by
  apply BitVec.eq_of_getLsbD_eq
  intro i hi
  simp only [BitVec.getLsbD_append, BitVec.getLsbD_extractLsb']
  interval_cases i <;> simp

@[simp] theorem fields_op1 (p q a b : BitVec 4) : opcode1 (fields p q a b) = p := by
  apply BitVec.eq_of_getLsbD_eq
  intro i hi
  simp only [opcode1, Opmap.opcode1At, fields_append, BitVec.getLsbD_extractLsb', BitVec.getLsbD_append]
  interval_cases i <;> simp

@[simp] theorem fields_op2 (p q a b : BitVec 4) : opcode2 (fields p q a b) = q := by
  apply BitVec.eq_of_getLsbD_eq
  intro i hi
  simp only [opcode2, Opmap.opcode2At, fields_append, BitVec.getLsbD_extractLsb', BitVec.getLsbD_append]
  interval_cases i <;> simp

@[simp] theorem fields_a (p q a b : BitVec 4) : operand1 (fields p q a b) = a := by
  apply BitVec.eq_of_getLsbD_eq
  intro i hi
  simp only [operand1, Opmap.operand1At, fields_append, BitVec.getLsbD_extractLsb', BitVec.getLsbD_append]
  interval_cases i <;> simp

@[simp] theorem fields_b (p q a b : BitVec 4) : operand2 (fields p q a b) = b := by
  apply BitVec.eq_of_getLsbD_eq
  intro i hi
  simp only [operand2, Opmap.operand2At, fields_append, BitVec.getLsbD_extractLsb', BitVec.getLsbD_append]
  interval_cases i <;> simp

@[simp] theorem fields8_op1 (p q : BitVec 4) (k : BitVec 8) : opcode1 (fields8 p q k) = p := fields_op1 ..
@[simp] theorem fields8_op2 (p q : BitVec 4) (k : BitVec 8) : opcode2 (fields8 p q k) = q := fields_op2 ..
@[simp] theorem fields8_k (p q : BitVec 4) (k : BitVec 8) : constant8 (fields8 p q k) = k := by
  simp only [constant8, fields8, fields_a, fields_b, join8]
@[simp] theorem fields12_op1 (p : BitVec 4) (d : BitVec 12) : opcode1 (fields12 p d) = p := fields_op1 ..
@[simp] theorem fields12_dif (p : BitVec 4) (d : BitVec 12) : constant12 (fields12 p d) = d := by
  simp only [constant12, fields12, fields_op2, fields_a, fields_b, join12]

/-- A word is its four fields (R91). -/
theorem fields_extract (w : Word) : fields (opcode1 w) (opcode2 w) (operand1 w) (operand2 w) = w := by
  apply BitVec.eq_of_getLsbD_eq
  intro i hi
  simp only [fields_append, opcode1, opcode2, operand1, operand2, Opmap.opcode1At, Opmap.opcode2At, Opmap.operand1At,
    Opmap.operand2At, BitVec.getLsbD_append, BitVec.getLsbD_extractLsb']
  interval_cases i <;> simp

/-- A constant of 8 bits stands in the two operand fields (R92). -/
theorem fields8_eq (p q a b : BitVec 4) : fields8 p q (a ++ b) = fields p q a b := by
  rw [fields8]
  congr 1
  · apply BitVec.eq_of_getLsbD_eq
    intro i hi
    simp only [BitVec.getLsbD_append, BitVec.getLsbD_extractLsb']
    interval_cases i <;> simp
  · apply BitVec.eq_of_getLsbD_eq
    intro i hi
    simp only [BitVec.getLsbD_append, BitVec.getLsbD_extractLsb']
    interval_cases i <;> simp

/-- The fields of a word with its constant of 8 bits (R92). -/
theorem fields8_extract (w : Word) : fields8 (opcode1 w) (opcode2 w) (constant8 w) = w := by
  rw [constant8, fields8_eq, fields_extract]

/-- The fields of a word with its displacement of 12 bits (R92). -/
theorem fields12_extract (w : Word) : fields12 (opcode1 w) (constant12 w) = w := by
  apply BitVec.eq_of_getLsbD_eq
  intro i hi
  simp only [fields12, constant12, fields_append, opcode1, opcode2, operand1, operand2, Opmap.opcode1At, Opmap.opcode2At,
    Opmap.operand1At, Opmap.operand2At, BitVec.getLsbD_append, BitVec.getLsbD_extractLsb']
  interval_cases i <;> simp

end Sys2Proof
end

