-- ==== Sys2Proof/Laws/Frames.lean ====
section
/-!
SUPPORT. What the shared endings write and keep, in the terms of Sys2Proof/Safety.lean: `wr` (R31), flag updates (R35),
the misaligned and the completing case of a word access (R66), the overflow trap (R144), conditional jumps (R251).
-/
namespace Sys2Proof.Machine

/-- The assignments of a flag update, as a list. -/
def FlagUpd.list (f : FlagUpd) : List (ReField × Bool) :=
  (f.z.map fun b => (ReField.z, b)).toList ++ (f.n.map fun b => (ReField.n, b)).toList ++
    (f.c.map fun b => (ReField.c, b)).toList ++ (f.v.map fun b => (ReField.v, b)).toList

theorem FlagUpd.list_nothing : FlagUpd.nothing.list = [] := rfl
theorem FlagUpd.list_flagsZN (r : Word) : (flagsZN r).list = [(.z, r == 0), (.n, r.msb)] := rfl
theorem FlagUpd.list_flagsZNC (r : Word) (c : Bool) : (flagsZNC r c).list = [(.z, r == 0), (.n, r.msb), (.c, c)] := rfl
theorem FlagUpd.list_flagsZNCV (r : Word) (c v : Bool) :
    (flagsZNCV r c v).list = [(.z, r == 0), (.n, r.msb), (.c, c), (.v, v)] := rfl

/-- A flag update assigns what it lists. -/
theorem FlagUpd.apply_listed (f : FlagUpd) (re : Word) : ∀ p ∈ f.list, (f.apply re).getLsbD p.1.index = p.2 := by
  obtain ⟨z, n, c, v⟩ := f
  intro p hp
  cases z <;> cases n <;> cases c <;> cases v <;> simp [FlagUpd.list] at hp <;>
    (try rcases hp with rfl | rfl | rfl | rfl) <;>
    simp only [ReField.index, FlagUpd.getLsbD_apply _ _ _ (show (0 : Nat) < 16 by decide),
      FlagUpd.getLsbD_apply _ _ _ (show (1 : Nat) < 16 by decide), FlagUpd.getLsbD_apply _ _ _ (show (2 : Nat) < 16 by decide),
      FlagUpd.getLsbD_apply _ _ _ (show (3 : Nat) < 16 by decide)] <;> rfl

/-- A flag update keeps what it does not list. -/
theorem FlagUpd.apply_unlisted (f : FlagUpd) (re : Word) (j : Nat) (hj : j < 16)
    (h : j ∉ f.list.map fun p => p.1.index) : (f.apply re).getLsbD j = re.getLsbD j := by
  obtain ⟨z, n, c, v⟩ := f
  rw [FlagUpd.getLsbD_apply _ _ _ hj]
  cases z <;> cases n <;> cases c <;> cases v <;> simp [FlagUpd.list, ReField.index] at h ⊢ <;>
    (repeat' split) <;> simp_all

/-! ### `Keeps`, built up write by write -/

theorem Keeps.refl (s : State) (cells : List Phys) (bits : List Nat) (bytes : List Word) : Keeps s s cells bits bytes :=
  ⟨fun _ _ _ => rfl, fun _ _ _ => rfl, fun _ _ => rfl, rfl, rfl, rfl, rfl, rfl⟩

/-- What is kept stays kept in a state that reads alike. -/
theorem Keeps.congr {s t u : State} {cells : List Phys} {bits : List Nat} {bytes : List Word}
    (h : Keeps s t cells bits bytes) (hc : ∀ p, u.cell p = t.cell p) (hm : ∀ a, u.byteAt a = t.byteAt a)
    (hp : u.pend = t.pend) (he : u.env = t.env) (hg : u.gaps = t.gaps) (hi : u.intAck = t.intAck) (hb : u.busGrant = t.busGrant) :
    Keeps s u cells bits bytes where
  cells p h1 h2 := (hc p).trans (h.cells p h1 h2)
  bits i h1 h2 := by
    rw [State.re_eq_cell u, hc, ← State.re_eq_cell]; exact h.bits i h1 h2
  bytes a ha := (hm a).trans (h.bytes a ha)
  pend := hp.trans h.pend
  env := he.trans h.env
  gaps := hg.trans h.gaps
  intAck := hi.trans h.intAck
  busGrant := hb.trans h.busGrant

theorem Keeps.setPc {s t : State} {cells bits bytes} (h : Keeps s t cells bits bytes) (x : Word) :
    Keeps s (t.setPc x) cells bits bytes := h.congr (by simp) (fun _ => rfl) rfl rfl rfl rfl rfl

theorem Keeps.advance {s t : State} {cells bits bytes} (h : Keeps s t cells bits bytes) :
    Keeps s t.advance cells bits bytes := h.setPc _

theorem Keeps.drawn {s t : State} {cells bits bytes} (h : Keeps s t cells bits bytes) (k : Nat) :
    Keeps s (t.drawn k) cells bits bytes := h.congr (by simp) (fun _ => rfl) rfl rfl rfl rfl rfl

/-- A write to a listed cell other than RE. -/
theorem Keeps.setCell {s t : State} {cells bits bytes} (h : Keeps s t cells bits bytes) {p : Phys} (v : Word)
    (hp : p ∈ cells) (hre : p ≠ .re) : Keeps s (t.setCell p v) cells bits bytes where
  cells q h1 h2 := by
    rw [State.cell_setCell_ne t v (fun e : q = p => h1 (e ▸ hp))]; exact h.cells q h1 h2
  bits i h1 h2 := by rw [State.re_setCell_ne t v hre]; exact h.bits i h1 h2
  bytes a ha := by rw [State.byteAt_setCell]; exact h.bytes a ha
  pend := by rw [State.setCell_pend]; exact h.pend
  env := by rw [State.setCell_env]; exact h.env
  gaps := by rw [State.setCell_gaps]; exact h.gaps
  intAck := by rw [State.setCell_intAck]; exact h.intAck
  busGrant := by rw [State.setCell_busGrant]; exact h.busGrant

/-- A write to RE that leaves the bits not listed alone. -/
theorem Keeps.setRe {s t : State} {cells bits bytes} (h : Keeps s t cells bits bytes) (v : Word)
    (hv : ∀ i, i < 16 → i ∉ bits → v.getLsbD i = t.re.getLsbD i) : Keeps s (t.setCell .re v) cells bits bytes where
  cells q h1 h2 := by rw [State.cell_setCell_ne t v h2]; exact h.cells q h1 h2
  bits i h1 h2 := by rw [State.re_setCell_re, hv i h1 h2]; exact h.bits i h1 h2
  bytes a ha := by rw [State.byteAt_setCell]; exact h.bytes a ha
  pend := h.pend
  env := h.env
  gaps := h.gaps
  intAck := h.intAck
  busGrant := h.busGrant

/-- A write to RE where all its bits are listed. -/
theorem Keeps.setRe_all {s t : State} {cells bytes} (h : Keeps s t cells allBits bytes) (v : Word) :
    Keeps s (t.setCell .re v) cells allBits bytes :=
  h.setRe v fun i hi hn => absurd (by simpa [allBits] using hi) hn

/-- A write to a cell, RE or not, where all bits of RE are listed. -/
theorem Keeps.setCell_all {s t : State} {cells bytes} (h : Keeps s t cells allBits bytes) {p : Phys} (v : Word)
    (hp : p = .re ∨ p ∈ cells) : Keeps s (t.setCell p v) cells allBits bytes := by
  by_cases hre : p = .re
  · subst hre; exact h.setRe_all v
  · exact h.setCell v (hp.resolve_left hre) hre

theorem Keeps.setFlags {s t : State} {cells bits bytes} (h : Keeps s t cells bits bytes) (f : FlagUpd)
    (hf : ∀ j ∈ f.list.map (fun p => p.1.index), j ∈ bits) : Keeps s (t.setFlags f) cells bits bytes :=
  h.setRe _ fun i hi hn => f.apply_unlisted _ i hi fun hj => hn (hf i hj)

/-- A byte written at a listed address. -/
theorem Keeps.setByte {s t : State} {cells bits bytes} (h : Keeps s t cells bits bytes) (hw : t.mem.wf = true) {a : Word}
    (v : Byte) (ha : a ∈ bytes) : Keeps s (t.setByte a v) cells bits bytes where
  cells q h1 h2 := by rw [State.cell_setByte]; exact h.cells q h1 h2
  bits := h.bits
  bytes b hb := by
    rw [State.byteAt_setByte hw, if_neg (fun e : b = a => hb (e ▸ ha))]; exact h.bytes b hb
  pend := h.pend
  env := h.env
  gaps := h.gaps
  intAck := h.intAck
  busGrant := h.busGrant

/-- A word written at two listed addresses. -/
theorem Keeps.setWord {s t : State} {cells bits bytes} (h : Keeps s t cells bits bytes) (hw : t.mem.wf = true) {a : Word}
    (v : Word) (ha : a ∈ bytes) (hb : a + 1 ∈ bytes) : Keeps s (t.setWord a v) cells bits bytes :=
  (h.setByte hw _ ha).setByte (State.setByte_wf hw _ _) _ hb

/-- Fewer things kept is a weaker claim. -/
theorem Keeps.mono {s t : State} {cells cells' bits bits' bytes bytes'} (h : Keeps s t cells bits bytes)
    (hc : ∀ p ∈ cells, p ∈ cells') (hb : ∀ i ∈ bits, i ∈ bits') (hm : ∀ a ∈ bytes, a ∈ bytes') :
    Keeps s t cells' bits' bytes' :=
  ⟨fun p h1 h2 => h.cells p (fun e => h1 (hc p e)) h2, fun i h1 h2 => h.bits i h1 fun e => h2 (hb i e),
    fun a ha => h.bytes a fun e => ha (hm a e), h.pend, h.env, h.gaps, h.intAck, h.busGrant⟩

theorem Keeps.trans {s t u : State} {cells bits bytes} (h : Keeps s t cells bits bytes) (k : Keeps t u cells bits bytes) :
    Keeps s u cells bits bytes :=
  ⟨fun p h1 h2 => (k.cells p h1 h2).trans (h.cells p h1 h2), fun i h1 h2 => (k.bits i h1 h2).trans (h.bits i h1 h2),
    fun a ha => (k.bytes a ha).trans (h.bytes a ha), k.pend.trans h.pend, k.env.trans h.env, k.gaps.trans h.gaps, k.intAck.trans h.intAck,
    k.busGrant.trans h.busGrant⟩

/-! ### What `wr` and a flag update do -/

/-- `wr` writes the destination and its flags, and nothing else (R31). -/
theorem State.wrote_wr (s : State) (d : Reg) (v : Word) (f : FlagUpd) : Wrote s (s.wr d v f) d v f.list := by
  unfold Wrote
  split
  · rename_i hd
    subst hd
    exact ⟨by simp, by rw [State.wr_re]; exact (Keeps.refl ..).setRe_all v⟩
  · rename_i hd
    have hp := s.phys_ne_re hd
    refine ⟨by simp [State.cell_wr], fun p hpm => ?_, ?_⟩
    · simp only [State.flag, State.re_wr, if_neg hd]; exact f.apply_listed _ p hpm
    · rw [State.wr_ne s v f hd]
      refine ((Keeps.refl s _ _ _).setCell v (by simp) hp).setRe _ fun i hi hn => ?_
      rw [State.re_setCell_ne s v hp]; exact f.apply_unlisted _ i hi hn

theorem Wrote.congr {s t u : State} {d : Reg} {v : Word} {l : List (ReField × Bool)} (h : Wrote s t d v l)
    (hc : ∀ p, u.cell p = t.cell p) (hm : ∀ a, u.byteAt a = t.byteAt a)
    (hp : u.pend = t.pend) (he : u.env = t.env) (hg : u.gaps = t.gaps) (hi : u.intAck = t.intAck) (hb : u.busGrant = t.busGrant) :
    Wrote s u d v l := by
  have hre : u.re = t.re := hc .re
  unfold Wrote at h ⊢
  split at h
  · rename_i hd
    rw [if_pos hd]
    exact ⟨hre.trans h.1, h.2.congr hc hm hp he hg hi hb⟩
  · rename_i hd
    rw [if_neg hd]
    exact ⟨(hc _).trans h.1, fun f hf => (State.flag_congr hre f.1).trans (h.2.1 f hf), h.2.2.congr hc hm hp he hg hi hb⟩

theorem Wrote.advance {s t : State} {d v l} (h : Wrote s t d v l) : Wrote s t.advance d v l :=
  h.congr (by simp) (fun _ => rfl) rfl rfl rfl rfl rfl
theorem Wrote.drawn {s t : State} {d v l} (h : Wrote s t d v l) (k : Nat) : Wrote s (t.drawn k) d v l :=
  h.congr (by simp) (fun _ => rfl) rfl rfl rfl rfl rfl

/-- What MUL leaves is left by any state that reads alike. -/
theorem Multiplied.congr {s t u : State} {rd rs : Reg} {p : Int} (h : Multiplied s t rd rs p) (hc : ∀ q, u.cell q = t.cell q)
    (hm : ∀ a, u.byteAt a = t.byteAt a) (hp : u.pend = t.pend) (he : u.env = t.env) (hg : u.gaps = t.gaps)
    (hi : u.intAck = t.intAck) (hb : u.busGrant = t.busGrant) : Multiplied s u rd rs p := by
  have hre : u.re = t.re := hc .re
  have hf := fun f => State.flag_congr hre f
  have hk : ∀ {cells bits}, Keeps s t cells bits [] → Keeps s u cells bits [] := fun k => k.congr hc hm hp he hg hi hb
  exact ⟨fun a b c => let ⟨h1, h2, h3, h4, h5⟩ := h.plain a b c
      ⟨(hc _).trans h1, (hf _).trans h2, (hf _).trans h3, (hf _).trans h4, hk h5⟩,
    fun a b => ⟨hre.trans (h.rdRe a b).1, hk (h.rdRe a b).2⟩, fun a b => ⟨(hc _).trans (h.rsRe a b).1, hk (h.rsRe a b).2⟩,
    fun a b => hk (h.same a b), fun a b => hk (h.sameRe a b)⟩

/-- A flag update assigns its flags, and does nothing else (R35). -/
theorem State.flagged_setFlags (s : State) (f : FlagUpd) : Flagged s (s.setFlags f) f.list :=
  ⟨fun p hp => f.apply_listed _ p hp, (Keeps.refl ..).setFlags f fun _ h => h⟩

theorem Flagged.advance {s t : State} {l} (h : Flagged s t l) : Flagged s t.advance l := ⟨h.1, h.2.advance⟩

/-! ### The shared endings -/

/-- Without a trapped overflow an instruction with an overflow bit just goes on (R144). -/
theorem State.trapV_next (s : State) {v : Bool} (after : State) (h : s.flag .tv = false ∨ v = false) :
    s.trapV v after = .next after.advance := by
  rcases h with h | h <;> simp [State.trapV, h]

/-- A trapped overflow enters EXCESSO after the writes (R144, R323; log 26). -/
theorem State.trapV_excesso (s : State) {v : Bool} (after : State) (h : s.flag .tv = true) (hv : v = true) :
    s.trapV v after = after.enter .excesso s.eis := by
  simp [State.trapV, h, hv, Params.excessoWritesResult]

/-- Either way (R144). -/
theorem State.trapV_cases (s : State) (v : Bool) (after : State) :
    s.trapV v after = .next after.advance ∨ s.trapV v after = after.enter .excesso s.eis := by
  unfold State.trapV
  split
  · right; simp [Params.excessoWritesResult]
  · left; rfl

theorem State.withLoad_even (s : State) {a : Word} (k : Word → Result) (h : isEven a = true) :
    s.withLoad a k = k (s.wordAt a) := by simp [State.withLoad, State.load_even s h]

theorem State.withLoad_odd (s : State) {a : Word} (k : Word → Result) (h : isEven a = false) :
    s.withLoad a k = s.misaligned := by simp [State.withLoad, State.load_odd s h]

theorem State.withLoadGap_even (s : State) {a : Word} (k : State → Word → Result) (h : isEven a = true) :
    s.withLoadGap a k = k s.gap (s.wordAt a) := State.withLoad_even s _ h

theorem State.withLoadGap_odd (s : State) {a : Word} (k : State → Word → Result) (h : isEven a = false) :
    s.withLoadGap a k = s.misaligned := State.withLoad_odd s _ h

theorem State.withStore_even (s : State) {a : Word} (v : Word) (k : State → Result) (h : isEven a = true) :
    s.withStore a v k = k (s.setWord a v) := by simp [State.withStore, State.store_even s v h]

theorem State.withStore_odd (s : State) {a : Word} (v : Word) (k : State → Result) (h : isEven a = false) :
    s.withStore a v k = s.misaligned := by simp [State.withStore, State.store_odd s v h]

/-- A conditional jump moves pc and nothing else (R251). -/
theorem State.jumpIf_next (s : State) (cond : Cond) (dif : Int) :
    s.jumpIf cond dif = .next (s.setPc (if cond.holds s.re then s.target dif else s.eis)) := rfl

end Sys2Proof.Machine
end

