-- ==== Sys2Proof/Laws/Exceptions.lean ====
section
/-!
SUPPORT. What taking an exception does (60_exceptions.md R330, R338): the one entry operation with its double fault, its
frame, and what the canonical form of memory needs of every operation that stores.
-/
namespace Sys2Proof.Machine

/-! ### Parity -/

theorem isEven_add (a b : Word) (h : isEven b = true) : isEven (a + b) = isEven a := by
  simp only [isEven, Bool.not_eq_true'] at h ⊢
  have : (a + b).getLsbD 0 = (a.getLsbD 0 ^^ b.getLsbD 0) := by
    rw [BitVec.getLsbD_add (by decide)]; simp [BitVec.carry, Nat.mod_one]
  rw [this, h]; simp

@[simp] theorem isEven_add_two (a : Word) : isEven (a + 2#16) = isEven a := isEven_add a 2 rfl
@[simp] theorem isEven_add_four (a : Word) : isEven (a + 4#16) = isEven a := isEven_add a 4 rfl
@[simp] theorem isEven_sub_two (a : Word) : isEven (a - 2#16) = isEven a := by
  rw [show a - 2#16 = a + 0xFFFE from by rw [BitVec.sub_eq_add_neg]; rfl]; exact isEven_add a _ rfl
@[simp] theorem isEven_sub_four (a : Word) : isEven (a - 4#16) = isEven a := by
  rw [show a - 4#16 = a + 0xFFFC from by rw [BitVec.sub_eq_add_neg]; rfl]; exact isEven_add a _ rfl

theorem Exc.isEven_offset (e : Exc) : isEven e.offset = true := by
  cases e with
  | int i => revert i; decide
  | _ => rfl

@[simp] theorem isEven_add_offset (a : Word) (e : Exc) : isEven (a + e.offset) = isEven a :=
  isEven_add a _ e.isEven_offset

/-! ### Taking an exception -/

/-- What an entry leaves when nothing is misaligned. -/
def State.entered (s : State) (e : Exc) (ret : Word) : State :=
  let m := (((((s.setCell .rer ret).setCell .temp s.re).setCell .re 0x0000).setWord (s.ssp - 2) ret).setWord (s.ssp - 4) s.re)
  (m.setPc (m.wordAt (s.bte + e.offset))).setCell .ssp (s.ssp - 4)

/-- Everything an entry can do: with SSP and BTE even it answers `entered`, otherwise the double fault (R330, R338). -/
theorem State.enter_eq (s : State) (e : Exc) (ret : Word) :
    s.enter e ret = if s.entrySafe then .next (s.entered e ret) else .fault .doubleFault := by
  by_cases hs : isEven s.ssp = true
  · have h2 : isEven (s.ssp - 2) = true := (isEven_sub_two _).trans hs
    have h4 : isEven (s.ssp - 4) = true := (isEven_sub_four _).trans hs
    unfold State.enter
    simp only [State.store_even _ _ h2, State.store_even _ _ h4]
    by_cases hb : isEven s.bte = true
    · have ho : isEven (s.bte + e.offset) = true := by simpa using hb
      simp only [State.load_even _ ho, State.entrySafe, hs, hb, Bool.and_self, if_true]
      rfl
    · have hb' : isEven s.bte = false := by simpa using hb
      have ho : isEven (s.bte + e.offset) = false := by simpa using hb'
      simp only [State.load_odd _ ho, State.entrySafe, hb', Bool.and_false, Bool.false_eq_true, if_false]
  · have hs' : isEven s.ssp = false := by simpa using hs
    have h2 : isEven (s.ssp - 2) = false := (isEven_sub_two _).trans hs'
    unfold State.enter
    simp only [State.store_odd _ _ h2, State.entrySafe, hs', Bool.false_and, Bool.false_eq_true, if_false]

theorem State.enter_next_iff {s t : State} {e : Exc} {ret : Word} :
    s.enter e ret = .next t ↔ s.entrySafe = true ∧ t = s.entered e ret := by
  rw [State.enter_eq]
  split
  · rename_i h; simp [h, eq_comm]
  · rename_i h; simp [h]

theorem State.enter_safe {s : State} (e : Exc) (ret : Word) (h : s.entrySafe = true) :
    s.enter e ret = .next (s.entered e ret) := State.enter_next_iff.mpr ⟨h, rfl⟩

@[simp] theorem State.entered_temp (s : State) (e : Exc) (ret : Word) : (s.entered e ret).temp = s.re := by
  simp [State.entered, State.setCell]
@[simp] theorem State.entered_re (s : State) (e : Exc) (ret : Word) : (s.entered e ret).re = 0x0000 := by
  simp [State.entered, State.setCell]
@[simp] theorem State.entered_rer (s : State) (e : Exc) (ret : Word) : (s.entered e ret).rer = ret := by
  simp [State.entered, State.setCell]
@[simp] theorem State.entered_ssp (s : State) (e : Exc) (ret : Word) : (s.entered e ret).ssp = s.ssp - 4 := by
  simp [State.entered, State.setCell]
@[simp] theorem State.entered_gpr (s : State) (e : Exc) (ret : Word) : (s.entered e ret).gpr = s.gpr := by
  simp [State.entered, State.setCell]
@[simp] theorem State.entered_rl (s : State) (e : Exc) (ret : Word) : (s.entered e ret).rl = s.rl := by
  simp [State.entered, State.setCell]
@[simp] theorem State.entered_usp (s : State) (e : Exc) (ret : Word) : (s.entered e ret).usp = s.usp := by
  simp [State.entered, State.setCell]
@[simp] theorem State.entered_bte (s : State) (e : Exc) (ret : Word) : (s.entered e ret).bte = s.bte := by
  simp [State.entered, State.setCell]
@[simp] theorem State.entered_aux (s : State) (e : Exc) (ret : Word) : (s.entered e ret).aux = s.aux := by
  simp [State.entered, State.setCell]

/-- The memory of an entry: the frame's two words. -/
theorem State.entered_mem (s : State) (e : Exc) (ret : Word) :
    (s.entered e ret).mem = ((s.setWord (s.ssp - 2) ret).setWord (s.ssp - 4) s.re).mem := by
  simp [State.entered]

theorem State.byteAt_congr {s t : State} (h : t.mem = s.mem) (a : Word) : t.byteAt a = s.byteAt a := by
  simp [State.byteAt, h]

theorem State.wordAt_congr {s t : State} (h : t.mem = s.mem) (a : Word) : t.wordAt a = s.wordAt a := by
  simp [State.wordAt, State.byteAt_congr h]

/-- A word read elsewhere than where a word was stored. -/
theorem State.wordAt_setWord_ne {s : State} (h : s.mem.wf = true) (a v b : Word) (h1 : b ≠ a) (h2 : b ≠ a + 1)
    (h3 : b + 1 ≠ a) (h4 : b + 1 ≠ a + 1) : (s.setWord a v).wordAt b = s.wordAt b := by
  simp only [State.wordAt, State.byteAt_setWord h, h1, h2, h3, h4, if_false]

/-- An entry does what R330 says, from any memory in the canonical form. -/
theorem State.entered_spec {s : State} (h : s.canonical = true) (e : Exc) (ret : Word) : Entered s (s.entered e ret) e ret := by
  have hw : s.mem.wf = true := h
  have hw1 := State.setWord_wf hw (s.ssp - 2) ret
  have hw2 := State.setWord_wf hw1 (s.ssp - 4) s.re
  refine ⟨by simp, by simp, by simp, by simp, ?_, ?_, ?_, ?_⟩
  · rw [State.entered_ssp, State.wordAt_congr (State.entered_mem s e ret), State.wordAt_setWord hw1]
  · have e2 : s.ssp - 4 + 2 = s.ssp - 2 := by bv_omega
    rw [State.entered_ssp, e2, State.wordAt_congr (State.entered_mem s e ret),
      State.wordAt_setWord_ne hw1 _ _ _ (by bv_omega) (by bv_omega) (by bv_omega) (by bv_omega), State.wordAt_setWord hw]
  · simp only [State.entered, State.setCell_pc, State.setPc_pc]
    exact (State.wordAt_congr (by simp) _).symm
  · have e1 : s.ssp - 2 + 1 = s.ssp - 1 := by bv_omega
    have e3 : s.ssp - 4 + 1 = s.ssp - 3 := by bv_omega
    unfold State.entered
    refine Keeps.setCell (Keeps.setPc (Keeps.setWord (Keeps.setWord (Keeps.setRe_all (Keeps.setCell (Keeps.setCell
      (Keeps.refl ..) _ (by simp) (by simp)) _ (by simp) (by simp)) _) ?_ _ (by simp) (e1 ▸ by simp)) ?_ _ (by simp)
      (e3 ▸ by simp)) _) _ (by simp) (by simp)
    · simpa using hw
    · exact State.setWord_wf (by simpa using hw) _ _

/-- An entry keeps the canonical form. -/
theorem State.entered_canonical {s : State} (h : s.canonical = true) (e : Exc) (ret : Word) :
    (s.entered e ret).canonical = true := by
  have hw : s.mem.wf = true := h
  show (s.entered e ret).mem.wf = true
  rw [State.entered_mem]
  exact State.setWord_wf (State.setWord_wf hw _ _) _ _

theorem State.enter_canonical {s t : State} {e : Exc} {ret : Word} (h : s.canonical = true) (ht : s.enter e ret = .next t) :
    t.canonical = true := by
  obtain ⟨-, rfl⟩ := State.enter_next_iff.mp ht
  exact State.entered_canonical h e ret

/-- An entry never refuses. -/
theorem State.enter_ne_refused (s : State) (e : Exc) (ret : Word) (r : Refusal) : s.enter e ret ≠ .refused r := by
  rw [State.enter_eq]; split <;> simp

theorem State.misaligned_eq (s : State) : s.misaligned = s.enter .dDesalinhado (s.pc + 2) := by
  simp only [State.misaligned, State.faultRer, Params.faultRer, State.eis]

/-- Everything taking an exception can do, in the terms of the statements (R330, R338). -/
theorem State.enter_takes {s : State} (h : s.canonical = true) (e : Exc) (ret : Word) : Takes (s.enter e ret) s e ret :=
  ⟨rfl, fun hs => ⟨_, State.enter_safe _ _ hs, State.entered_spec h _ _⟩, fun hs => by rw [State.enter_eq, hs]; rfl⟩

/-- A misaligned access (R327, R338). -/
theorem State.misaligned_takes {s : State} (h : s.canonical = true) : Takes s.misaligned s .dDesalinhado (s.pc + 2) :=
  s.misaligned_eq ▸ State.enter_takes h _ _

/-- After an entry every interrupt is masked (R330, R336). -/
theorem State.readyInt_of_re_zero {s : State} (h : s.re = 0x0000) : s.readyInt = none := by
  have : ∀ f : ReField, s.flag f = false := fun f => by simp [State.flag, h]
  simp [State.readyInt, State.intReady, this]

/-- The events of a boundary leave every register cell and pc alone. -/
theorem State.event_cell (s : State) (ev : Event) (p : Phys) : (s.event ev).cell p = s.cell p := by
  cases ev <;> simp only [State.event] <;> split
  · cases p <;> rfl
  · rfl
  · exact State.dma_cell ..
  · rfl

theorem State.event_pc (s : State) (ev : Event) : (s.event ev).pc = s.pc := by
  cases ev <;> simp only [State.event] <;> split
  · rfl
  · rfl
  · exact State.dma_pc ..
  · rfl

theorem State.event_canonical {s : State} (h : s.canonical = true) (ev : Event) : (s.event ev).canonical = true := by
  cases ev <;> simp only [State.event] <;> split
  · exact h
  · exact h
  · exact State.dma_wf h _
  · exact h

/-- A property every event keeps is kept by the events of a boundary. -/
theorem State.foldl_event {P : State → Prop} (hev : ∀ s ev, P s → P (s.event ev)) (l : List Event) (s : State) (h : P s) :
    P (l.foldl State.event s) := by
  induction l generalizing s with
  | nil => exact h
  | cons ev l ih => exact ih _ (hev s ev h)

/-- A property that does not look at the pins or the environment and that every event keeps is kept by the boundary. -/
theorem State.boundary_induction {P : State → Prop} {s : State} (hev : ∀ s ev, P s → P (s.event ev))
    (h : ∀ env, P { s with intAck := false, busGrant := false, env := env }) : P s.boundary := by
  unfold State.boundary
  split
  · exact h s.env
  · rename_i events later _
    exact State.foldl_event hev events _ (h later)

theorem State.boundary_canonical {s : State} (h : s.canonical = true) : s.boundary.canonical = true :=
  State.boundary_induction (P := fun t => t.canonical = true) (fun _ ev h => State.event_canonical h ev) fun _ => h

theorem State.boundary_cell (s : State) (p : Phys) : s.boundary.cell p = s.cell p :=
  State.boundary_induction (P := fun t => t.cell p = s.cell p) (fun t ev h => (State.event_cell t ev p).trans h)
    fun _ => by cases p <;> rfl

theorem State.boundary_pc (s : State) : s.boundary.pc = s.pc :=
  State.boundary_induction (P := fun t => t.pc = s.pc) (fun t ev h => (State.event_pc t ev).trans h) fun _ => rfl

/-- Without events the boundary only drops the output pins. -/
theorem State.boundary_quiet {s : State} (h : s.env = []) : s.boundary = { s with intAck := false, busGrant := false } := by
  unfold State.boundary; split <;> simp_all

end Sys2Proof.Machine
end

