-- ==== Sys2Proof/Laws/Flags.lean ====
section
/-!
SUPPORT. What the flag computations of Sys2Proof/Machine/Flags.lean compute, in integers (10_state.md R34; 40_arithmetic.md
R130, R139; 42_shift_rotate.md R194).
-/
namespace Sys2Proof.Machine

/-- `addc` (R130): the sum, the carry out of bit 15, signed overflow. -/
theorem addc_spec (a b : Word) (cin : Bool) :
    addc a b cin = ⟨a + b + BitVec.ofNat 16 cin.toNat, decide (65536 ≤ a.toNat + b.toNat + cin.toNat),
      decide (¬ Fits16 (a.toInt + b.toInt + cin.toNat))⟩ := by
  have hr : BitVec.ofNat 16 (a.toNat + b.toNat + cin.toNat) = a + b + BitVec.ofNat 16 cin.toNat := by
    apply BitVec.eq_of_toNat_eq; simp [BitVec.toNat_add, Nat.add_mod]
  have hc : cin.toNat ≤ 1 := by cases cin <;> simp
  simp only [addc, hr, Alu.mk.injEq, true_and]
  refine ⟨rfl, ?_⟩
  rw [Bool.eq_iff_iff]
  simp only [BitVec.msb_eq_decide, BitVec.toInt_eq_toNat_cond, decide_eq_true_eq, Bool.and_eq_true, beq_iff_eq, bne_iff_ne,
    ne_eq, decide_eq_decide, BitVec.toNat_add, BitVec.toNat_ofNat, Fits16]
  have ha := a.isLt
  have hb := b.isLt
  omega

/-- `subb` (R130): the difference, the borrow, signed overflow. -/
theorem subb_spec (a b : Word) (bin : Bool) :
    subb a b bin = ⟨a - b - BitVec.ofNat 16 bin.toNat, decide (a.toNat < b.toNat + bin.toNat),
      decide (¬ Fits16 (a.toInt - b.toInt - bin.toNat))⟩ := by
  have hc : bin.toNat ≤ 1 := by cases bin <;> simp
  have ha := a.isLt
  have hb := b.isLt
  have hr : BitVec.ofInt 16 ((a.toNat : Int) - b.toNat - bin.toNat) = a - b - BitVec.ofNat 16 bin.toNat := by
    apply BitVec.eq_of_toNat_eq
    simp only [BitVec.toNat_ofInt, BitVec.toNat_sub, BitVec.toNat_ofNat]
    omega
  simp only [subb, hr, Alu.mk.injEq, true_and]
  refine ⟨by rw [decide_eq_decide]; omega, ?_⟩
  rw [Bool.eq_iff_iff]
  simp only [BitVec.msb_eq_decide, BitVec.toInt_eq_toNat_cond, decide_eq_true_eq, Bool.and_eq_true, bne_iff_ne,
    ne_eq, decide_eq_decide, BitVec.toNat_sub, BitVec.toNat_ofNat, Fits16]
  omega

/-- The overflow bit of a product (R139). -/
theorem mulV_eq (a b : Word) : mulV a b = decide (¬ Fits16 (a.toInt * b.toInt)) := by
  simp only [mulV, outOfRange, Fits16, decide_eq_decide]; omega

/-- The low 16 bits of the signed product. -/
theorem ofInt_mul_toInt (a b : Word) : BitVec.ofInt 16 (a.toInt * b.toInt) = a * b := by
  apply BitVec.eq_of_toInt_eq; rw [BitVec.toInt_ofInt, BitVec.toInt_mul]

/-- The overflow bit of SHLA (R194): the signed value times a power of two does not fit. -/
theorem shlaV_spec (a : Word) (n : Nat) (h1 : 1 ≤ n) (h15 : n ≤ 15) : shlaV a n = decide (¬ Fits16 (a.toInt * 2 ^ n)) := by
  obtain ⟨m, hm⟩ : ∃ m, m + n = 15 := ⟨15 - n, by omega⟩
  have hmsb : (a <<< n).msb = a.getLsbD m := by
    rw [BitVec.msb_eq_getLsbD_last, BitVec.getLsbD_shiftLeft]
    have : 16 - 1 - n = m := by omega
    simp [this]; omega
  have hV : shlaV a n = false ↔ ∀ j, j < n → a.getLsbD (15 - j) = a.getLsbD m := by
    simp [shlaV, hmsb]
  have hS : (a.sshiftRight m = 0#16 ∨ a.sshiftRight m = BitVec.allOnes 16) ↔ ∀ j, j < n → a.getLsbD (15 - j) = a.getLsbD m := by
    have bit : ∀ i, i < 16 → (a.sshiftRight m).getLsbD i = if m + i < 16 then a.getLsbD (m + i) else a.getLsbD 15 := by
      intro i hi
      rw [BitVec.getLsbD_sshiftRight, BitVec.msb_eq_getLsbD_last]
      simp [show ¬ 16 ≤ i by omega]
    constructor
    · intro h j hj
      have b1 := bit (n - j) (by omega)
      have b0 := bit 0 (by omega)
      rw [if_pos (by omega), show m + (n - j) = 15 - j by omega] at b1
      rw [if_pos (by omega), Nat.add_zero] at b0
      rw [← b1, ← b0]
      rcases h with h | h
      · simp [h]
      · rw [h, BitVec.getLsbD_allOnes, BitVec.getLsbD_allOnes]; simp; omega
    · intro h
      by_cases hb : a.getLsbD m = true
      · right
        apply BitVec.eq_of_getLsbD_eq
        intro i hi
        rw [bit i hi, BitVec.getLsbD_allOnes]
        split
        · by_cases hi0 : i = 0
          · subst hi0; simpa using hb
          · have := h (n - i) (by omega)
            rw [show 15 - (n - i) = m + i by omega, hb] at this
            simp [this, hi]
        · have := h 0 (by omega)
          simp at this; simp [this, hb, hi]
      · left
        have hb' : a.getLsbD m = false := by simpa using hb
        apply BitVec.eq_of_getLsbD_eq
        intro i hi
        rw [bit i hi, BitVec.getLsbD_zero]
        split
        · by_cases hi0 : i = 0
          · subst hi0; simpa using hb'
          · have := h (n - i) (by omega)
            rw [show 15 - (n - i) = m + i by omega, hb'] at this
            exact this
        · have := h 0 (by omega)
          simp at this; simp [this, hb']
  have hI : (a.sshiftRight m = 0#16 ∨ a.sshiftRight m = BitVec.allOnes 16) ↔ Fits16 (a.toInt * 2 ^ n) := by
    rw [← BitVec.toInt_inj, ← BitVec.toInt_inj, BitVec.toInt_sshiftRight, Int.shiftRight_eq_div_pow]
    have e : (2 : Int) ^ m * 2 ^ n = 32768 := by rw [← pow_add, hm]; norm_num
    have pn : (0 : Int) < 2 ^ n := by positivity
    have pm : (0 : Int) < 2 ^ m := by positivity
    have z : (0#16 : Word).toInt = 0 := rfl
    have o : (BitVec.allOnes 16).toInt = -1 := rfl
    rw [z, o]
    have hd := Int.mul_ediv_add_emod a.toInt (2 ^ m)
    have hd0 := Int.emod_nonneg a.toInt (show (2 : Int) ^ m ≠ 0 by omega)
    have hd1 := Int.emod_lt_of_pos a.toInt pm
    have hcast : (((2 ^ m : Nat)) : Int) = 2 ^ m := by push_cast; rfl
    rw [hcast]
    constructor
    · rintro (h | h) <;> rw [h] at hd
      · have h1 : 0 ≤ a.toInt := by linarith
        have h2 : a.toInt + 1 ≤ 2 ^ m := by linarith
        constructor <;> nlinarith
      · have h1 : - 2 ^ m ≤ a.toInt := by linarith
        have h2 : a.toInt < 0 := by linarith
        constructor <;> nlinarith
    · rintro ⟨h1, h2⟩
      have q1 : a.toInt / 2 ^ m < 1 := by
        apply Int.ediv_lt_of_lt_mul pm
        by_contra hc
        have : (2 : Int) ^ m * 2 ^ n ≤ a.toInt * 2 ^ n := mul_le_mul_of_nonneg_right (by linarith) pn.le
        omega
      have q2 : -1 ≤ a.toInt / 2 ^ m := by
        apply Int.le_ediv_of_mul_le pm
        by_contra hc
        have : (a.toInt + 1) * 2 ^ n ≤ -2 ^ m * 2 ^ n := mul_le_mul_of_nonneg_right (by linarith) pn.le
        nlinarith
      omega
  rw [← hS, hI] at hV
  by_cases hF : Fits16 (a.toInt * 2 ^ n)
  · rw [hV.mpr hF]; exact (decide_eq_false (not_not_intro hF)).symm
  · have : shlaV a n = true := by
      by_contra hc; exact hF (hV.mp (by simpa using hc))
    rw [this]; exact (decide_eq_true hF).symm

/-- The word with one bit set. -/
theorem getLsbD_bitMask (n j : Nat) (hj : j < 16) : (bitMask n).getLsbD j = decide (j = n) := by
  rw [bitMask, BitVec.getLsbD_shiftLeft]
  by_cases h : j < n
  · simp [hj, h]; omega
  · rw [show (1 : Word).getLsbD (j - n) = decide (j - n = 0) from by
      rw [show (1 : Word) = 1#16 from rfl, BitVec.getLsbD_one]; simp]
    simp [hj, h]; omega

end Sys2Proof.Machine
end

