-- ==== Sys2Proof/Laws/Endings.lean ====
section
/-!
SUPPORT. What the endings the meanings share do, each said once (40_arithmetic.md R144, 41_bit_logic.md R160,
42_shift_rotate.md R190, 43_data_transfer.md R210, 44_control_flow.md R270), and which bits of RE they can change (R35).
-/
namespace Sys2Proof.Machine

/-! ### What a name stands for after a write -/

/-- A write to a cell other than RE does not change what a name stands for (R27). -/
theorem State.phys_setCell (s : State) {p : Phys} (v : Word) (h : p ≠ .re) (r : Reg) : (s.setCell p v).phys r = s.phys r :=
  State.phys_congr (State.re_setCell_ne s v h) r

/-- A write to a register other than RE does not change what a name stands for (R27). -/
theorem State.phys_wr (s : State) (d : Reg) (v : Word) (f : FlagUpd) (hd : d ≠ .re) (r : Reg) : (s.wr d v f).phys r = s.phys r := by
  have : (s.wr d v f).flag .np = s.flag .np := by
    simp only [State.flag, State.re_wr, if_neg hd, ReField.index]
    rw [FlagUpd.getLsbD_apply _ _ _ (by decide)]; simp
  simp [State.phys, this]

/-- A name stands for TEMP only if it is TEMP. -/
theorem State.phys_eq_temp (s : State) (r : Reg) : s.phys r = .temp ↔ r = .temp := by
  cases r <;> simp [State.phys, Reg.phys]
  split <;> simp

/-- A write without flags to a register other than RE (R31). -/
theorem State.wr_nothing_ne (s : State) (d : Reg) (v : Word) (h : d ≠ .re) : s.wr d v .nothing = s.setCell (s.phys d) v := by
  rw [State.wr_ne _ _ _ h, FlagUpd.apply_nothing]
  apply State.ext_cells
  · intro p
    have hp := s.phys_ne_re h
    simp only [State.cell_setCell]
    by_cases hpr : p = .re
    · subst hpr; simp [hp.symm, State.re_eq_cell]
    · simp [hpr]
  all_goals simp

/-- A word of memory after pc moved. -/
theorem State.wordAt_advance (s : State) (a : Word) : s.advance.wordAt a = s.wordAt a := rfl

/-- A word of memory after a register write. -/
theorem State.wordAt_setCell (s : State) (p : Phys) (v a : Word) : (s.setCell p v).wordAt a = s.wordAt a :=
  State.wordAt_congr (by simp) a

/-- A word of memory after pc moved. -/
theorem State.wordAt_setPc (s : State) (v a : Word) : (s.setPc v).wordAt a = s.wordAt a := rfl

/-- A word of memory after a register write with flags. -/
theorem State.wordAt_wr (s : State) (d : Reg) (v : Word) (f : FlagUpd) (a : Word) : (s.wr d v f).wordAt a = s.wordAt a :=
  State.wordAt_congr (by simp) a

/-- `wr` to a listed register other than RE, with listed flags. -/
theorem Keeps.wr {s t : State} {cells bits bytes} (h : Keeps s t cells bits bytes) (d : Reg) (v : Word) (f : FlagUpd)
    (hd : d ≠ .re) (hc : t.phys d ∈ cells) (hf : ∀ j ∈ f.list.map (fun p => p.1.index), j ∈ bits) :
    Keeps s (t.wr d v f) cells bits bytes := by
  have hp := t.phys_ne_re hd
  rw [State.wr, if_neg hd]
  exact (h.setCell v hc hp).setFlags f hf

/-! ### The endings -/

/-- A sum or difference without the trap (R131 to R136, R143). -/
theorem State.finishAlu_next (s : State) (rd : Reg) (x : Alu) (h : s.flag .tv = false ∨ x.v = false) :
    ∃ t, s.finishAlu rd x = .next t ∧ t.pc = s.pc + 2 ∧ Wrote s t rd x.r [(.z, x.r == 0), (.n, x.r.msb), (.c, x.c), (.v, x.v)] := by
  refine ⟨_, State.trapV_next s _ h, ?_, ?_⟩
  · simp [State.eis]
  · rw [← FlagUpd.list_flagsZNCV]; exact (State.wrote_wr ..).advance

/-- A sum or difference with the trap (R144). -/
theorem State.finishAlu_excesso (s : State) (rd : Reg) (x : Alu) (htv : s.flag .tv = true) (hv : x.v = true) (hc : s.canonical = true) :
    ∃ u, Wrote s u rd x.r [(.z, x.r == 0), (.n, x.r.msb), (.c, x.c), (.v, true)] ∧
      Takes (s.finishAlu rd x) u .excesso (s.pc + 2) := by
  refine ⟨s.wr rd x.r (flagsZNCV x.r x.c x.v), ?_, ?_⟩
  · rw [← hv, ← FlagUpd.list_flagsZNCV]; exact State.wrote_wr ..
  · unfold State.finishAlu; rw [State.trapV_excesso s _ htv hv]
    exact State.enter_takes (by simpa [State.canonical] using hc) _ _

/-- A comparison without the trap (R137, R138). -/
theorem State.finishCmp_next (s : State) (a b : Word) (h : s.flag .tv = false ∨ Fits16 (a.toInt - b.toInt)) :
    ∃ t, s.finishCmp (subb a b false) = .next t ∧ t.pc = s.pc + 2 ∧
      Flagged s t [(.z, a == b), (.n, (a - b).msb), (.c, decide (a.toNat < b.toNat)),
        (.v, decide (¬ Fits16 (a.toInt - b.toInt)))] := by
  have e : subb a b false = ⟨a - b, decide (a.toNat < b.toNat), decide (¬ Fits16 (a.toInt - b.toInt))⟩ := by
    rw [subb_spec]; simp [Fits16]
  have h' : s.flag .tv = false ∨ (subb a b false).v = false := h.imp_right fun h => by rw [e]; exact decide_eq_false (not_not_intro h)
  refine ⟨_, State.trapV_next s _ h', ?_, ?_⟩
  · simp [State.eis, State.setFlags]
  · have hz : (a == b) = (a - b == 0) := by
      rw [Bool.eq_iff_iff]; simp only [beq_iff_eq]; constructor <;> intro h <;> bv_omega
    rw [e, hz, ← FlagUpd.list_flagsZNCV]; exact (State.flagged_setFlags ..).advance

/-- A division by a non-zero divisor (R140, R142). -/
theorem State.finishDiv_next (s : State) (rd : Reg) (r : Word) : ∃ t c, s.finishDiv rd r = .next t ∧ t.pc = s.pc + 2 ∧
    Wrote s t rd r [(.z, r == 0), (.n, r.msb), (.c, c), (.v, false)] := by
  refine ⟨_, s.anyBit 0, rfl, by simp [State.eis], ?_⟩
  rw [← FlagUpd.list_flagsZNCV]
  exact ((State.wrote_wr ..).drawn 1).advance

/-- A logic or single-bit result (R160). -/
theorem State.finishLogic_next (s : State) (rd : Reg) (r : Word) :
    ∃ t, s.finishLogic rd r = .next t ∧ t.pc = s.pc + 2 ∧ Wrote s t rd r [(.z, r == 0), (.n, r.msb)] ∧ t.mem = s.mem := by
  refine ⟨_, rfl, by simp [State.eis], ?_, by simp⟩
  rw [← FlagUpd.list_flagsZN]; exact (State.wrote_wr ..).advance

/-- A shift or rotate by at least one place (R190). -/
theorem State.shiftReg_next (s : State) (rd : Reg) (n : Nat) (op : Word → Nat → Shifted) (h : 1 ≤ n) :
    ∃ t, Host.Outcome.next (s.shiftReg rd n op).advance = (.next t : Result) ∧ t.pc = s.pc + 2 ∧
      Wrote s t rd (op (s.reg rd) n).r [(.z, (op (s.reg rd) n).r == 0), (.n, (op (s.reg rd) n).r.msb), (.c, (op (s.reg rd) n).c)] := by
  have hn : n ≠ 0 := by omega
  refine ⟨_, rfl, ?_, ?_⟩
  · simp only [State.shiftReg, if_neg hn]; simp [State.eis]
  · simp only [State.shiftReg, if_neg hn]
    rw [← FlagUpd.list_flagsZNC]; exact (State.wrote_wr ..).advance

/-- A value written to Rd, no flag (R210). -/
theorem State.finishMove_next (s : State) (rd : Reg) (v : Word) :
    ∃ t, s.finishMove rd v = .next t ∧ t.pc = s.pc + 2 ∧ Wrote s t rd v [] := by
  refine ⟨_, rfl, by simp [State.eis], ?_⟩
  rw [← FlagUpd.list_nothing]; exact (State.wrote_wr ..).advance

/-- The register a move wrote reads as the value (R31). -/
theorem State.finishMove_reg (s : State) (rd : Reg) (v : Word) :
    ∃ t, s.finishMove rd v = .next t ∧ t.reg rd = v := by
  refine ⟨_, rfl, ?_⟩
  by_cases h : rd = .re
  · subst h; rw [State.wr_re]; rfl
  · have hp := s.phys_ne_re h
    have hre : ((s.wr rd v .nothing).advance).re = s.re := by
      rw [State.advance_re, State.re_wr, if_neg h]; rfl
    rw [State.reg, State.phys_congr hre, State.cell_advance, State.cell_wr, if_pos rfl]

/-- A word load into Rd from an even address (R211), with the gap after the read (R72). -/
theorem State.loadInto_next (s : State) (rd : Reg) (ea : Word) (he : isEven ea = true) :
    ∃ t, s.loadInto rd ea = .next t ∧ t.pc = s.pc + 2 ∧ Wrote s.gap t rd (s.wordAt ea) [] := by
  rw [State.loadInto, State.withLoadGap_even _ _ he, ← s.gap_pc]
  exact s.gap.finishMove_next rd _

/-- A word store at an even address (R213). -/
theorem State.storeFrom_next (s : State) (ea : Word) (rs : Reg) (hc : s.canonical = true) (he : isEven ea = true) :
   ∃ t, s.storeFrom ea rs = .next t ∧ t.pc = s.pc + 2 ∧
      t.byteAt ea = (s.reg rs).extractLsb' 8 8 ∧ t.byteAt (ea + 1) = (s.reg rs).extractLsb' 0 8 ∧
      Keeps s t [] [] [ea, ea + 1] := by
  refine ⟨_, State.withStore_even _ _ _ he, by simp [State.eis], ?_, ?_, ?_⟩
  · rw [State.byteAt_advance, State.byteAt_setWord hc]; simp
  · rw [State.byteAt_advance, State.byteAt_setWord hc, if_neg (by bv_omega)]; simp
  · exact ((Keeps.refl ..).setWord hc _ (by simp) (by simp)).advance

/-- A stack call with an even SP (R270). -/
theorem State.callTo_next (s : State) (d : Word) (hc : s.canonical = true) (he : isEven (s.reg .sp) = true) :
      ∃ t, s.callTo d = .next t ∧ t.pc = d ∧
        t.wordAt s.pushSlot = s.pc + 2 ∧ t.cell (s.phys .sp) = s.reg .sp - 2 ∧ t.rer = s.pc + 2 ∧
        Keeps s t [s.phys .sp, .rer] [] [s.pushSlot, s.pushSlot + 1] := by
  have he' : isEven s.pushSlot = true := (isEven_sub_two _).trans he
  have hp : s.phys .sp ≠ .re := s.phys_ne_re (by simp)
  have hph : (((s.setWord s.pushSlot s.eis).setCell .rer s.eis).setPc d).phys .sp = s.phys .sp := State.phys_congr rfl _
  have hpr : (Phys.rer) ≠ s.phys .sp := by simp [State.phys, Reg.phys]; split <;> simp
  refine ⟨_, State.withStore_even _ _ _ he', by simp [State.setReg], ?_, ?_, ?_, ?_⟩
  · rw [State.setReg, State.wordAt_setCell, State.wordAt_setPc, State.wordAt_setCell, State.wordAt_setWord hc]; rfl
  · rw [State.setReg, hph, State.cell_setCell_same]; rfl
  · have : ∀ s : State, s.rer = s.cell .rer := fun _ => rfl
    rw [this, State.setReg, hph, State.cell_setCell_ne _ _ hpr, State.cell_setPc, State.cell_setCell_same]; rfl
  · rw [State.setReg, hph]
    exact ((((Keeps.refl ..).setWord hc _ (by simp) (by simp)).setCell _ (by simp) (by simp)).setPc _).setCell _ (by simp) hp

/-- RET with an even SP (R274). -/
theorem State.ret_next (s : State) (he : isEven (s.reg .sp) = true) :
    ∃ t, exec .ret s = .next t ∧ t.pc = s.wordAt (s.reg .sp) ∧
      t.cell (s.phys .sp) = s.reg .sp + 2 ∧ Keeps s t [s.phys .sp] [] [] := by
  have hp : s.phys .sp ≠ .re := s.phys_ne_re (by simp)
  refine ⟨_, State.withLoad_even _ _ he, by simp [State.setReg], ?_, ?_⟩
  · rw [State.setReg, show (s.setPc (s.wordAt (s.reg .sp))).phys .sp = s.phys .sp from rfl, State.cell_setCell_same]
  · exact ((Keeps.refl ..).setPc _).setCell _ (by show _ ∈ [s.phys .sp]; simp; rfl) hp

/-! ### Which bits of RE can change -/

/-- Only the listed flags of RE differ. -/
def KeepsRe (s t : State) (l : List ReField) : Prop :=
  ∀ k, k < 16 → (∀ f ∈ l, f.index ≠ k) → t.re.getLsbD k = s.re.getLsbD k

/-- `wr` to a register other than RE. -/
theorem KeepsRe.wr (s : State) (d : Reg) (v : Word) (f : FlagUpd) (l : List ReField) (hd : d ≠ .re)
    (hf : ∀ p ∈ f.list, p.1 ∈ l) : KeepsRe s (s.wr d v f) l := by
  intro k hk h
  rw [State.re_wr, if_neg hd]
  apply f.apply_unlisted _ k hk
  intro hc
  obtain ⟨p, hp, e⟩ := List.mem_map.mp hc
  exact h _ (hf p hp) e

/-- A flag update. -/
theorem KeepsRe.setFlags (s : State) (f : FlagUpd) (l : List ReField)
    (hf : ∀ p ∈ f.list, p.1 ∈ l) : KeepsRe s (s.setFlags f) l := by
  intro k hk h
  apply f.apply_unlisted _ k hk
  intro hc
  obtain ⟨p, hp, e⟩ := List.mem_map.mp hc
  exact h _ (hf p hp) e

/-- A write that leaves RE alone. -/
theorem KeepsRe.of_eq {s t : State} {l} (h : t.re = s.re) : KeepsRe s t l := fun k _ _ => by rw [h]

/-- `r` keeps the bits of RE outside `l` in its next state, or is an exception taken from a state in which they are kept. -/
def EndsKeepingRe (s : State) (l : List ReField) (r : Result) : Prop :=
  ∀ t, r = .next t → ∃ u, KeepsRe s u l ∧ (t = u ∨ ∃ (e : Exc) (ret : Word), r = u.enter e ret)

theorem EndsKeepingRe.next {s t : State} {l} (h : KeepsRe s t l) : EndsKeepingRe s l (.next t) :=
  fun _ e => ⟨t, h, .inl (by cases e; rfl)⟩

/-- An exception taken. -/
theorem EndsKeepingRe.enter {s u : State} {l} (h : KeepsRe s u l) (e : Exc) (ret : Word) : EndsKeepingRe s l (u.enter e ret) :=
  fun _ _ => ⟨u, h, .inr ⟨e, ret, rfl⟩⟩

/-- The overflow trap (R144). -/
theorem EndsKeepingRe.trapV {s s' after : State} {v l} (h : KeepsRe s after l) : EndsKeepingRe s l (s'.trapV v after) := by
  rcases State.trapV_cases s' v after with e | e <;> rw [e]
  · exact .next h
  · exact .enter h _ _

/-- A word load, misaligned or not (R66, R67). -/
theorem EndsKeepingRe.withLoad {s s' : State} {a k l} (hs : KeepsRe s s' l) (hk : ∀ v, EndsKeepingRe s l (k v)) :
    EndsKeepingRe s l (s'.withLoad a k) := by
  cases he : isEven a
  · rw [State.withLoad_odd _ _ he]; exact .enter hs _ _
  · rw [State.withLoad_even _ _ he]; exact hk _

/-- A word load with the gap after it, misaligned or not (R72). -/
theorem EndsKeepingRe.withLoadGap {s : State} {a k l} (hk : ∀ v, EndsKeepingRe s l (k s.gap v)) :
    EndsKeepingRe s l (s.withLoadGap a k) := .withLoad (.of_eq rfl) hk

/-- A word store, misaligned or not (R66, R67). -/
theorem EndsKeepingRe.withStore {s s' : State} {a v k l} (hs : KeepsRe s s' l) (hk : EndsKeepingRe s l (k (s'.setWord a v))) :
    EndsKeepingRe s l (s'.withStore a v k) := by
  cases he : isEven a
  · rw [State.withStore_odd _ _ _ he]; exact .enter hs _ _
  · rw [State.withStore_even _ _ _ he]; exact hk

/-! ### What every next state of a result has -/

/-- Every next state of `r` has the property `P`. -/
def Ends (P : State → Prop) (r : Result) : Prop := ∀ t, r = .next t → P t

theorem Ends.next {P : State → Prop} {t : State} (h : P t) : Ends P (.next t) := fun _ e => by cases e; exact h

/-- The overflow trap (R144): the property holds of `after` advanced, and of what its EXCESSO entry leaves. -/
theorem Ends.trapV {P : State → Prop} {s after : State} (v : Bool) (hA : P after.advance)
    (hE : Ends P (after.enter .excesso s.eis)) : Ends P (s.trapV v after) := by
  rcases State.trapV_cases s v after with e | e <;> rw [e]
  · exact Ends.next hA
  · exact hE

/-- A word load (R66): the property holds after D_DESALINHADO, and of what follows the load. -/
theorem Ends.withLoad {P : State → Prop} {s : State} {a : Word} {k : Word → Result} (hE : Ends P s.misaligned)
    (hk : ∀ v, Ends P (k v)) : Ends P (s.withLoad a k) := by
  cases he : isEven a
  · rw [State.withLoad_odd _ _ he]; exact hE
  · rw [State.withLoad_even _ _ he]; exact hk _

/-- A word load with the gap after it (R72): likewise, from the state the gap left. -/
theorem Ends.withLoadGap {P : State → Prop} {s : State} {a : Word} {k : State → Word → Result} (hE : Ends P s.misaligned)
    (hk : ∀ v, Ends P (k s.gap v)) : Ends P (s.withLoadGap a k) := Ends.withLoad hE hk

/-- A word store (R66): the property holds after D_DESALINHADO, and of what follows the store. -/
theorem Ends.withStore {P : State → Prop} {s : State} {a v : Word} {k : State → Result} (hE : Ends P s.misaligned)
    (hk : Ends P (k (s.setWord a v))) : Ends P (s.withStore a v k) := by
  cases he : isEven a
  · rw [State.withStore_odd _ _ _ he]; exact hE
  · rw [State.withStore_even _ _ _ he]; exact hk

/-- A division by zero (R141): the DIV0 entry, or an overflow. -/
theorem Ends.divideByZero {P : State → Prop} {s : State} (rd : Reg) (hE : Ends P (s.enter .div0 s.faultRer))
    (hT : ∀ after, after = (s.wr rd s.anyWord (flagsZNCV s.anyWord (s.anyBit 0) true)).drawn 1 →
      Ends P (s.trapV true after)) : Ends P (s.divideByZero rd) := by
  unfold State.divideByZero
  split
  · exact hE
  · exact hT _ rfl

/-- Return from an exception (R278) with an even SP: RE and TEMP from the top word, pc from the word above it as the gap
after the first read left it, and the stack pointer raised by 4. -/
theorem State.returnFromException_even {s : State} (he : isEven (s.reg .sp) = true) :
    s.returnFromException = .next ((((s.gap.gap.setCell .temp (s.wordAt (s.reg .sp))).setPc (s.gap.wordAt (s.reg .sp + 2))).setReg
      .sp (s.reg .sp + 4)).setCell .re (s.wordAt (s.reg .sp))) := by
  have he2 : isEven (s.reg .sp + 2) = true := (isEven_add_two _).trans he
  have ht : (s.setCell .temp (s.wordAt (s.reg .sp))).gap = s.gap.setCell .temp (s.wordAt (s.reg .sp)) :=
    State.gap_setCell s _ (by simp)
  simp only [State.returnFromException, State.load_even s he]
  rw [ht, State.load_even _ he2, State.wordAt_setCell]
  simp only []
  rw [State.gap_setPc, State.gap_setCell _ _ (by simp)]

/-- Return from an exception (R278): D_DESALINHADO, or the state it leaves. -/
theorem Ends.returnFromException {P : State → Prop} {s : State} (hE : Ends P s.misaligned)
    (hN : ∀ re pc, P ((((s.gap.gap.setCell .temp re).setPc pc).setReg .sp (s.reg .sp + 4)).setCell .re re)) :
    Ends P s.returnFromException := by
  cases he : isEven (s.reg .sp)
  · simp only [State.returnFromException, State.load_odd s he]; exact hE
  · rw [State.returnFromException_even he]; exact Ends.next (hN _ _)

/-- The cells an entry does not write (R330). -/
theorem State.entered_cell (s : State) (e : Exc) (ret : Word) {p : Phys} (h : p ∉ [Phys.temp, .rer, .ssp, .re]) :
    (s.entered e ret).cell p = s.cell p := by
  simp only [List.mem_cons, List.not_mem_nil, or_false, not_or] at h
  simp [State.entered, State.cell_setCell, h]

end Sys2Proof.Machine
end

