-- ==== Sys2Proof/Laws/PerInstr.lean ====
section
/-!
SUPPORT. For each instruction: its word has the fixed bits of its row of spec/opcode_table.json (30_encoding.md R92, R100
to R105), whatever its operands are. `row` is the table's mask and match, copied from the table.
-/
namespace Sys2Proof

/-- The mask and the match of an instruction's row in spec/opcode_table.json. -/
def Instr.row : Instr → Word × Word
  | .add _ _ => (0xFF00, 0x0000)
  | .addi _ _ => (0xFF00, 0x0100)
  | .addc _ _ => (0xFF00, 0x0200)
  | .sub _ _ => (0xFF00, 0x0300)
  | .subi _ _ => (0xFF00, 0x0400)
  | .subb _ _ => (0xFF00, 0x0500)
  | .cmp _ _ => (0xFF00, 0x0600)
  | .cmpi _ _ => (0xFF00, 0x0700)
  | .mul _ _ => (0xFF00, 0x0800)
  | .div _ _ => (0xFF00, 0x0900)
  | .mod _ _ => (0xFF00, 0x0A00)
  | .neg _ => (0xFF00, 0x0B00)
  | .shra _ _ => (0xFF00, 0x0E00)
  | .shla _ _ => (0xFF00, 0x0F00)
  | .and _ _ => (0xFF00, 0x1000)
  | .or _ _ => (0xFF00, 0x1100)
  | .not _ => (0xFF00, 0x1200)
  | .xor _ _ => (0xFF00, 0x1300)
  | .test _ _ => (0xFF00, 0x1400)
  | .bit _ _ => (0xFF00, 0x1500)
  | .setbit _ _ => (0xFF00, 0x1600)
  | .clrbit _ _ => (0xFF00, 0x1700)
  | .cplbit _ _ => (0xFF00, 0x1800)
  | .shr _ _ => (0xFF00, 0x1900)
  | .shl _ _ => (0xFF00, 0x1A00)
  | .ror _ _ => (0xFF00, 0x1B00)
  | .rol _ _ => (0xFF00, 0x1C00)
  | .rorc _ _ => (0xFF00, 0x1D00)
  | .rolc _ _ => (0xFF00, 0x1E00)
  | .ldo _ _ _ => (0xF000, 0x2000)
  | .ldr _ _ _ => (0xF000, 0x3000)
  | .sto _ _ _ => (0xF000, 0x4000)
  | .str _ _ _ => (0xF000, 0x5000)
  | .ldb _ _ => (0xFF00, 0x6000)
  | .stb _ _ => (0xFF00, 0x6100)
  | .ldp _ _ => (0xFF00, 0x6200)
  | .stp _ _ => (0xFF00, 0x6300)
  | .movrr _ _ => (0xFF00, 0x6400)
  | .movar _ _ => (0xFF00, 0x6500)
  | .movra _ _ => (0xFF00, 0x6600)
  | .movru _ => (0xFF00, 0x6700)
  | .movur _ => (0xFF00, 0x6800)
  | .swapr _ _ => (0xFF00, 0x6900)
  | .swapm _ _ => (0xFF00, 0x6A00)
  | .push _ => (0xFF00, 0x6B00)
  | .pop _ => (0xFF00, 0x6C00)
  | .movl _ _ => (0xF000, 0x7000)
  | .movh _ _ => (0xF000, 0x8000)
  | .jz _ => (0xFF00, 0x9000)
  | .jnz _ => (0xFF00, 0x9100)
  | .jn _ => (0xFF00, 0x9200)
  | .jnn _ => (0xFF00, 0x9300)
  | .jp _ => (0xFF00, 0x9400)
  | .jnp _ => (0xFF00, 0x9500)
  | .jc _ => (0xFF00, 0x9600)
  | .jnc _ => (0xFF00, 0x9700)
  | .jv _ => (0xFF00, 0x9800)
  | .jnv _ => (0xFF00, 0x9900)
  | .ja _ => (0xFF00, 0x9A00)
  | .jna _ => (0xFF00, 0x9B00)
  | .jlt _ => (0xFF00, 0x9C00)
  | .jle _ => (0xFF00, 0x9D00)
  | .jgt _ => (0xFF00, 0x9E00)
  | .jge _ => (0xFF00, 0x9F00)
  | .jmp _ => (0xF000, 0xA000)
  | .call _ => (0xF000, 0xB000)
  | .callf _ => (0xF000, 0xC000)
  | .jmpr _ => (0xFF00, 0xD000)
  | .cr _ => (0xFF00, 0xD100)
  | .crf _ => (0xFF00, 0xD200)
  | .ret => (0xFF00, 0xD300)
  | .retf => (0xFF00, 0xD400)
  | .swe _ => (0xFF00, 0xD500)
  | .rfe => (0xFF00, 0xD600)
  | .nop => (0xFF00, 0xD700)

theorem fields_and_ff00 (p q a b : BitVec 4) : fields p q a b &&& 0xFF00 = fields p q 0 0 := by
  apply BitVec.eq_of_getLsbD_eq
  intro i hi
  simp only [fields_append, BitVec.getLsbD_and, BitVec.getLsbD_append]
  interval_cases i <;> simp

theorem fields_and_f000 (p q a b : BitVec 4) : fields p q a b &&& 0xF000 = fields p 0 0 0 := by
  apply BitVec.eq_of_getLsbD_eq
  intro i hi
  simp only [fields_append, BitVec.getLsbD_and, BitVec.getLsbD_append]
  interval_cases i <;> simp

theorem fields8_and_ff00 (p q : BitVec 4) (k : BitVec 8) : fields8 p q k &&& 0xFF00 = fields8 p q 0 := fields_and_ff00 ..

theorem fields8_and_f000 (p q : BitVec 4) (k : BitVec 8) : fields8 p q k &&& 0xF000 = fields8 p 0 0 := fields_and_f000 ..

theorem fields12_and_f000 (p : BitVec 4) (d : BitVec 12) : fields12 p d &&& 0xF000 = fields12 p 0 := fields_and_f000 ..

end Sys2Proof

namespace Sys2Proof.Laws.EncodesItsRow

/-- The word of `i` has the fixed bits of `i`'s row. -/
def Statement (i : Instr) : Prop := encode i &&& i.row.1 = i.row.2

theorem add (rd rs : Reg) : Statement (.add rd rs) :=
  fields_and_ff00 _ _ _ _
theorem addi (rd : Reg) (k : Int) : Statement (.addi rd k) :=
  fields_and_ff00 _ _ _ _
theorem addc (rd rs : Reg) : Statement (.addc rd rs) :=
  fields_and_ff00 _ _ _ _
theorem sub (rd rs : Reg) : Statement (.sub rd rs) :=
  fields_and_ff00 _ _ _ _
theorem subi (rd : Reg) (k : Int) : Statement (.subi rd k) :=
  fields_and_ff00 _ _ _ _
theorem subb (rd rs : Reg) : Statement (.subb rd rs) :=
  fields_and_ff00 _ _ _ _
theorem cmp (rd rs : Reg) : Statement (.cmp rd rs) :=
  fields_and_ff00 _ _ _ _
theorem cmpi (rd : Reg) (k : Int) : Statement (.cmpi rd k) :=
  fields_and_ff00 _ _ _ _
theorem mul (rd rs : Reg) : Statement (.mul rd rs) :=
  fields_and_ff00 _ _ _ _
theorem div (rd rs : Reg) : Statement (.div rd rs) :=
  fields_and_ff00 _ _ _ _
theorem mod (rd rs : Reg) : Statement (.mod rd rs) :=
  fields_and_ff00 _ _ _ _
theorem neg (rd : Reg) : Statement (.neg rd) :=
  fields_and_ff00 _ _ _ _
theorem shra (rd : Reg) (n : Nat) : Statement (.shra rd n) :=
  fields_and_ff00 _ _ _ _
theorem shla (rd : Reg) (n : Nat) : Statement (.shla rd n) :=
  fields_and_ff00 _ _ _ _
theorem and (rd rs : Reg) : Statement (.and rd rs) :=
  fields_and_ff00 _ _ _ _
theorem or (rd rs : Reg) : Statement (.or rd rs) :=
  fields_and_ff00 _ _ _ _
theorem not (rd : Reg) : Statement (.not rd) :=
  fields_and_ff00 _ _ _ _
theorem xor (rd rs : Reg) : Statement (.xor rd rs) :=
  fields_and_ff00 _ _ _ _
theorem test (rd rs : Reg) : Statement (.test rd rs) :=
  fields_and_ff00 _ _ _ _
theorem bit (rd : Reg) (n : Nat) : Statement (.bit rd n) :=
  fields_and_ff00 _ _ _ _
theorem setbit (rd : Reg) (n : Nat) : Statement (.setbit rd n) :=
  fields_and_ff00 _ _ _ _
theorem clrbit (rd : Reg) (n : Nat) : Statement (.clrbit rd n) :=
  fields_and_ff00 _ _ _ _
theorem cplbit (rd : Reg) (n : Nat) : Statement (.cplbit rd n) :=
  fields_and_ff00 _ _ _ _
theorem shr (rd : Reg) (n : Nat) : Statement (.shr rd n) :=
  fields_and_ff00 _ _ _ _
theorem shl (rd : Reg) (n : Nat) : Statement (.shl rd n) :=
  fields_and_ff00 _ _ _ _
theorem ror (rd : Reg) (n : Nat) : Statement (.ror rd n) :=
  fields_and_ff00 _ _ _ _
theorem rol (rd : Reg) (n : Nat) : Statement (.rol rd n) :=
  fields_and_ff00 _ _ _ _
theorem rorc (rd : Reg) (n : Nat) : Statement (.rorc rd n) :=
  fields_and_ff00 _ _ _ _
theorem rolc (rd : Reg) (n : Nat) : Statement (.rolc rd n) :=
  fields_and_ff00 _ _ _ _
theorem ldo (rd rs : Reg) (off : Int) : Statement (.ldo rd rs off) :=
  fields_and_f000 _ _ _ _
theorem ldr (rd rs ri : Reg) : Statement (.ldr rd rs ri) :=
  fields_and_f000 _ _ _ _
theorem sto (rd : Reg) (off : Int) (rs : Reg) : Statement (.sto rd off rs) :=
  fields_and_f000 _ _ _ _
theorem str (rd ri rs : Reg) : Statement (.str rd ri rs) :=
  fields_and_f000 _ _ _ _
theorem ldb (rd rs : Reg) : Statement (.ldb rd rs) :=
  fields_and_ff00 _ _ _ _
theorem stb (rd rs : Reg) : Statement (.stb rd rs) :=
  fields_and_ff00 _ _ _ _
theorem ldp (rd rs : Reg) : Statement (.ldp rd rs) :=
  fields_and_ff00 _ _ _ _
theorem stp (rd rs : Reg) : Statement (.stp rd rs) :=
  fields_and_ff00 _ _ _ _
theorem movrr (rd rs : Reg) : Statement (.movrr rd rs) :=
  fields_and_ff00 _ _ _ _
theorem movar (ad : AReg) (rs : Reg) : Statement (.movar ad rs) :=
  fields_and_ff00 _ _ _ _
theorem movra (rd : Reg) (ax : AReg) : Statement (.movra rd ax) :=
  fields_and_ff00 _ _ _ _
theorem movru (rd : Reg) : Statement (.movru rd) :=
  fields_and_ff00 _ _ _ _
theorem movur (rs : Reg) : Statement (.movur rs) :=
  fields_and_ff00 _ _ _ _
theorem swapr (rd rs : Reg) : Statement (.swapr rd rs) :=
  fields_and_ff00 _ _ _ _
theorem swapm (rd rs : Reg) : Statement (.swapm rd rs) :=
  fields_and_ff00 _ _ _ _
theorem push (rd : Reg) : Statement (.push rd) :=
  fields_and_ff00 _ _ _ _
theorem pop (rd : Reg) : Statement (.pop rd) :=
  fields_and_ff00 _ _ _ _
theorem movl (rd : Reg) (k : Int) : Statement (.movl rd k) :=
  fields8_and_f000 _ _ _
theorem movh (rd : Reg) (k : Nat) : Statement (.movh rd k) :=
  fields8_and_f000 _ _ _
theorem jz (dif : Int) : Statement (.jz dif) :=
  fields8_and_ff00 _ _ _
theorem jnz (dif : Int) : Statement (.jnz dif) :=
  fields8_and_ff00 _ _ _
theorem jn (dif : Int) : Statement (.jn dif) :=
  fields8_and_ff00 _ _ _
theorem jnn (dif : Int) : Statement (.jnn dif) :=
  fields8_and_ff00 _ _ _
theorem jp (dif : Int) : Statement (.jp dif) :=
  fields8_and_ff00 _ _ _
theorem jnp (dif : Int) : Statement (.jnp dif) :=
  fields8_and_ff00 _ _ _
theorem jc (dif : Int) : Statement (.jc dif) :=
  fields8_and_ff00 _ _ _
theorem jnc (dif : Int) : Statement (.jnc dif) :=
  fields8_and_ff00 _ _ _
theorem jv (dif : Int) : Statement (.jv dif) :=
  fields8_and_ff00 _ _ _
theorem jnv (dif : Int) : Statement (.jnv dif) :=
  fields8_and_ff00 _ _ _
theorem ja (dif : Int) : Statement (.ja dif) :=
  fields8_and_ff00 _ _ _
theorem jna (dif : Int) : Statement (.jna dif) :=
  fields8_and_ff00 _ _ _
theorem jlt (dif : Int) : Statement (.jlt dif) :=
  fields8_and_ff00 _ _ _
theorem jle (dif : Int) : Statement (.jle dif) :=
  fields8_and_ff00 _ _ _
theorem jgt (dif : Int) : Statement (.jgt dif) :=
  fields8_and_ff00 _ _ _
theorem jge (dif : Int) : Statement (.jge dif) :=
  fields8_and_ff00 _ _ _
theorem jmp (dif : Int) : Statement (.jmp dif) :=
  fields12_and_f000 _ _
theorem call (dif : Int) : Statement (.call dif) :=
  fields12_and_f000 _ _
theorem callf (dif : Int) : Statement (.callf dif) :=
  fields12_and_f000 _ _
theorem jmpr (rs : Reg) : Statement (.jmpr rs) :=
  fields_and_ff00 _ _ _ _
theorem cr (rs : Reg) : Statement (.cr rs) :=
  fields_and_ff00 _ _ _ _
theorem crf (rs : Reg) : Statement (.crf rs) :=
  fields_and_ff00 _ _ _ _
theorem ret : Statement (.ret) :=
  fields_and_ff00 _ _ _ _
theorem retf : Statement (.retf) :=
  fields_and_ff00 _ _ _ _
theorem swe (k : Nat) : Statement (.swe k) :=
  fields8_and_ff00 _ _ _
theorem rfe : Statement (.rfe) :=
  fields_and_ff00 _ _ _ _
theorem nop : Statement (.nop) :=
  fields_and_ff00 _ _ _ _

end Sys2Proof.Laws.EncodesItsRow
end

