-- ==== Sys2Proof/Tests/Slice0.lean ====
section
/-!
SUPPORT. Tests: an ill-formed term for each check of WellFormed; every constructor's decoding, from a word written out bit
by bit from the encoding column of 30_encoding.md (R92, R101 to R105) and the encoding lines of the rules; one step of the
test vectors of 95_test_vectors.md (A, B, S, T, F, E: the identifier stands in each docstring); the assembler (the examples of
49_assembler.md); and, for each statement with hypotheses, a state and operands that meet them all.
-/
namespace Sys2Proof.Tests

open Sys2Proof Sys2Proof.Machine

/-! ### WellFormed (R95 to R97) -/

theorem test_isK4_refuses_8 : (Instr.addi (.r 1) 8).wellFormed = false := by decide
theorem test_isK4_refuses_minus_9 : (Instr.cmpi (.r 1) (-9)).wellFormed = false := by decide
theorem test_isN4_refuses_16 : (Instr.shr (.r 1) 16).wellFormed = false := by decide
theorem test_isOff_refuses_16 : (Instr.ldo (.r 1) (.r 2) 16).wellFormed = false := by decide
theorem test_isOff_refuses_odd : (Instr.sto (.r 1) 3 (.r 2)).wellFormed = false := by decide
theorem test_isS8_refuses_128 : (Instr.movl (.r 1) 128).wellFormed = false := by decide
theorem test_isS8_refuses_minus_129 : (Instr.jz (-129)).wellFormed = false := by decide
theorem test_isU8_refuses_256 : (Instr.swe 256).wellFormed = false := by decide
theorem test_isS12_refuses_2048 : (Instr.jmp 2048).wellFormed = false := by decide

/-! ### Decoding, one word written out for each constructor -/

theorem test_decode_add : decodeTableWord 16 0b0000_0000_0001_0010 = some (.add (.r 1) (.r 2)) := by decide
theorem test_decode_addi : decodeTableWord 16 0b0000_0001_0001_1101 = some (.addi (.r 1) (-3)) := by decide
theorem test_decode_addc : decodeTableWord 16 0b0000_0010_0001_0010 = some (.addc (.r 1) (.r 2)) := by decide
theorem test_decode_sub : decodeTableWord 16 0b0000_0011_0001_0010 = some (.sub (.r 1) (.r 2)) := by decide
theorem test_decode_subi : decodeTableWord 16 0b0000_0100_0001_1101 = some (.subi (.r 1) (-3)) := by decide
theorem test_decode_subb : decodeTableWord 16 0b0000_0101_0001_0010 = some (.subb (.r 1) (.r 2)) := by decide
theorem test_decode_cmp : decodeTableWord 16 0b0000_0110_0001_0010 = some (.cmp (.r 1) (.r 2)) := by decide
theorem test_decode_cmpi : decodeTableWord 16 0b0000_0111_0001_1101 = some (.cmpi (.r 1) (-3)) := by decide
theorem test_decode_mul : decodeTableWord 16 0b0000_1000_0001_0010 = some (.mul (.r 1) (.r 2)) := by decide
theorem test_decode_div : decodeTableWord 16 0b0000_1001_0001_0010 = some (.div (.r 1) (.r 2)) := by decide
theorem test_decode_mod : decodeTableWord 16 0b0000_1010_0001_0010 = some (.mod (.r 1) (.r 2)) := by decide
theorem test_decode_neg : decodeTableWord 16 0b0000_1011_0001_1010 = some (.neg (.r 1)) := by decide
theorem test_decode_shra : decodeTableWord 16 0b0000_1110_0001_0110 = some (.shra (.r 1) 6) := by decide
theorem test_decode_shla : decodeTableWord 16 0b0000_1111_0001_0110 = some (.shla (.r 1) 6) := by decide
theorem test_decode_and : decodeTableWord 16 0b0001_0000_0001_0010 = some (.and (.r 1) (.r 2)) := by decide
theorem test_decode_or : decodeTableWord 16 0b0001_0001_0001_0010 = some (.or (.r 1) (.r 2)) := by decide
theorem test_decode_not : decodeTableWord 16 0b0001_0010_0001_1010 = some (.not (.r 1)) := by decide
theorem test_decode_xor : decodeTableWord 16 0b0001_0011_0001_0010 = some (.xor (.r 1) (.r 2)) := by decide
theorem test_decode_test : decodeTableWord 16 0b0001_0100_0001_0010 = some (.test (.r 1) (.r 2)) := by decide
theorem test_decode_bit : decodeTableWord 16 0b0001_0101_0001_0110 = some (.bit (.r 1) 6) := by decide
theorem test_decode_setbit : decodeTableWord 16 0b0001_0110_0001_0110 = some (.setbit (.r 1) 6) := by decide
theorem test_decode_clrbit : decodeTableWord 16 0b0001_0111_0001_0110 = some (.clrbit (.r 1) 6) := by decide
theorem test_decode_cplbit : decodeTableWord 16 0b0001_1000_0001_0110 = some (.cplbit (.r 1) 6) := by decide
theorem test_decode_shr : decodeTableWord 16 0b0001_1001_0001_0110 = some (.shr (.r 1) 6) := by decide
theorem test_decode_shl : decodeTableWord 16 0b0001_1010_0001_0110 = some (.shl (.r 1) 6) := by decide
theorem test_decode_ror : decodeTableWord 16 0b0001_1011_0001_0110 = some (.ror (.r 1) 6) := by decide
theorem test_decode_rol : decodeTableWord 16 0b0001_1100_0001_0110 = some (.rol (.r 1) 6) := by decide
theorem test_decode_rorc : decodeTableWord 16 0b0001_1101_0001_0110 = some (.rorc (.r 1) 6) := by decide
theorem test_decode_rolc : decodeTableWord 16 0b0001_1110_0001_0110 = some (.rolc (.r 1) 6) := by decide
theorem test_decode_ldo : decodeTableWord 16 0b0010_0001_0010_1110 = some (.ldo (.r 1) (.r 2) (-4)) := by decide
theorem test_decode_ldr : decodeTableWord 16 0b0011_0001_0010_0011 = some (.ldr (.r 1) (.r 2) (.r 3)) := by decide
theorem test_decode_sto : decodeTableWord 16 0b0100_0010_0001_1110 = some (.sto (.r 1) (-4) (.r 2)) := by decide
theorem test_decode_str : decodeTableWord 16 0b0101_0010_0001_0011 = some (.str (.r 1) (.r 3) (.r 2)) := by decide
theorem test_decode_ldb : decodeTableWord 16 0b0110_0000_0001_0010 = some (.ldb (.r 1) (.r 2)) := by decide
theorem test_decode_stb : decodeTableWord 16 0b0110_0001_0001_0010 = some (.stb (.r 1) (.r 2)) := by decide
theorem test_decode_ldp : decodeTableWord 16 0b0110_0010_0001_0010 = some (.ldp (.r 1) (.r 2)) := by decide
theorem test_decode_stp : decodeTableWord 16 0b0110_0011_0001_0010 = some (.stp (.r 1) (.r 2)) := by decide
theorem test_decode_movrr : decodeTableWord 16 0b0110_0100_0001_0010 = some (.movrr (.r 1) (.r 2)) := by decide
theorem test_decode_movar : decodeTableWord 16 0b0110_0101_0001_0010 = some (.movar 1 (.r 2)) := by decide
theorem test_decode_movra : decodeTableWord 16 0b0110_0110_0001_0010 = some (.movra (.r 1) 2) := by decide
theorem test_decode_movru : decodeTableWord 16 0b0110_0111_0001_1010 = some (.movru (.r 1)) := by decide
theorem test_decode_movur : decodeTableWord 16 0b0110_1000_1010_0010 = some (.movur (.r 2)) := by decide
theorem test_decode_swapr : decodeTableWord 16 0b0110_1001_0001_0010 = some (.swapr (.r 1) (.r 2)) := by decide
theorem test_decode_swapm : decodeTableWord 16 0b0110_1010_0001_0010 = some (.swapm (.r 1) (.r 2)) := by decide
theorem test_decode_push : decodeTableWord 16 0b0110_1011_0001_1010 = some (.push (.r 1)) := by decide
theorem test_decode_pop : decodeTableWord 16 0b0110_1100_0001_1010 = some (.pop (.r 1)) := by decide
theorem test_decode_movl : decodeTableWord 16 0b0111_0001_1000_0001 = some (.movl (.r 1) (-127)) := by decide
theorem test_decode_movh : decodeTableWord 16 0b1000_0001_1111_0011 = some (.movh (.r 1) 0xF3) := by decide
theorem test_decode_jz : decodeTableWord 16 0b1001_0000_1111_1011 = some (.jz (-5)) := by decide
theorem test_decode_jnz : decodeTableWord 16 0b1001_0001_1111_1011 = some (.jnz (-5)) := by decide
theorem test_decode_jn : decodeTableWord 16 0b1001_0010_1111_1011 = some (.jn (-5)) := by decide
theorem test_decode_jnn : decodeTableWord 16 0b1001_0011_1111_1011 = some (.jnn (-5)) := by decide
theorem test_decode_jp : decodeTableWord 16 0b1001_0100_1111_1011 = some (.jp (-5)) := by decide
theorem test_decode_jnp : decodeTableWord 16 0b1001_0101_1111_1011 = some (.jnp (-5)) := by decide
theorem test_decode_jc : decodeTableWord 16 0b1001_0110_1111_1011 = some (.jc (-5)) := by decide
theorem test_decode_jnc : decodeTableWord 16 0b1001_0111_1111_1011 = some (.jnc (-5)) := by decide
theorem test_decode_jv : decodeTableWord 16 0b1001_1000_1111_1011 = some (.jv (-5)) := by decide
theorem test_decode_jnv : decodeTableWord 16 0b1001_1001_1111_1011 = some (.jnv (-5)) := by decide
theorem test_decode_ja : decodeTableWord 16 0b1001_1010_1111_1011 = some (.ja (-5)) := by decide
theorem test_decode_jna : decodeTableWord 16 0b1001_1011_1111_1011 = some (.jna (-5)) := by decide
theorem test_decode_jlt : decodeTableWord 16 0b1001_1100_1111_1011 = some (.jlt (-5)) := by decide
theorem test_decode_jle : decodeTableWord 16 0b1001_1101_1111_1011 = some (.jle (-5)) := by decide
theorem test_decode_jgt : decodeTableWord 16 0b1001_1110_1111_1011 = some (.jgt (-5)) := by decide
theorem test_decode_jge : decodeTableWord 16 0b1001_1111_1111_1011 = some (.jge (-5)) := by decide
theorem test_decode_jmp : decodeTableWord 16 0b1010_1000_0000_0001 = some (.jmp (-2047)) := by decide
theorem test_decode_call : decodeTableWord 16 0b1011_1000_0000_0001 = some (.call (-2047)) := by decide
theorem test_decode_callf : decodeTableWord 16 0b1100_1000_0000_0001 = some (.callf (-2047)) := by decide
theorem test_decode_jmpr : decodeTableWord 16 0b1101_0000_1010_0010 = some (.jmpr (.r 2)) := by decide
theorem test_decode_cr : decodeTableWord 16 0b1101_0001_1010_0010 = some (.cr (.r 2)) := by decide
theorem test_decode_crf : decodeTableWord 16 0b1101_0010_1010_0010 = some (.crf (.r 2)) := by decide
theorem test_decode_ret : decodeTableWord 16 0b1101_0011_1010_1010 = some (.ret) := by decide
theorem test_decode_retf : decodeTableWord 16 0b1101_0100_1010_1010 = some (.retf) := by decide
theorem test_decode_swe : decodeTableWord 16 0b1101_0101_1010_0101 = some (.swe 165) := by decide
theorem test_decode_rfe : decodeTableWord 16 0b1101_0110_1010_1010 = some (.rfe) := by decide
theorem test_decode_nop : decodeTableWord 16 0b1101_0111_1010_1010 = some (.nop) := by decide
/-- The sixteen register numbers (R20, R94). -/
theorem test_register_numbers : (List.range 16).map (fun k => Reg.ofField (BitVec.ofNat 4 k)) =
    [.r 0, .r 1, .r 2, .r 3, .r 4, .r 5, .r 6, .r 7, .r 8, .r 9, .r 10, .rl, .sp, .re, .bte, .temp] := by decide

/-- A free second opcode (R101, R106). -/
theorem test_decode_refuses_0C00 : decode 0x0C00 = .error .freeAritop := by rfl

/-- An unused first opcode (R106). -/
theorem test_decode_refuses_E123 : decode 0xE123 = .error .unusedFirstOpcode := by rfl

/-! ### One step from a small state -/

/-- After reset with pc at `pc`, SSP = 2000H and BTE = 0040H, the cells and words of memory listed, and `w` where the step
fetches: the state in which the vectors of 95_test_vectors.md start. -/
def before (pc : Word) (cells : List (Phys × Word)) (words : List (Word × Word)) (w : Nat) : State :=
  let s := { State.reset with pc := pc, ssp := 0x2000, bte := 0x0040 }
  let s := cells.foldl (fun t c => t.setCell c.1 c.2) s
  (words.foldl (fun t c => t.setWord c.1 c.2) s).withFetchWord 16 w

/-- What is seen after one step: pc, some cells, some words of memory. -/
def seen (s : State) (cells : List Phys) (words : List Word) : Option (Word × List Word × List Word) :=
  match step s with
  | .next t => some (t.pc, cells.map t.cell, words.map t.wordAt)
  | _ => none

/-- A4: `ADD R1, R2` -/
theorem test_step_add_A4 : seen (before 0x0100 [(.gpr 1, 0x8000), (.gpr 2, 0x8000)] [] 0x0012) [.gpr 1, .re] [] =
    some (0x0102, [0x0000, 0x000D], []) := by decide

/-- A6: `ADD R1, R2` -/
theorem test_step_add_A6 : seen (before 0x0100 [(.gpr 1, 0x7FFF), (.gpr 2, 0x0001), (.re, 0x0020)] [(0x004A, 0x080A)] 0x0012) [.gpr 1, .temp, .ssp, .re] [0x1FFC, 0x1FFE] =
    some (0x080A, [0x8000, 0x002A, 0x1FFC, 0x0000], [0x002A, 0x0102]) := by decide

/-- A11: `ADD R1, -8` -/
theorem test_step_addi_A11 : seen (before 0x0100 [(.gpr 1, 0x8000)] [] 0x0118) [.gpr 1, .re] [] =
    some (0x0102, [0x7FF8, 0x000C], []) := by decide

/-- A13: `ADDC R1, R3` -/
theorem test_step_addc_A13 : seen (before 0x0100 [(.gpr 1, 0x7FFF), (.gpr 3, 0x0000), (.re, 0x0004)] [] 0x0213) [.gpr 1, .re] [] =
    some (0x0102, [0x8000, 0x000A], []) := by decide

/-- A19: `SUB R1, R2` -/
theorem test_step_sub_A19 : seen (before 0x0100 [(.gpr 1, 0x7FFF), (.gpr 2, 0xFFFF)] [] 0x0312) [.gpr 1, .re] [] =
    some (0x0102, [0x8000, 0x000E], []) := by decide

/-- A22: `SUB R1, -8` -/
theorem test_step_subi_A22 : seen (before 0x0100 [(.gpr 1, 0x0000)] [] 0x0418) [.gpr 1, .re] [] =
    some (0x0102, [0x0008, 0x0004], []) := by decide

/-- A24: `SUBB R1, R3` -/
theorem test_step_subb_A24 : seen (before 0x0100 [(.gpr 1, 0x0000), (.gpr 3, 0x0000), (.re, 0x0004)] [] 0x0513) [.gpr 1, .re] [] =
    some (0x0102, [0xFFFF, 0x0006], []) := by decide

/-- A27: `CMP R1, R2` -/
theorem test_step_cmp_A27 : seen (before 0x0100 [(.gpr 1, 0x8000), (.gpr 2, 0x0001)] [] 0x0612) [.re] [] =
    some (0x0102, [0x0008], []) := by decide

/-- A30: `CMP RE, R2` -/
theorem test_step_cmp_A30 : seen (before 0x0100 [(.re, 0x0005), (.gpr 2, 0x0005)] [] 0x06D2) [.re] [] =
    some (0x0102, [0x0001], []) := by decide

/-- A33: `CMP R1, -1` -/
theorem test_step_cmpi_A33 : seen (before 0x0100 [(.gpr 1, 0x7FFF)] [] 0x071F) [.re] [] =
    some (0x0102, [0x000E], []) := by decide

/-- A39: `MUL R1, R2` -/
theorem test_step_mul_A39 : seen (before 0x0100 [(.gpr 1, 0x00B5), (.gpr 2, 0x00B5)] [] 0x0812) [.gpr 1] [] =
    some (0x0102, [0x7FF9], []) := by decide

/-- A35: `MUL R1, R2` -/
theorem test_step_mul_A35 : seen (before 0x0100 [(.gpr 1, 0xFFFF), (.gpr 2, 0xFFFF)] [] 0x0812) [.gpr 1] [] =
    some (0x0102, [0x0001], []) := by decide

/-- A42: `DIV R1, R2` -/
theorem test_step_div_A42 : seen (before 0x0100 [(.gpr 1, 0xFFF9), (.gpr 2, 0x0002)] [] 0x0912) [.gpr 1] [] =
    some (0x0102, [0xFFFD], []) := by decide

/-- A43: `DIV R1, R2` -/
theorem test_step_div_A43 : seen (before 0x0100 [(.gpr 1, 0x0007), (.gpr 2, 0xFFFE)] [] 0x0912) [.gpr 1] [] =
    some (0x0102, [0xFFFD], []) := by decide

/-- A52: `MOD R1, R2` -/
theorem test_step_mod_A52 : seen (before 0x0100 [(.gpr 1, 0xFFF9), (.gpr 2, 0x0002)] [] 0x0A12) [.gpr 1] [] =
    some (0x0102, [0xFFFF], []) := by decide

/-- A55: `MOD R1, R2` -/
theorem test_step_mod_A55 : seen (before 0x0100 [(.gpr 1, 0x0005), (.gpr 2, 0x0000), (.re, 0x0040)] [(0x004C, 0x080C)] 0x0A12) [.temp, .ssp, .re] [0x1FFC, 0x1FFE] =
    some (0x080C, [0x0040, 0x1FFC, 0x0000], [0x0040, 0x0102]) := by decide

/-- A58: `NEG R5` -/
theorem test_step_neg_A58 : seen (before 0x0100 [(.gpr 5, 0x8000)] [] 0x0B50) [.gpr 5, .re] [] =
    some (0x0102, [0x8000, 0x000E], []) := by decide

/-- S9: `SHRA R1, 1` -/
theorem test_step_shra_S9 : seen (before 0x0100 [(.gpr 1, 0xFFFF)] [] 0x0E11) [.gpr 1, .re] [] =
    some (0x0102, [0xFFFF, 0x0006], []) := by decide

/-- S12: `SHRA R1, 0` -/
theorem test_step_shra_S12 : seen (before 0x0100 [(.gpr 1, 0x0000), (.re, 0x0006)] [] 0x0E10) [.gpr 1, .re] [] =
    some (0x0102, [0x0000, 0x0005], []) := by decide

/-- S15: `SHLA R1, 4` -/
theorem test_step_shla_S15 : seen (before 0x0100 [(.gpr 1, 0xFFFF)] [] 0x0F14) [.gpr 1, .re] [] =
    some (0x0102, [0xFFF0, 0x0006], []) := by decide

/-- S17: `SHLA R1, 1` -/
theorem test_step_shla_S17 : seen (before 0x0100 [(.gpr 1, 0x8000)] [] 0x0F11) [.gpr 1, .re] [] =
    some (0x0102, [0x0000, 0x000D], []) := by decide

/-- B1: `AND R1, R2` -/
theorem test_step_and_B1 : seen (before 0x0100 [(.gpr 1, 0xF0F0), (.gpr 2, 0x3C3C), (.re, 0x000C)] [] 0x1012) [.gpr 1, .re] [] =
    some (0x0102, [0x3030, 0x000C], []) := by decide

/-- B3: `AND RE, R2` -/
theorem test_step_and_B3 : seen (before 0x0100 [(.re, 0x008F), (.gpr 2, 0x00F0)] [] 0x10D2) [.re] [] =
    some (0x0102, [0x0080], []) := by decide

/-- B4: `OR R1, R2` -/
theorem test_step_or_B4 : seen (before 0x0100 [(.gpr 1, 0xF0F0), (.gpr 2, 0x3C3C)] [] 0x1112) [.gpr 1, .re] [] =
    some (0x0102, [0xFCFC, 0x0002], []) := by decide

/-- B6: `NOT R1` -/
theorem test_step_not_B6 : seen (before 0x0100 [(.gpr 1, 0x00FF)] [] 0x1210) [.gpr 1, .re] [] =
    some (0x0102, [0xFF00, 0x0002], []) := by decide

/-- B9: `XOR R1, R1` -/
theorem test_step_xor_B9 : seen (before 0x0100 [(.gpr 1, 0x1234), (.re, 0x000C)] [] 0x1311) [.gpr 1, .re] [] =
    some (0x0102, [0x0000, 0x000D], []) := by decide

/-- B11: `TEST R1, R2` -/
theorem test_step_test_B11 : seen (before 0x0100 [(.gpr 1, 0x8001), (.gpr 2, 0x8000)] [] 0x1412) [.re] [] =
    some (0x0102, [0x0002], []) := by decide

/-- B14: `BIT R1, 3` -/
theorem test_step_bit_B14 : seen (before 0x0100 [(.gpr 1, 0x0004), (.re, 0x000E)] [] 0x1513) [.re] [] =
    some (0x0102, [0x000F], []) := by decide

/-- B15: `BIT RE, 0` -/
theorem test_step_bit_B15 : seen (before 0x0100 [(.re, 0x0001)] [] 0x15D0) [.re] [] =
    some (0x0102, [0x0000], []) := by decide

/-- B16: `SET R1, 15` -/
theorem test_step_setbit_B16 : seen (before 0x0100 [(.gpr 1, 0x0000)] [] 0x161F) [.gpr 1, .re] [] =
    some (0x0102, [0x8000, 0x0002], []) := by decide

/-- B18: `SET RE, 7 (EI)` -/
theorem test_step_setbit_B18 : seen (before 0x0100 [(.re, 0x0105)] [] 0x16D7) [.re] [] =
    some (0x0102, [0x0185], []) := by decide

/-- B21: `CLR R1, 0` -/
theorem test_step_clrbit_B21 : seen (before 0x0100 [(.gpr 1, 0x0001)] [] 0x1710) [.gpr 1, .re] [] =
    some (0x0102, [0x0000, 0x0001], []) := by decide

/-- B22: `CLR RE, 2 (CLRC)` -/
theorem test_step_clrbit_B22 : seen (before 0x0100 [(.re, 0x0087)] [] 0x17D2) [.re] [] =
    some (0x0102, [0x0083], []) := by decide

/-- B25: `CPL R1, 0` -/
theorem test_step_cplbit_B25 : seen (before 0x0100 [(.gpr 1, 0x0000)] [] 0x1810) [.gpr 1, .re] [] =
    some (0x0102, [0x0001, 0x0000], []) := by decide

/-- S2: `SHR R1, 15` -/
theorem test_step_shr_S2 : seen (before 0x0100 [(.gpr 1, 0xC000)] [] 0x191F) [.gpr 1, .re] [] =
    some (0x0102, [0x0001, 0x0004], []) := by decide

/-- S3: `SHR R1, 0` -/
theorem test_step_shr_S3 : seen (before 0x0100 [(.gpr 1, 0x8005), (.re, 0x0004)] [] 0x1910) [.gpr 1, .re] [] =
    some (0x0102, [0x8005, 0x0006], []) := by decide

/-- S6: `SHL R1, 15` -/
theorem test_step_shl_S6 : seen (before 0x0100 [(.gpr 1, 0x0003)] [] 0x1A1F) [.gpr 1, .re] [] =
    some (0x0102, [0x8000, 0x0006], []) := by decide

/-- S20: `ROR R1, 1` -/
theorem test_step_ror_S20 : seen (before 0x0100 [(.gpr 1, 0x0001)] [] 0x1B11) [.gpr 1, .re] [] =
    some (0x0102, [0x8000, 0x0006], []) := by decide

/-- S22: `ROL R1, 4` -/
theorem test_step_rol_S22 : seen (before 0x0100 [(.gpr 1, 0x8001)] [] 0x1C14) [.gpr 1, .re] [] =
    some (0x0102, [0x0018, 0x0000], []) := by decide

/-- S25: `RORC R1, 4` -/
theorem test_step_rorc_S25 : seen (before 0x0100 [(.gpr 1, 0x1234), (.re, 0x0004)] [] 0x1D14) [.gpr 1, .re] [] =
    some (0x0102, [0x9123, 0x0002], []) := by decide

/-- S28: `RORC R1, 15` -/
theorem test_step_rorc_S28 : seen (before 0x0100 [(.gpr 1, 0x8001), (.re, 0x0000)] [] 0x1D1F) [.gpr 1, .re] [] =
    some (0x0102, [0x0005, 0x0000], []) := by decide

/-- S30: `ROLC R1, 4` -/
theorem test_step_rolc_S30 : seen (before 0x0100 [(.gpr 1, 0x1234), (.re, 0x0004)] [] 0x1E14) [.gpr 1, .re] [] =
    some (0x0102, [0x2348, 0x0004], []) := by decide

/-- S33: `ROLC R1, 15` -/
theorem test_step_rolc_S33 : seen (before 0x0100 [(.gpr 1, 0x8001), (.re, 0x0000)] [] 0x1E1F) [.gpr 1, .re] [] =
    some (0x0102, [0xA000, 0x0002], []) := by decide

/-- T2: `MOV R1, [R2-16]` -/
theorem test_step_ldo_T2 : seen (before 0x0100 [(.gpr 2, 0x1010)] [(0x1000, 0xBEEF)] 0x2128) [.gpr 1, .re] [] =
    some (0x0102, [0xBEEF, 0x0000], []) := by decide

/-- T5: `MOV R1, [R2]` -/
theorem test_step_ldo_T5 : seen (before 0x0100 [(.gpr 2, 0x1001), (.gpr 1, 0x7777)] [(0x0052, 0x0812)] 0x2120) [.gpr 1, .ssp, .re] [0x1FFC, 0x1FFE] =
    some (0x0812, [0x7777, 0x1FFC, 0x0000], [0x0000, 0x0102]) := by decide

/-- T8: `MOV R1, [R2+R3]` -/
theorem test_step_ldr_T8 : seen (before 0x0100 [(.gpr 2, 0x1000), (.gpr 3, 0x0004)] [(0x1004, 0x1234)] 0x3123) [.gpr 1, .re] [] =
    some (0x0102, [0x1234, 0x0000], []) := by decide

/-- T11: `MOV [R1-2], R5` -/
theorem test_step_sto_T11 : seen (before 0x0100 [(.gpr 1, 0x2000), (.gpr 5, 0xBEEF)] [] 0x451F) [.re] [0x1FFE] =
    some (0x0102, [0x0000], [0xBEEF]) := by decide

/-- T13: `MOV [R2+R3], R1` -/
theorem test_step_str_T13 : seen (before 0x0100 [(.gpr 2, 0x1000), (.gpr 3, 0x0006), (.gpr 1, 0x00AA)] [] 0x5123) [.re] [0x1006] =
    some (0x0102, [0x0000], [0x00AA]) := by decide

/-- T14: `MOVB R1, [R2]` -/
theorem test_step_ldb_T14 : seen (before 0x0100 [(.gpr 2, 0x1001), (.gpr 1, 0xFFFF)] [(0x1000, 0x119C)] 0x6012) [.gpr 1, .re] [] =
    some (0x0102, [0x009C, 0x0000], []) := by decide

/-- T16: `MOVB [R1], R2` -/
theorem test_step_stb_T16 : seen (before 0x0100 [(.gpr 1, 0x1001), (.gpr 2, 0x1234)] [(0x1000, 0xAABB)] 0x6112) [.re] [0x1000] =
    some (0x0102, [0x0000], [0xAA34]) := by decide

/-- T17: `MOVB [R1], R2` -/
theorem test_step_stb_T17 : seen (before 0x0100 [(.gpr 1, 0x1000), (.gpr 2, 0x1234)] [(0x1000, 0xAABB)] 0x6112) [.re] [0x1000] =
    some (0x0102, [0x0000], [0x34BB]) := by decide

/-- T18: `MOVP R1, [R2]` -/
theorem test_step_ldp_T18 : seen (before 0x0100 [(.gpr 2, 0xC000)] [(0xC000, 0x00FF)] 0x6212) [.gpr 1, .re] [] =
    some (0x0102, [0x00FF, 0x0000], []) := by decide

/-- T19: `MOVP [R1], R2` -/
theorem test_step_stp_T19 : seen (before 0x0100 [(.gpr 1, 0xC000), (.gpr 2, 0x0001)] [] 0x6312) [.re] [0xC000] =
    some (0x0102, [0x0000], [0x0001]) := by decide

/-- T28: `MOV RE, R2` -/
theorem test_step_movrr_T28 : seen (before 0x0100 [(.gpr 2, 0x008F)] [] 0x64D2) [.re] [] =
    some (0x0102, [0x008F], []) := by decide

/-- T29: `MOV R1, SP` -/
theorem test_step_movrr_T29 : seen (before 0x0100 [(.re, 0x2000), (.ssp, 0x2000), (.usp, 0x3000)] [] 0x641C) [.gpr 1, .re] [] =
    some (0x0102, [0x3000, 0x2000], []) := by decide

/-- T31: `MOV A1, R2` -/
theorem test_step_movar_T31 : seen (before 0x0100 [(.gpr 2, 0x00AA)] [] 0x6512) [.aux 1, .re] [] =
    some (0x0102, [0x00AA, 0x0000], []) := by decide

/-- T32: `MOV R1, A2` -/
theorem test_step_movra_T32 : seen (before 0x0100 [(.aux 2, 0x00AA)] [] 0x6612) [.gpr 1, .re] [] =
    some (0x0102, [0x00AA, 0x0000], []) := by decide

/-- T33: `MOV R1, USP` -/
theorem test_step_movru_T33 : seen (before 0x0100 [(.usp, 0x3000), (.ssp, 0x4000)] [] 0x6710) [.gpr 1, .re] [] =
    some (0x0102, [0x3000, 0x0000], []) := by decide

/-- T34: `MOV USP, R2` -/
theorem test_step_movur_T34 : seen (before 0x0100 [(.gpr 2, 0x3000), (.ssp, 0x4000)] [] 0x6802) [.usp, .re] [] =
    some (0x0102, [0x3000, 0x0000], []) := by decide

/-- T35: `SWAP R1, R2` -/
theorem test_step_swapr_T35 : seen (before 0x0100 [(.gpr 1, 0x1111), (.gpr 2, 0x2222)] [] 0x6912) [.gpr 1, .gpr 2, .temp, .re] [] =
    some (0x0102, [0x2222, 0x1111, 0x1111, 0x0000], []) := by decide

/-- T37: `SWAP R1, [R2]` -/
theorem test_step_swapm_T37 : seen (before 0x0100 [(.gpr 2, 0x1000), (.gpr 1, 0x0001), (.temp, 0x9999)] [(0x1000, 0x0000)] 0x6A12) [.gpr 1, .temp, .re] [0x1000] =
    some (0x0102, [0x0000, 0x0000, 0x0000], [0x0001]) := by decide

/-- T38: `SWAP R1, [R2]` -/
theorem test_step_swapm_T38 : seen (before 0x0100 [(.gpr 2, 0x1001), (.gpr 1, 0x0001), (.temp, 0x9999)] [(0x0052, 0x0812)] 0x6A12) [.gpr 1, .temp, .ssp, .re] [0x1FFC, 0x1FFE] =
    some (0x0812, [0x0001, 0x0000, 0x1FFC, 0x0000], [0x0000, 0x0102]) := by decide

/-- T40: `PUSH SP` -/
theorem test_step_push_T40 : seen (before 0x0100 [(.ssp, 0x2000)] [] 0x6BC0) [.ssp, .re] [0x1FFE] =
    some (0x0102, [0x1FFE, 0x0000], [0x2000]) := by decide

/-- T46: `PUSH R1` -/
theorem test_step_push_T46 : seen (before 0x0100 [(.re, 0x2000), (.usp, 0x3000), (.ssp, 0x2000), (.gpr 1, 0x4321)] [] 0x6B10) [.usp, .re] [0x2FFE] =
    some (0x0102, [0x2FFE, 0x2000], [0x4321]) := by decide

/-- T44: `POP R3` -/
theorem test_step_pop_T44 : seen (before 0x0100 [(.ssp, 0x1FFE)] [(0x1FFE, 0x1234)] 0x6C30) [.gpr 3, .ssp, .re] [] =
    some (0x0102, [0x1234, 0x2000, 0x0000], []) := by decide

/-- T45: `POP RE` -/
theorem test_step_pop_T45 : seen (before 0x0100 [(.ssp, 0x1FFE)] [(0x1FFE, 0x008F)] 0x6CD0) [.ssp, .re] [] =
    some (0x0102, [0x2000, 0x008F], []) := by decide

/-- T22: `MOVL R1, 0FFH` -/
theorem test_step_movl_T22 : seen (before 0x0100 [(.gpr 1, 0x0000)] [] 0x71FF) [.gpr 1, .re] [] =
    some (0x0102, [0xFFFF, 0x0000], []) := by decide

/-- T25: `MOVH R2, 0F3H` -/
theorem test_step_movh_T25 : seen (before 0x0100 [(.gpr 2, 0x0034)] [] 0x82F3) [.gpr 2, .re] [] =
    some (0x0102, [0xF334, 0x0000], []) := by decide

/-- T26: `MOVH RE, 20H` -/
theorem test_step_movh_T26 : seen (before 0x0100 [(.re, 0x0005)] [] 0x8D20) [.re] [] =
    some (0x0102, [0x2005], []) := by decide

/-- F40: `JZ (dif = 80H)` -/
theorem test_step_jz_F40 : seen (before 0x0100 [(.re, 0x0001)] [] 0x9080) [.re] [] =
    some (0x0002, [0x0001], []) := by decide

/-- F3: `JNZ 0110H` -/
theorem test_step_jnz_F3 : seen (before 0x0100 [(.re, 0x0000)] [] 0x9107) [.re] [] =
    some (0x0110, [0x0000], []) := by decide

/-- F5: `JN 0110H` -/
theorem test_step_jn_F5 : seen (before 0x0100 [(.re, 0x0002)] [] 0x9207) [.re] [] =
    some (0x0110, [0x0002], []) := by decide

/-- F8: `JNN 0110H` -/
theorem test_step_jnn_F8 : seen (before 0x0100 [(.re, 0x0002)] [] 0x9307) [.re] [] =
    some (0x0102, [0x0002], []) := by decide

/-- F33: `JP 0110H` -/
theorem test_step_jp_F33 : seen (before 0x0100 [(.re, 0x0002)] [] 0x9407) [.re] [] =
    some (0x0102, [0x0002], []) := by decide

/-- F34: `JNP 0110H` -/
theorem test_step_jnp_F34 : seen (before 0x0100 [(.re, 0x0001)] [] 0x9507) [.re] [] =
    some (0x0110, [0x0001], []) := by decide

/-- F13: `JC 0110H` -/
theorem test_step_jc_F13 : seen (before 0x0100 [(.re, 0x0004)] [] 0x9607) [.re] [] =
    some (0x0110, [0x0004], []) := by decide

/-- F16: `JNC 0110H` -/
theorem test_step_jnc_F16 : seen (before 0x0100 [(.re, 0x0004)] [] 0x9707) [.re] [] =
    some (0x0102, [0x0004], []) := by decide

/-- F17: `JV 0110H` -/
theorem test_step_jv_F17 : seen (before 0x0100 [(.re, 0x0008)] [] 0x9807) [.re] [] =
    some (0x0110, [0x0008], []) := by decide

/-- F20: `JNV 0110H` -/
theorem test_step_jnv_F20 : seen (before 0x0100 [(.re, 0x0008)] [] 0x9907) [.re] [] =
    some (0x0102, [0x0008], []) := by decide

/-- F21: `JA 0110H` -/
theorem test_step_ja_F21 : seen (before 0x0100 [(.re, 0x0010)] [] 0x9A07) [.re] [] =
    some (0x0110, [0x0010], []) := by decide

/-- F24: `JNA 0110H` -/
theorem test_step_jna_F24 : seen (before 0x0100 [(.re, 0x0010)] [] 0x9B07) [.re] [] =
    some (0x0102, [0x0010], []) := by decide

/-- F26: `JLT 0110H` -/
theorem test_step_jlt_F26 : seen (before 0x0100 [(.re, 0x000A)] [] 0x9C07) [.re] [] =
    some (0x0102, [0x000A], []) := by decide

/-- F35: `JLT 0110H` -/
theorem test_step_jlt_F35 : seen (before 0x0100 [(.re, 0x0002)] [] 0x9C07) [.re] [] =
    some (0x0110, [0x0002], []) := by decide

/-- F36: `JLE 0110H` -/
theorem test_step_jle_F36 : seen (before 0x0100 [(.re, 0x0008)] [] 0x9D07) [.re] [] =
    some (0x0110, [0x0008], []) := by decide

/-- F37: `JGT 0110H` -/
theorem test_step_jgt_F37 : seen (before 0x0100 [(.re, 0x0000)] [] 0x9E07) [.re] [] =
    some (0x0110, [0x0000], []) := by decide

/-- F32: `JGE 0110H` -/
theorem test_step_jge_F32 : seen (before 0x0100 [(.re, 0x0008)] [] 0x9F07) [.re] [] =
    some (0x0102, [0x0008], []) := by decide

/-- F45: `JMP (dif = 7FFH)` -/
theorem test_step_jmp_F45 : seen (before 0x2000 [] [] 0xA7FF) [.re] [] =
    some (0x3000, [0x0000], []) := by decide

/-- F49: `CALL 0100H` -/
theorem test_step_call_F49 : seen (before 0x0010 [(.ssp, 0x2000)] [] 0xB077) [.ssp, .re] [0x1FFE] =
    some (0x0100, [0x1FFE, 0x0000], [0x0012]) := by decide

/-- F52: `CALL 0100H` -/
theorem test_step_call_F52 : seen (before 0x0010 [(.re, 0x2000), (.usp, 0x3001), (.ssp, 0x2000)] [(0x0052, 0x0812)] 0xB077) [.temp, .ssp, .usp, .re] [0x1FFC, 0x1FFE] =
    some (0x0812, [0x2000, 0x1FFC, 0x3001, 0x0000], [0x2000, 0x0012]) := by decide

/-- F55: `CALLF 0100H` -/
theorem test_step_callf_F55 : seen (before 0x0010 [] [] 0xC077) [.rl, .re] [] =
    some (0x0100, [0x0012, 0x0000], []) := by decide

/-- F48: `JMP R3` -/
theorem test_step_jmpr_F48 : seen (before 0x0100 [(.gpr 3, 0x1235)] [] 0xD0F3) [.re] [] =
    some (0x1235, [0x0000], []) := by decide

/-- F51: `CALL SP` -/
theorem test_step_cr_F51 : seen (before 0x0010 [(.ssp, 0x2000)] [] 0xD10C) [.ssp, .re] [0x1FFE] =
    some (0x2000, [0x1FFE, 0x0000], [0x0012]) := by decide

/-- F57: `CALLF RL` -/
theorem test_step_crf_F57 : seen (before 0x0010 [(.rl, 0x0400)] [] 0xD20B) [.rl, .re] [] =
    some (0x0012, [0x0012, 0x0000], []) := by decide

/-- F54: `RET` -/
theorem test_step_ret_F54 : seen (before 0x0100 [(.ssp, 0x1FFE)] [(0x1FFE, 0x0013)] 0xD3FF) [.ssp, .re] [] =
    some (0x0013, [0x2000, 0x0000], []) := by decide

/-- F58: `RETF` -/
theorem test_step_retf_F58 : seen (before 0x0100 [(.rl, 0x0012)] [] 0xD400) [.re] [] =
    some (0x0012, [0x0000], []) := by decide

/-- F59: `SWE 7` -/
theorem test_step_swe_F59 : seen (before 0x0100 [(.re, 0x2085), (.ssp, 0x4000), (.usp, 0x3000), (.bte, 0x0200)] [(0x020E, 0x0300)] 0xD507) [.temp, .ssp, .re] [0x3FFC, 0x3FFE] =
    some (0x0300, [0x2085, 0x3FFC, 0x0000], [0x2085, 0x0102]) := by decide

/-- F60: `RFE` -/
theorem test_step_rfe_F60 : seen (before 0x0300 [(.re, 0x0000), (.ssp, 0x3FFC), (.usp, 0x3000)] [(0x3FFC, 0x2085), (0x3FFE, 0x0102)] 0xD600) [.temp, .ssp, .re] [] =
    some (0x0102, [0x2085, 0x4000, 0x2085], []) := by decide

/-- F61: `NOP` -/
theorem test_step_nop_F61 : seen (before 0x0100 [(.re, 0x008F)] [] 0xD700) [.re] [] =
    some (0x0102, [0x008F], []) := by decide

/-- E5: `(word 1F00H)` -/
theorem test_step_invalid_E5 : seen (before 0x0100 [(.re, 0x0000)] [(0x0050, 0x0810)] 0x1F00) [.ssp, .re] [0x1FFC, 0x1FFE] =
    some (0x0810, [0x1FFC, 0x0000], [0x0000, 0x0102]) := by decide

/-! ### Exceptions, interrupts, events -/

/-- E10: a fetch at an odd pc. -/
theorem test_step_fetch_E10 : seen { before 0x0100 [] [(0x0054, 0x0814)] 0xD700 with pc := 0x0101 } [.ssp, .re]
    [0x1FFC, 0x1FFE] = some (0x0814, [0x1FFC, 0x0000], [0x0000, 0x0101]) := by decide

/-- E14: Int1 and Int3 pending, both enabled: Int1 first. -/
theorem test_step_interrupt_E14 : seen { before 0x0100 [(.re, 0x0A80)] [(0x0044, 0x0804)] 0xD700 with
    pend := #v[false, true, false, true] } [.temp, .ssp, .re] [0x1FFC, 0x1FFE] =
    some (0x0804, [0x0A80, 0x1FFC, 0x0000], [0x0A80, 0x0100]) := by decide

/-- E12: a masked interrupt stays pending and NOP runs. -/
theorem test_step_interrupt_E12 : seen { before 0x0100 [(.re, 0x0100)] [] 0xD700 with
    pend := #v[true, false, false, false] } [.re] [] = some (0x0102, [0x0100], []) := by decide

/-- R337: IntAck is 1 in the step that services Int3. -/
theorem test_intAck_of_int3 : (match step { before 0x0100 [(.re, 0x0880)] [(0x0048, 0x0808)] 0xD700 with
    pend := #v[false, false, false, true] } with | .next t => some (t.intAck, t.pend[3], t.pc) | _ => none) =
    some (true, false, 0x0808) := by decide

/-- R338: with an odd SSP an exception entry is the double fault. -/
theorem test_double_fault : (match step (before 0x0100 [(.ssp, 0x2001)] [] 0xD507) with | .fault _ => true | _ => false) =
    true := by decide

/-- R329, R332: an edge on Int0 at the boundary is taken at that boundary. -/
theorem test_edge_is_taken : seen { before 0x0100 [(.re, 0x0180)] [(0x0042, 0x0802)] 0xD700 with env := [[.edge 0]] } [.temp]
    [0x1FFE] = some (0x0802, [0x0180], [0x0100]) := by decide

/-- R350: a DMA write at the boundary with RE.DE = 1 lands, and BusGrant is 1. -/
theorem test_dma_write : (match step { before 0x0100 [(.re, 0x1000)] [] 0xD700 with env := [[.dma (.write 0x1234 0xAB)]] } with
    | .next t => some (t.byteAt 0x1234, t.busGrant) | _ => none) = some (0xAB, true) := by decide

/-- R72: DMA after the fetch overwrites the fetched NOP (with a word that decodes to nothing), which runs all the same. -/
theorem test_dma_after_fetch : (match step { before 0x0100 [(.re, 0x1000)] [] 0xD700 with gaps := [[.write 0x0100 0xE0]] } with
    | .next t => some (t.pc, t.byteAt 0x0100, t.gaps) | _ => none) = some (0x0102, 0xE0, []) := by decide

/-- R72: DMA between the two reads of RFE is seen by the second one. -/
theorem test_dma_inside_rfe : seen { before 0x0100 [(.re, 0x1000)] [(0x2000, 0x0001), (0x2002, 0x0300)] 0xD600 with
    gaps := [[], [.write 0x2000 0xFF, .write 0x2003 0x44], []] } [.re, .ssp] [0x2000] =
    some (0x0344, [0x0001, 0x2004], [0xFF01]) := by decide

/-- R72: no DMA access comes between the read and the write of SWAP Rd, [Rs]; the one after them is not overwritten. -/
theorem test_dma_around_swapm : seen { before 0x0100 [(.re, 0x1000), (.gpr 1, 0x1111), (.gpr 2, 0x3000)] [(0x3000, 0x2222)]
    0x6A12 with gaps := [[.write 0x3000 0x33], [.write 0x3001 0x44]] } [.gpr 1] [0x3000] =
    some (0x0102, [0x3322], [0x1144]) := by decide

/-- R350: with RE.DE = 0 nothing is granted. -/
theorem test_dma_off : (match step { before 0x0100 [] [] 0xD700 with gaps := [[.write 0x1234 0xAB]] } with
    | .next t => some (t.byteAt 0x1234, t.busGrant, t.gaps.length) | _ => none) = some (0x00, false, 1) := by decide

/-! ### The assembler (49_assembler.md) -/

/-- R292: a hexadecimal literal begins with a decimal digit. -/
theorem test_numeric_hex : (Asm.numeric ['0', 'F', 'F', 'H'], Asm.numeric ['F', 'F', 'H']) = (some 255, none) := by decide

/-- R308: MOV Rd, k with one and with two instructions. -/
theorem test_movConstant : (Asm.movConstant (.r 1) (-128), Asm.movConstant (.r 1) 0x12F3) =
    (some [.movl (.r 1) (-128)], some [.movl (.r 1) (-13), .movh (.r 1) 0x12]) := by decide

/-- R268, R300 to R302: a jump to itself, PLACE and WORD. -/
theorem test_assemble : Asm.assemble [.place (.num 0x0010), .instr (some ['f']) .JMP [.const (.sym ['f'])],
    .word none (.num 0x1234)] = some [(0x0010, 0xAF), (0x0011, 0xFF), (0x0012, 0x12), (0x0013, 0x34)] := by decide

/-- R294, R306: PLACE -4 is PLACE 0FFFCH, and a jump at FFFEH to 0000H has the displacement 0. -/
theorem test_assemble_wraps : Asm.assemble [.place (.num 0), .instr (some ['l']) .NOP [], .place (.num (-4)), .instr none .NOP [],
    .instr none .JMP [.const (.sym ['l'])]] =
    some [(0x0000, 0xD7), (0x0001, 0x00), (0xFFFC, 0xD7), (0xFFFD, 0x00), (0xFFFE, 0xA0), (0xFFFF, 0x00)] := by decide

/-- R301, R308: a label that moves by the length of a MOV before it, reached through a chain of EQU symbols. -/
theorem test_assemble_chain : Asm.assemble [.place (.num 0x0200), .instr none .MOV [.reg (.r 1), .const (.sym ['d'])],
    .instr (some ['l']) .NOP [], .equ ['a'] (.sym ['l']), .equ ['b'] (.sym ['a']), .equ ['c'] (.sym ['b']),
    .equ ['d'] (.sym ['c'])] = some [(0x0200, 0x71), (0x0201, 0x04), (0x0202, 0x81), (0x0203, 0x02), (0x0204, 0xD7), (0x0205, 0x00)] := by
  decide

/-- R308: of the two lengths that each agree with their constant, 126 after one instruction and 128 after two, the short one. -/
theorem test_assemble_short : Asm.assemble [.place (.num 124), .instr none .MOV [.reg (.r 1), .const (.sym ['l'])],
    .instr (some ['l']) .NOP []] = some [(124, 0x71), (125, 0x7E), (126, 0xD7), (127, 0x00)] := by decide

/-- R306: a jump takes a label, no number. -/
theorem test_assemble_refuses_number : Asm.assemble [.place (.num 0), .instr none .JMP [.const (.num 0x100)]] = none := by decide

/-! ### For each statement with hypotheses, a state and operands that meet them all

One theorem `witness_<Name>` for each statement: its hypotheses at these states and operands, and those of each of its
clauses, at a boundary value where the clause has a range. -/

/-- After reset, with pc at 0100H, an aligned system stack and exception table, and the cells listed. -/
def held (cells : List (Phys × Word)) : State :=
  cells.foldl (fun t c => t.setCell c.1 c.2) { State.reset with pc := 0x0100, ssp := 0x2000, bte := 0x0040 }

/-- Something read off the next state, if there is one. -/
def answered {α : Type} (r : Result) (f : State → α) : Option α :=
  match r with
  | .next t => some (f t)
  | _ => none

/-- Whether the answer is the double fault, the one fault there is. -/
def faulted (r : Result) : Bool :=
  match r with
  | .fault .doubleFault => true
  | _ => false

theorem witness_DecodeOfEncode : (Instr.sto (.r 1) (-16) .re).WellFormed ∧ (Instr.ldo .sp (.r 10) 14).WellFormed ∧
    (Instr.addi .re (-8)).WellFormed ∧ (Instr.cmpi .re 7).WellFormed ∧ (Instr.shra .temp 15).WellFormed ∧
    (Instr.movl .bte (-128)).WellFormed ∧ (Instr.swe 255).WellFormed ∧ (Instr.jmp (-2048)).WellFormed ∧
    (Instr.call 2047).WellFormed := by decide

theorem witness_EncodeOfDecode : decode 0x0B1F = .ok (.neg (.r 1)) := by rfl

theorem witness_IgnoredFieldsAreIgnored : decode 0x0B1F = .ok (.neg (.r 1)) ∧
    ((0x0B1F : Word) ^^^ 0x0B10) &&& ~~~(Instr.neg (.r 1)).ignoredBits = 0 := ⟨rfl, by decide⟩

/-- The ends of the ranges of invalid words, and their valid neighbours. -/
theorem witness_InvalidWords :
    ([0x0C00, 0x0DFF, 0x1F00, 0x1FFF, 0x6D00, 0x6FFF, 0xD800, 0xDFFF, 0xE000, 0xFFFF].all fun w => (decode w).toOption.isNone) ∧
    ([0x0000, 0x0BFF, 0x0E00, 0x1EFF, 0x2000, 0x6CFF, 0x7000, 0xD7FF].all fun w => (decode w).toOption.isSome) := by decide

theorem witness_StepRunsTheDecodedInstruction :
    let s := before 0x0100 [] [] 0xD700
    s.boundary.readyInt = none ∧ isEven s.boundary.pc = true ∧ s.boundary.fetched = .ok .nop ∧ s.env = [] ∧
    s.flag .de = false ∧ s.gaps = [] :=
  ⟨by decide, by decide, rfl, by decide, by decide, by decide⟩

theorem witness_PlacedWordRunsNext : (Instr.movl (.r 1) (-128)).WellFormed ∧ (held []).canonical = true ∧
    (held []).env = [] ∧ (held []).readyInt = none ∧ isEven (held []).pc = true := by decide

/-- With the trap armed and C = 1 (RE = 0024H): the largest sum that fits, 7FF7H + 7 + 1; and the bounds of `k`. -/
theorem witness_AdditionResults :
    let s := held [(.re, 0x0024), (.gpr 1, 0x7FF7), (.gpr 2, 0x0007)]
    Fits16 ((s.reg (.r 1)).toInt + (s.reg (.r 2)).toInt + (s.flag .c).toNat) ∧ s.flag .c = true ∧
    s.reg (.r 2) = BitVec.ofInt 16 7 ∧ (held []).flag .tv = false ∧ (held []).flag .c = false ∧
    (held [(.gpr 2, 0xFFF8)]).reg (.r 2) = BitVec.ofInt 16 (-8) := by decide

/-- With the trap armed and C = 1: the smallest difference that fits, 8008H - 7 - 1; and a = 0 for NEG. -/
theorem witness_SubtractionResults :
    let s := held [(.re, 0x0024), (.gpr 1, 0x8008), (.gpr 2, 0x0007)]
    Fits16 ((s.reg (.r 1)).toInt - (s.reg (.r 2)).toInt - (s.flag .c).toNat) ∧ s.flag .c = true ∧
    s.reg (.r 2) = BitVec.ofInt 16 7 ∧ (held []).flag .tv = false ∧ (held []).flag .c = false ∧
    Fits16 ((0 : Word).toInt - (s.reg (.r 2)).toInt - false.toNat) := by decide

theorem witness_ComparisonFlags :
    let s := held [(.re, 0x0020), (.gpr 1, 0x8007), (.gpr 2, 0x0007)]
    Fits16 ((s.reg (.r 1)).toInt - (s.reg (.r 2)).toInt) ∧ s.reg (.r 2) = BitVec.ofInt 16 7 ∧
    (held []).flag .tv = false := by decide

theorem witness_JumpsAfterCompare : (held [(.gpr 1, 0x8000), (.gpr 2, 0x0001)]).flag .tv = false := by decide

/-- Fits with the trap armed: 181 * 181; RE as either operand; the same register twice. -/
theorem witness_MultiplicationResult :
    let s := held [(.re, 0x0020), (.gpr 1, 0x00B5), (.gpr 2, 0x00B5)]
    Fits16 ((s.reg (.r 1)).toInt * (s.reg (.r 2)).toInt) ∧ Fits16 ((s.reg .re).toInt * (s.reg (.r 1)).toInt) ∧
    Fits16 ((s.reg (.r 1)).toInt * (s.reg (.r 1)).toInt) ∧ Reg.r 1 ≠ .r 2 ∧ Reg.r 1 ≠ .re := by decide

theorem witness_DivisionResults :
    let s := held [(.re, 0x0060), (.gpr 1, 0x8000), (.gpr 2, 0xFFFE), (.gpr 3, 0xFFFF)]
    s.reg (.r 2) ≠ 0 ∧ ¬ (s.reg (.r 1) = 0x8000 ∧ s.reg (.r 2) = 0xFFFF) ∧ s.reg (.r 3) = 0xFFFF ∧ s.reg (.r 3) ≠ 0 := by
  decide

theorem witness_DivisionOfNonNegatives :
    (0x7FFF : Word).toNat < 0x8000 ∧ (0x0001 : Word).toNat < 0x8000 ∧ (0x0001 : Word) ≠ 0 ∧
    let s := held [(.gpr 1, 0x7FFF), (.gpr 2, 0x0001)]
    Reg.r 1 ≠ .re ∧ (s.reg (.r 1)).toNat < 0x8000 ∧ (s.reg (.r 2)).toNat < 0x8000 ∧ s.reg (.r 2) ≠ 0 := by decide

theorem witness_DivisionByZero :
    let s := held [(.gpr 1, 0x1234)]
    let u := held [(.gpr 1, 0x1234), (.re, 0x0040)]
    let v := held [(.gpr 1, 0x1234), (.re, 0x0020)]
    s.reg (.r 2) = 0 ∧ s.flag .td = false ∧ s.flag .tv = false ∧ u.reg (.r 2) = 0 ∧ u.flag .td = true ∧
    u.canonical = true ∧ v.reg (.r 2) = 0 ∧ v.flag .td = false ∧ v.flag .tv = true ∧ v.canonical = true ∧
    u.entrySafe = true ∧ (held [(.bte, 0x0101), (.re, 0x0040)]).entrySafe = false := by decide

/-- One more than fits, in each clause, for each of its instructions (C = 1 for ADDC and SUBB); R1 is the destination, so
SSP and BTE stay even. -/
theorem witness_OverflowTrapEntersExcesso :
    let s := held [(.re, 0x0024), (.gpr 1, 0x7FFF), (.gpr 2, 0x0001), (.gpr 3, 0x8000), (.gpr 5, 0x7FF9)]
    s.flag .tv = true ∧ s.canonical = true ∧ s.flag .c = true ∧
    ¬ Fits16 ((s.reg (.r 1)).toInt + (s.reg (.r 2)).toInt + false.toNat) ∧
    ¬ Fits16 ((s.reg (.r 5)).toInt + (BitVec.ofInt 16 7 : Word).toInt + false.toNat) ∧
    ¬ Fits16 ((s.reg (.r 1)).toInt + (s.reg (.r 4)).toInt + true.toNat) ∧
    ¬ Fits16 ((s.reg (.r 3)).toInt - (s.reg (.r 2)).toInt - false.toNat) ∧
    ¬ Fits16 ((s.reg (.r 1)).toInt - (BitVec.ofInt 16 (-8) : Word).toInt - false.toNat) ∧
    ¬ Fits16 ((s.reg (.r 3)).toInt - (s.reg (.r 4)).toInt - true.toNat) ∧
    ¬ Fits16 ((0 : Word).toInt - (s.reg (.r 3)).toInt - false.toNat) ∧
    ¬ Fits16 ((s.reg (.r 3)).toInt - (s.reg (.r 2)).toInt) ∧
    ¬ Fits16 ((s.reg (.r 3)).toInt - (BitVec.ofInt 16 1 : Word).toInt) ∧
    ¬ Fits16 ((s.reg (.r 1)).toInt * 2 ^ 1) ∧ ¬ Fits16 ((s.reg (.r 2)).toInt * 2 ^ 15) ∧
    ¬ Fits16 ((s.reg (.r 3)).toInt * (s.reg (.r 3)).toInt) ∧ ¬ Fits16 ((s.reg (.r 1)).toInt * (s.reg (.r 1)).toInt) ∧
    (s.wr (.r 1) 0x8000 (flagsZNCV 0x8000 false true)).entrySafe = true := by decide

/-- Some of them, run. -/
theorem witness_OverflowTrapRuns :
    let s := held [(.re, 0x0024), (.gpr 1, 0x7FFF), (.gpr 3, 0x8000), (.gpr 5, 0x7FF9)]
    answered (exec (.addi (.r 5) 7) s) (fun t => (t.reg (.r 5), t.temp)) = some (0x8000, 0x002A) ∧
    answered (exec (.addc (.r 1) (.r 4)) s) (fun t => (t.reg (.r 1), t.temp)) = some (0x8000, 0x002A) ∧
    answered (exec (.subb (.r 3) (.r 4)) s) (fun t => (t.reg (.r 3), t.temp)) = some (0x7FFF, 0x0028) ∧
    answered (exec (.mul (.r 1) (.r 3)) s) (fun t => (t.reg (.r 1), t.rer)) = some (0x8000, 0x0102) := by decide

/-- R144, R338: a sum that overflows into BTE and leaves it odd, and one that leaves it even. -/
theorem witness_OverflowTrapFromOddBte :
    let s := held [(.re, 0x0020), (.bte, 0x7FFE), (.gpr 1, 0x0003), (.gpr 2, 0x0002)]
    faulted (exec (.add .bte (.r 1)) s) = true ∧
    answered (exec (.add .bte (.r 2)) s) (fun t => (t.bte, t.temp)) = some (0x8000, 0x002A) := by decide

theorem witness_LogicNeverTrapsAndKeepsCarryOverflow : (15 : Nat) ≤ 15 ∧
    Instr.cplbit .re 15 ∈ [Instr.and .re (.r 2), .or .re (.r 2), .not .re, .xor .re (.r 2), .setbit .re 15, .clrbit .re 15,
      .cplbit .re 15] := by decide

theorem witness_ReMnemonicsChangeOneBit :
    (Asm.ReMnemonic.CPLC, ReField.c, !(held [(.re, 0x0004)]).flag .c) ∈ [(.EI, .ie, true), (.EI0, .ie0, true),
      (.CPLC, .c, false)] := by decide

theorem witness_ShiftByZero : Instr.rolc .re 0 ∈ [Instr.shr .re 0, .shl .re 0, .shra .re 0, .ror .re 0, .rol .re 0,
    .rorc .re 0, .rolc .re 0] := by decide

/-- With the trap armed: 1 shifted by 14 places fits; by 15 it does not. -/
theorem witness_ArithmeticLeftShift :
    let s := held [(.re, 0x0020), (.gpr 1, 0x0001)]
    Fits16 ((s.reg (.r 1)).toInt * 2 ^ 14) ∧ ¬ Fits16 ((s.reg (.r 1)).toInt * 2 ^ 15) ∧ (held []).flag .tv = false := by decide

/-- The top word of the address space, and the lowest offset. -/
theorem witness_WordLoads :
    let s := held [(.gpr 1, 0x000E), (.gpr 2, 0xFFFE)]
    isEven (0xFFFE : Word) = true ∧ (0xFFFE : Word) = s.reg (.r 1) + BitVec.ofInt 16 (-16) ∧
    (0xFFFE : Word) = s.reg (.r 2) + s.reg (.r 3) ∧ (0xFFFE : Word) = s.reg (.r 2) := by decide

theorem witness_WordStores :
    let s := held [(.gpr 1, 0x000E), (.gpr 2, 0xFFFE)]
    s.canonical = true ∧ isEven (0xFFFE : Word) = true ∧ (0xFFFE : Word) = s.based (.r 1) (-16) ∧
    (0xFFFE : Word) = s.indexed (.r 2) (.r 3) ∧ (0xFFFE : Word) = s.reg (.r 2) := by decide

theorem witness_ByteTransfers : (held []).canonical = true := by decide

theorem witness_MemorySwap :
    let s := held [(.gpr 2, 0xFFFE)]
    s.canonical = true ∧ (0xFFFE : Word) = s.reg (.r 2) ∧ isEven (0xFFFE : Word) = true ∧ s.flag .de = false ∧ s.gaps = [] := by
  decide

theorem witness_PushResult : (held [(.ssp, 0x0000)]).canonical = true ∧ isEven ((held [(.ssp, 0x0000)]).reg .sp) = true := by
  decide

theorem witness_PopResult : isEven ((held [(.ssp, 0xFFFE)]).reg .sp) = true ∧
    (0x0000 : Word) = (held [(.ssp, 0xFFFE)]).wordAt ((held [(.ssp, 0xFFFE)]).reg .sp) := by decide

theorem witness_ConditionalJumps : (held [(.re, 0x001F)]).flag .z = true ∧ (-128 : Int) ≤ -128 ∧ (127 : Int) ≤ 127 := by decide

theorem witness_StackCalls : (held []).canonical = true ∧ isEven ((held []).reg .sp) = true ∧
    isEven ((held [(.re, 0x2000), (.usp, 0x0000)]).reg .sp) = true := by decide

theorem witness_CallThenReturn : (held []).canonical = true ∧ isEven ((held []).reg .sp) = true := by decide

/-- At user level too. -/
theorem witness_SweEntersSoftware : (held [(.re, 0x2085), (.usp, 0x3001)]).canonical = true ∧
    (held [(.re, 0x2085), (.usp, 0x3001)]).entrySafe = true ∧ (held [(.ssp, 0x2001)]).entrySafe = false ∧
    faulted (exec (.swe 0) (held [(.bte, 0x0101)])) = true := by decide

theorem witness_RfeResult : isEven ((held [(.ssp, 0xFFFC)]).reg .sp) = true ∧
    isEven ((held [(.re, 0x2000), (.usp, 0x3000)]).reg .sp) = true := by decide

theorem witness_ExceptionEntry : (held []).canonical = true ∧ (held []).entrySafe = true ∧
    (held [(.ssp, 0x2001)]).entrySafe = false ∧ (held [(.bte, 0x0041)]).entrySafe = false := by decide

theorem witness_EntryThenRfeRestores : (held [(.re, 0x2185)]).canonical = true ∧ (held [(.re, 0x2185)]).entrySafe = true := by
  decide

/-- Each disjunct; for those on SP, at user level with an odd USP, and at system level with an odd SSP, the double fault. -/
theorem witness_MisalignedAccessEntersDDesalinhado :
    let s := held [(.re, 0x2000), (.usp, 0x3001), (.gpr 1, 0xFFFF)]
    s.canonical = true ∧ s.entrySafe = true ∧ isEven (s.based (.r 1) (-16)) = false ∧ isEven (s.indexed (.r 1) (.r 2)) = false ∧
    isEven (s.reg (.r 1)) = false ∧ isEven (s.reg .sp) = false ∧
    isEven ((held [(.ssp, 0x2001)]).reg .sp) = false ∧ (held [(.ssp, 0x2001)]).canonical = true ∧
    faulted (exec (.push (.r 1)) (held [(.ssp, 0x2001)])) = true := by decide

theorem witness_InvalidWordEntersCodInv :
    let b := (before 0x0100 [] [] 0xDFFF).boundary
    b.readyInt = none ∧ isEven b.pc = true ∧ b.fetched = .error .freeCode ∧ b.canonical = true ∧ b.gap.entrySafe = true :=
  ⟨by decide, by decide, rfl, by decide, by decide⟩

/-- R338: the same word with an odd BTE. -/
theorem witness_InvalidWordDoubleFault : faulted (step (before 0x0100 [(.bte, 0x0101)] [] 0xDFFF)) = true := by decide

theorem witness_PcBitZeroIsReal :
    let b := { held [] with pc := 0xFFFF }.boundary
    b.readyInt = none ∧ isEven b.pc = false ∧ b.canonical = true ∧ b.entrySafe = true ∧ isEven ((held []).reg .sp) = true ∧
    Reg.r 1 ≠ .rl ∧ Instr.jge (-128) ∈ [Instr.jz (-128), .jge (-128)] := by decide

/-- Int3, the last in the order, alone. -/
theorem witness_InterruptAtTheBoundary :
    let b := { held [(.re, 0x0F80)] with pend := #v[false, false, false, true] }.boundary
    b.readyInt = some 3 ∧ b.canonical = true ∧ b.entrySafe = true := by decide

theorem witness_NoInterruptAfterEntry :
    answered ((held [(.re, 0x3F80)]).enter (.int 0) 0x0100) (fun t => (t.re, t.boundary.readyInt)) = some (0, none) := by decide

theorem witness_EnvironmentEvents : (held []).canonical = true ∧ (held []).flag .de = false ∧
    (held [(.re, 0x1000)]).canonical = true ∧ (held [(.re, 0x1000)]).flag .de = true ∧
    { held [(.re, 0x1000)] with gaps := [[.read 0xFFFF]] }.gaps = [.read 0xFFFF] :: [] ∧
    { held [(.re, 0x1000)] with env := [[.edge 3, .dma (.write 0xFFFF 0xAB)], []] }.env =
      [.edge 3, .dma (.write 0xFFFF 0xAB)] :: [[]] := by decide

/-- That boundary, run: the latch and the byte are set, and the next boundary's list is left. -/
theorem witness_EnvironmentEventsRun :
    let b := { held [(.re, 0x1000)] with env := [[.edge 3, .dma (.write 0xFFFF 0xAB)], []] }.boundary
    b.pend = #v[false, false, false, true] ∧ b.byteAt 0xFFFF = 0xAB ∧ b.busGrant = true ∧ b.env = [[]] := by decide

theorem witness_MixedWidthAccess : (held []).canonical = true ∧ isEven (0xFFFE : Word) = true := by decide

theorem witness_WordAccessPrimitives : (held []).canonical = true ∧ isEven (0xFFFE : Word) = true ∧
    isEven (0xFFFF : Word) = false := by decide

theorem witness_ByteAccessPrimitives : (held []).canonical = true ∧ (0xFFFE : Word) ≠ 0xFFFF := by decide

theorem witness_StepKeepsMemoryCanonical :
    let s := before 0x0100 [(.gpr 1, 0x1234)] [] 0x6B10
    s.canonical = true ∧ answered (step s) (fun t => t.wordAt 0x1FFE) = some 0x1234 := by decide

theorem witness_OnlyListedFlagsChange : Reg.re ∉ (Instr.shla (.r 1) 15).destinations ∧
    answered (exec (.shla (.r 1) 15) (held [(.re, 0xFFD0), (.gpr 1, 0x0001)])) (fun t => t.re) = some 0xFFDA ∧
    answered (exec (.ldo (.r 1) (.r 2) 0) (held [(.re, 0x2085), (.gpr 2, 0x0101)])) (fun t => (t.re, t.temp)) =
      some (0x0000, 0x2085) := by decide

theorem witness_RegistersChangeOnlyWhereNamed : Reg.r 2 ∉ (Instr.pop (.r 1)).destinations ∧
    Reg.rl ∉ (Instr.pop (.r 1)).destinations ∧ Reg.bte ∉ (Instr.pop (.r 1)).destinations ∧
    answered (exec (.pop (.r 1)) (held [])) (fun t => t.ssp) = some 0x2002 := by decide

theorem witness_LevelsKeepTheOtherStackPointer :
    let s := held [(.re, 0x2000), (.usp, 0x3000)]
    s.flag .np = true ∧ answered (exec (.push (.r 1)) s) (fun t => (t.flag .np, t.usp)) = some (true, 0x2FFE) ∧
    (held []).flag .np = false ∧
    answered (exec (.push (.r 1)) (held [])) (fun t => (t.flag .np, t.ssp)) = some (false, 0x1FFE) := by decide

/-- The ends of the ranges: bit numbers and counts, the constants, the displacements. -/
theorem witness_TestAndBitFlags : (15 : Nat) ≤ 15 ∧
    answered (exec (.bit (.r 1) 15) (held [(.gpr 1, 0x7FFF)])) (fun t => t.flag .z) = some true := by decide

theorem witness_SingleBitResults : (15 : Nat) ≤ 15 ∧
    answered (exec (.setbit (.r 1) 15) (held [])) (fun t => t.reg (.r 1)) = some 0x8000 := by decide

theorem witness_ShiftResults : (1 : Nat) ≤ 15 ∧
    answered (exec (.shl (.r 1) 15) (held [(.gpr 1, 0x0003)])) (fun t => (t.reg (.r 1), t.flag .c)) = some (0x8000, true) := by
  decide

theorem witness_RotateResults : (1 : Nat) ≤ 15 ∧
    answered (exec (.rol (.r 1) 15) (held [(.gpr 1, 0x0001)])) (fun t => (t.reg (.r 1), t.flag .c)) = some (0x8000, false) := by
  decide

theorem witness_RotateThroughCarryResults : (1 : Nat) ≤ 15 ∧ (held [(.re, 0x0004)]).flag .c = true ∧
    answered (exec (.rolc (.r 1) 1) (held [(.re, 0x0004)])) (fun t => (t.reg (.r 1), t.flag .c)) = some (0x0001, false) := by
  decide

theorem witness_ConstantLoads :
    answered (exec (.movl (.r 1) (-128)) (held [])) (fun t => t.reg (.r 1)) = some 0xFF80 ∧
    answered (exec (.movh (.r 1) 255) (held [(.gpr 1, 0x0012)])) (fun t => t.reg (.r 1)) = some 0xFF12 := by decide

/-- One instruction at -128, two at the bounds of `k`. -/
theorem witness_MovConstantLeavesTheConstant : Asm.movConstant (.r 1) (-128) = some [.movl (.r 1) (-128)] ∧
    Asm.movConstant (.r 1) (-32768) = some [.movl (.r 1) 0, .movh (.r 1) 128] ∧
    Asm.movConstant (.r 1) 65535 = some [.movl (.r 1) (-1), .movh (.r 1) 255] := by decide

/-- A pair of registers for each clause. -/
theorem witness_RegisterSwap : (Reg.r 1 ≠ .temp ∧ Reg.sp ≠ .temp ∧ Reg.r 1 ≠ .re ∧ Reg.sp ≠ .re) ∧
    answered (exec (.swapr .re .sp) (held [])) (fun t => (t.re, t.usp, t.ssp)) = some (0x2000, 0x0000, 0x2000) := by decide

theorem witness_JumpsAndNop : (-2048 : Int) ≤ 2047 ∧
    answered (exec (.jmp (-2048)) (held [])) (fun t => t.pc) = some 0xF102 := by decide

theorem witness_LinkCalls : answered (exec (.callf 2047) (held [])) (fun t => (t.pc, t.rl)) = some (0x1100, 0x0102) ∧
    answered (exec (.crf .rl) (held [])) (fun t => (t.pc, t.rl)) = some (0x0102, 0x0102) := by decide

end Sys2Proof.Tests
end

section
/-!
PROOFS. What an instruction can write, said once for all 75 (`exec_leaves`), and the statements on 10_state.md: which flags
(O58), registers (O59) and stack pointer (O60) an instruction leaves alone, bit 0 of pc (O49), the state after reset (O57).
-/
namespace Sys2Proof.Machine

/-- The cells an instruction writes otherwise than through a register of `Instr.destinations`: an auxiliary register (R230),
USP by its own name (R233), RER (R270 to R273). -/
def unnamedCells : Instr → List Phys
  | .movar x _ => [.aux x]
  | .movur _ => [.usp]
  | .call _ | .cr _ | .callf _ | .crf _ => [.rer]
  | _ => []

theorem mem_unnamedCells {i : Instr} {p : Phys} (h : p ∈ unnamedCells i) :
    (∃ x rs, i = .movar x rs ∧ p = .aux x) ∨ (∃ rs, i = .movur rs ∧ p = .usp) ∨ p = .rer := by
  cases i <;> simp_all [unnamedCells]

/-- The instructions that write RE and a stack pointer. -/
theorem destinations_re_sp {i : Instr} (hre : Reg.re ∈ i.destinations) (hsp : Reg.sp ∈ i.destinations) :
    i = .mul .re .sp ∨ i = .mul .sp .re ∨ i = .swapr .re .sp ∨ i = .swapr .sp .re ∨ i = .pop .re ∨ (∃ k, i = .swe k) ∨
      i = .rfe := by
  cases i <;> grind [Instr.destinations]

/-- No instruction lists NP as a result flag (R39). -/
theorem np_notMem_resultFlags (i : Instr) : ReField.np ∉ resultFlags i := by
  cases i <;> simp [resultFlags]

/-! ### What a register name can stand for -/

@[simp] theorem Reg.phys_eq_gpr (np : Bool) (d : Reg) (k : Fin 11) : Reg.phys np d = .gpr k ↔ d = .r k := by
  cases np <;> cases d <;> simp [Reg.phys]

@[simp] theorem Reg.phys_eq_rl (np : Bool) (d : Reg) : Reg.phys np d = .rl ↔ d = .rl := by
  cases np <;> cases d <;> simp [Reg.phys]

@[simp] theorem Reg.phys_eq_bte (np : Bool) (d : Reg) : Reg.phys np d = .bte ↔ d = .bte := by
  cases np <;> cases d <;> simp [Reg.phys]

@[simp] theorem Reg.phys_ne_aux (np : Bool) (d : Reg) (x : AReg) : Reg.phys np d ≠ .aux x := by
  cases np <;> cases d <;> simp [Reg.phys]

theorem Reg.phys_ne_rer (np : Bool) (d : Reg) : Reg.phys np d ≠ .rer := by
  cases np <;> cases d <;> simp [Reg.phys]

/-- The stack pointer of the other level: no register name stands for it while RE.NP is `np` (R27). -/
def otherSp (np : Bool) : Phys := Reg.phys (!np) .sp

theorem otherSp_ne_re (np : Bool) : otherSp np ≠ .re := by cases np <;> simp [otherSp, Reg.phys]

theorem Reg.phys_ne_otherSp (np : Bool) (d : Reg) : Reg.phys np d ≠ otherSp np := by
  cases np <;> cases d <;> simp [otherSp, Reg.phys]

/-- Only the name SP stands for a stack pointer (R27). -/
theorem Reg.eq_sp_of_phys_eq_otherSp {np l : Bool} {d : Reg} (h : Reg.phys np d = otherSp l) : d = .sp := by
  cases np <;> cases l <;> cases d <;> simp_all [otherSp, Reg.phys]

@[simp] theorem State.cell_otherSp_setRe (s : State) (l : Bool) (v : Word) :
    (s.setCell .re v).cell (otherSp l) = s.cell (otherSp l) := State.cell_setCell_ne s v (otherSp_ne_re l)

@[simp] theorem State.cell_otherSp_setTemp (s : State) (l : Bool) (v : Word) :
    (s.setCell .temp v).cell (otherSp l) = s.cell (otherSp l) :=
  State.cell_setCell_ne s v (by cases l <;> simp [otherSp, Reg.phys])

theorem State.cell_otherSp_setReg {s : State} {l : Bool} (h : s.flag .np = l) (d : Reg) (v : Word) :
    (s.setReg d v).cell (otherSp l) = s.cell (otherSp l) :=
  State.cell_setCell_ne s v (h ▸ (Reg.phys_ne_otherSp (s.flag .np) d).symm)

/-! ### Two instructions written out -/

/-- MUL of two registers (R139). -/
theorem exec_mul_ne (s : State) {rd rs : Reg} (h : rd ≠ rs) : exec (.mul rd rs) s =
    s.trapV (mulV (s.reg rd) (s.reg rs)) (((s.wr rd (s.reg rd * s.reg rs) (flagsZNCV (s.reg rd * s.reg rs) (s.anyBit 0)
      (mulV (s.reg rd) (s.reg rs)))).setReg rs s.anyWord).drawn 4) := by
  simp only [exec, execMul, ne_eq, h, not_false_eq_true, if_true]

/-- POP (R238). -/
theorem exec_pop (rd : Reg) (s : State) : exec (.pop rd) s = s.withLoadGap (s.reg .sp) fun u v =>
    .next ((u.wr rd v .nothing).setReg .sp ((u.wr rd v .nothing).reg .sp + 2)).advance := rfl

/-! ### States an instruction writes its way to -/

/-- `i`, started in `s`, can have written its way to `t`: writes to registers it names as destinations, each at the level RE.NP
gives at that moment, to its unnamed cells, and of its result flags, with changes outside the register cells between them. -/
inductive Writes (i : Instr) (s : State) : State → Prop
  /-- nothing written -/
  | start : Writes i s s
  /-- pc, memory, the counter of free values, DMA in a gap -/
  | alike {t u : State} (h : Writes i s t) (hc : ∀ p, u.cell p = t.cell p) : Writes i s u
  /-- a destination -/
  | reg {t : State} {d : Reg} (v : Word) (h : Writes i s t) (hd : d ∈ i.destinations) : Writes i s (t.setReg d v)
  /-- an unnamed cell -/
  | cell {t : State} {p : Phys} (v : Word) (h : Writes i s t) (hp : p ∈ unnamedCells i) : Writes i s (t.setCell p v)
  /-- result flags -/
  | flags {t : State} {f : FlagUpd} (h : Writes i s t) (hf : f.list.map Prod.fst ⊆ resultFlags i) : Writes i s (t.setFlags f)

namespace Writes
variable {i : Instr} {s t : State}

theorem setPc (h : Writes i s t) (x : Word) : Writes i s (t.setPc x) := h.alike (by simp)
theorem advance (h : Writes i s t) : Writes i s t.advance := h.setPc _
theorem drawn (h : Writes i s t) (k : Nat) : Writes i s (t.drawn k) := h.alike (by simp)
theorem setWord (h : Writes i s t) (a v : Word) : Writes i s (t.setWord a v) := h.alike (by simp)
theorem setByte (h : Writes i s t) (a : Word) (v : Byte) : Writes i s (t.setByte a v) := h.alike (by simp)
theorem gap (h : Writes i s t) : Writes i s t.gap := h.alike (by simp)

/-- `wr` (R31) is a register write, and a flag update unless it writes RE. -/
theorem wr (h : Writes i s t) {d : Reg} (v : Word) {f : FlagUpd} (hd : d ∈ i.destinations)
    (hf : f.list.map Prod.fst ⊆ resultFlags i) : Writes i s (t.wr d v f) := by
  by_cases hre : d = .re
  · subst hre
    rw [State.wr_re]
    exact h.reg v hd
  · rw [State.wr, if_neg hre]
    exact (h.reg v hd).flags hf

/-- `wr` without flags. -/
theorem move (h : Writes i s t) {d : Reg} (v : Word) (hd : d ∈ i.destinations) : Writes i s (t.wr d v .nothing) :=
  h.wr v hd (List.nil_subset _)

/-- A cell that no destination can stand for keeps its value. -/
theorem cell_eq (h : Writes i s t) {p : Phys} (hre : p ≠ .re) (hp : p ∉ unnamedCells i)
    (hd : ∀ np, ∀ d ∈ i.destinations, Reg.phys np d ≠ p) : t.cell p = s.cell p := by
  induction h with
  | start => rfl
  | alike _ hc ih => rw [hc, ih]
  | @reg t d v _ hdm ih =>
    have hpd : p ≠ t.phys d := (hd _ d hdm).symm
    rw [State.setReg, State.cell_setCell_ne t v hpd, ih]
  | cell v _ hq ih => rw [State.cell_setCell_ne _ v (ne_of_mem_of_not_mem hq hp).symm, ih]
  | flags _ _ ih => rw [State.setFlags, State.cell_setCell_ne _ _ hre, ih]

/-- Without RE as a destination only the result flags of RE change (R35, R39). -/
theorem keepsRe (h : Writes i s t) (hre : Reg.re ∉ i.destinations) : KeepsRe s t (resultFlags i) := by
  induction h with
  | start => exact .of_eq rfl
  | alike _ hc ih => exact fun k hk hl => by rw [State.re_eq_cell, hc]; exact ih k hk hl
  | @reg t d v _ hd ih =>
    have hp : t.phys d ≠ .re := t.phys_ne_re fun e => hre (e ▸ hd)
    exact fun k hk hl => by rw [State.setReg, State.re_setCell_ne t v hp]; exact ih k hk hl
  | @cell t p v _ hp ih =>
    have hpr : p ≠ .re := by rcases mem_unnamedCells hp with ⟨_, _, _, rfl⟩ | ⟨_, _, rfl⟩ | rfl <;> simp
    exact fun k hk hl => by rw [State.re_setCell_ne t v hpr]; exact ih k hk hl
  | @flags t f _ hf ih =>
    have hset : KeepsRe t (t.setFlags f) (resultFlags i) :=
      .setFlags t f _ fun p hp => hf (List.mem_map_of_mem hp)
    exact fun k hk hl => (hset k hk hl).trans (ih k hk hl)

/-- Without RE as a destination the level stays (R27). -/
theorem flag_np (h : Writes i s t) (hre : Reg.re ∉ i.destinations) : t.flag .np = s.flag .np :=
  h.keepsRe hre _ (by simp) fun _ hf e => np_notMem_resultFlags i (ReField.index_injective e ▸ hf)

/-- Without RE as a destination the other level's stack pointer stays, unless it is written by its own name (R27, R41). -/
theorem cell_otherSp (h : Writes i s t) (hre : Reg.re ∉ i.destinations) (hu : otherSp (s.flag .np) ∉ unnamedCells i) :
    t.cell (otherSp (s.flag .np)) = s.cell (otherSp (s.flag .np)) := by
  induction h with
  | start => rfl
  | alike _ hc ih => rw [hc, ih]
  | reg v ht _ ih => rw [State.cell_otherSp_setReg (ht.flag_np hre), ih]
  | cell v _ hq ih => rw [State.cell_setCell_ne _ v (ne_of_mem_of_not_mem hq hu).symm, ih]
  | flags _ _ ih => rw [State.setFlags, State.cell_setCell_ne _ _ (otherSp_ne_re _), ih]

end Writes

/-! ### The next states of an instruction -/

/-- `i`, started in `s`, ends in `t`: it wrote its way to `t` itself, or to a state from which the entry of an exception
leaves `t`. -/
def Leaves (i : Instr) (s t : State) : Prop :=
  ∃ u, Writes i s u ∧ (t = u ∨ ∃ e ret, u.enter e ret = .next t)

namespace Leaves
variable {i : Instr} {s t : State}

theorem next (h : Writes i s t) : Ends (Leaves i s) (.next t) := Ends.next ⟨t, h, .inl rfl⟩

theorem enter (h : Writes i s t) (e : Exc) (ret : Word) : Ends (Leaves i s) (t.enter e ret) :=
  fun _ he => ⟨t, h, .inr ⟨e, ret, he⟩⟩

theorem misaligned (h : Writes i s t) : Ends (Leaves i s) t.misaligned := enter h _ _

/-! The endings the meanings share -/

theorem trapV (v : Bool) (h : Writes i s t) : Ends (Leaves i s) (s.trapV v t) :=
  Ends.trapV v ⟨_, h.advance, .inl rfl⟩ (enter h _ _)

theorem finishAlu {rd : Reg} {x : Alu} (hd : rd ∈ i.destinations) (hf : [.z, .n, .c, .v] ⊆ resultFlags i) :
    Ends (Leaves i s) (s.finishAlu rd x) := trapV _ (.wr .start _ hd hf)

theorem finishCmp {x : Alu} (hf : [.z, .n, .c, .v] ⊆ resultFlags i) : Ends (Leaves i s) (s.finishCmp x) :=
  trapV _ (.flags .start hf)

theorem divideByZero {rd : Reg} (hd : rd ∈ i.destinations) (hf : [.z, .n, .c, .v] ⊆ resultFlags i) :
    Ends (Leaves i s) (s.divideByZero rd) :=
  Ends.divideByZero rd (enter .start _ _) fun _ ha => ha ▸ trapV _ ((Writes.wr (f := flagsZNCV _ _ _) .start _ hd hf).drawn 1)

/-- DIV and MOD (R140 to R142): by zero or not. -/
theorem division {rd : Reg} {b r : Word} (hd : rd ∈ i.destinations) (hf : [.z, .n, .c, .v] ⊆ resultFlags i) :
    Ends (Leaves i s) (if b = 0 then s.divideByZero rd else s.finishDiv rd r) := by
  split
  · exact divideByZero hd hf
  · exact next ((Writes.wr (f := flagsZNCV _ _ _) .start _ hd hf).drawn 1).advance

theorem finishLogic {rd : Reg} {r : Word} (hd : rd ∈ i.destinations) (hf : [.z, .n] ⊆ resultFlags i) :
    Ends (Leaves i s) (s.finishLogic rd r) := next (Writes.wr (f := flagsZN _) .start _ hd hf).advance

theorem shiftReg {rd : Reg} {n : Nat} {op : Word → Nat → Shifted} (hd : rd ∈ i.destinations)
    (hf : [.z, .n, .c] ⊆ resultFlags i) : Ends (Leaves i s) (.next (s.shiftReg rd n op).advance) := by
  have hzn : [.z, .n] ⊆ resultFlags i := List.Subset.trans (by simp) hf
  refine next (Writes.advance ?_)
  unfold State.shiftReg
  split
  · exact .wr .start _ hd hzn
  · exact .wr .start _ hd hf

theorem finishMove {rd : Reg} {v : Word} (h : Writes i s t) (hd : rd ∈ i.destinations) :
    Ends (Leaves i s) (t.finishMove rd v) := next (h.move v hd).advance

theorem loadInto {rd : Reg} {ea : Word} (hd : rd ∈ i.destinations) : Ends (Leaves i s) (s.loadInto rd ea) :=
  Ends.withLoadGap (misaligned .start) fun _ => finishMove (.gap .start) hd

theorem storeFrom {ea : Word} {rs : Reg} : Ends (Leaves i s) (s.storeFrom ea rs) :=
  Ends.withStore (misaligned .start) (next (Writes.setWord .start _ _).advance)

/-- Jumps and NOP (R250, R279): pc alone. -/
theorem jump {x : Word} : Ends (Leaves i s) (.next (s.setPc x)) := next (.setPc .start x)

theorem callTo {x : Word} (hsp : .sp ∈ i.destinations) (hrer : .rer ∈ unnamedCells i) :
    Ends (Leaves i s) (s.callTo x) :=
  Ends.withStore (misaligned .start) (next (((Writes.cell _ (.setWord .start _ _) hrer).setPc x).reg _ hsp))

theorem callf {x : Word} (hrl : .rl ∈ i.destinations) (hrer : .rer ∈ unnamedCells i) :
    Ends (Leaves i s) (.next (s.link.setPc x)) :=
  next (.setPc (.reg (d := .rl) _ (.cell _ .start hrer) hrl) x)

/-! The instructions with an ending of their own -/

theorem mul (rd rs : Reg) : Ends (Leaves (.mul rd rs) s) (exec (.mul rd rs) s) := by
  refine trapV _ (Writes.drawn ?_ 4)
  split
  · exact .reg _ (.wr .start _ (by simp [Instr.destinations]) (List.Subset.refl _)) (by simp [Instr.destinations])
  · exact .wr .start _ (by simp [Instr.destinations]) (List.Subset.refl _)

theorem shla (rd : Reg) (n : Nat) : Ends (Leaves (.shla rd n) s) (exec (.shla rd n) s) := by
  have hd : rd ∈ (Instr.shla rd n).destinations := List.mem_singleton_self rd
  simp only [exec, execShla]
  split
  · exact next (Writes.wr .start _ hd (by simp [FlagUpd.list, flagsZN, resultFlags])).advance
  · exact trapV _ (.wr .start _ hd (List.Subset.refl _))

theorem swapr (rd rs : Reg) : Ends (Leaves (.swapr rd rs) s) (exec (.swapr rd rs) s) :=
  next (Writes.advance (.move (.move (.reg (d := .temp) _ .start (by simp [Instr.destinations])) _
    (by simp [Instr.destinations])) _ (by simp [Instr.destinations])))

theorem swapm (rd rs : Reg) : Ends (Leaves (.swapm rd rs) s) (exec (.swapm rd rs) s) := by
  have htemp : ∀ v, Writes (.swapm rd rs) s (s.setCell .temp v) := fun v =>
    .reg (d := .temp) v .start (by simp [Instr.destinations])
  exact Ends.withLoad (misaligned .start) fun v => Ends.withStore (misaligned (htemp v))
    (finishMove ((htemp v).setWord _ _).gap (by simp [Instr.destinations]))

theorem push (rd : Reg) : Ends (Leaves (.push rd) s) (exec (.push rd) s) :=
  Ends.withStore (misaligned .start)
    (next (Writes.advance (.reg _ (.setWord .start _ _) (by simp [Instr.destinations]))))

theorem pop (rd : Reg) : Ends (Leaves (.pop rd) s) (exec (.pop rd) s) := by
  rw [exec_pop]
  exact Ends.withLoadGap (misaligned .start) fun v => next (Writes.advance
    (.reg (d := .sp) _ (.move (.gap .start) v (by simp [Instr.destinations])) (by simp [Instr.destinations])))

theorem ret : Ends (Leaves .ret s) (exec .ret s) :=
  Ends.withLoad (misaligned .start) fun _ => next (.reg _ (.setPc .start _) (by simp [Instr.destinations]))

theorem rfe : Ends (Leaves .rfe s) (exec .rfe s) := by
  refine Ends.returnFromException (misaligned .start) fun re pc => ⟨_, ?_, .inl rfl⟩
  have htemp : Writes .rfe s (s.gap.gap.setCell .temp re) :=
    .reg (d := .temp) _ (.gap (.gap .start)) (by simp [Instr.destinations])
  exact .reg (d := .re) _ (.reg _ (htemp.setPc pc) (by simp [Instr.destinations])) (by simp [Instr.destinations])

end Leaves

/-- Everything an instruction can do to the register cells: it writes its destinations, unnamed cells and result flags, and an
exception may then be taken. -/
theorem exec_leaves (i : Instr) (s : State) : Ends (Leaves i s) (exec i s) := by
  cases i with
  | add | addi | addc | sub | subi | subb | neg =>
    exact Leaves.finishAlu (List.mem_singleton_self _) (List.Subset.refl _)
  | cmp | cmpi => exact Leaves.finishCmp (List.Subset.refl _)
  | mul rd rs => exact Leaves.mul rd rs
  | div | mod => exact Leaves.division (List.mem_singleton_self _) (List.Subset.refl _)
  | shla rd n => exact Leaves.shla rd n
  | and | or | not | xor | setbit | clrbit | cplbit =>
    exact Leaves.finishLogic (List.mem_singleton_self _) (List.Subset.refl _)
  | test | bit => exact Leaves.next (Writes.advance (.flags .start (List.Subset.refl _)))
  | shra | shr | shl | ror | rol | rorc | rolc =>
    exact Leaves.shiftReg (List.mem_singleton_self _) (List.Subset.refl _)
  | ldo | ldr | ldp => exact Leaves.loadInto (List.mem_singleton_self _)
  | ldb => exact Leaves.finishMove (.gap .start) (List.mem_singleton_self _)
  | sto | str | stp => exact Leaves.storeFrom
  | stb => exact Leaves.next (Writes.advance (.setByte .start _ _))
  | movrr | movra | movru | movl | movh => exact Leaves.finishMove .start (List.mem_singleton_self _)
  | movar | movur => exact Leaves.next (Writes.advance (.cell _ .start (List.mem_singleton_self _)))
  | swapr rd rs => exact Leaves.swapr rd rs
  | swapm rd rs => exact Leaves.swapm rd rs
  | push rd => exact Leaves.push rd
  | pop rd => exact Leaves.pop rd
  | jz | jnz | jn | jnn | jp | jnp | jc | jnc | jv | jnv | ja | jna | jlt | jle | jgt | jge => exact Leaves.jump
  | jmp | jmpr | retf | nop => exact Leaves.jump
  | call | cr => exact Leaves.callTo (List.mem_singleton_self _) (List.mem_singleton_self _)
  | callf | crf => exact Leaves.callf (List.mem_singleton_self _) (List.mem_singleton_self _)
  | ret => exact Leaves.ret
  | swe => exact Leaves.enter .start _ _
  | rfe => exact Leaves.rfe

/-- A cell that is neither an unnamed one, nor one a destination can stand for, nor written by exception entries keeps its
value. -/
theorem exec_cell {i : Instr} {s t : State} (h : exec i s = .next t) {p : Phys} (hE : p ∉ [Phys.temp, .rer, .ssp, .re])
    (hp : p ∉ unnamedCells i) (hd : ∀ np, ∀ d ∈ i.destinations, Reg.phys np d ≠ p) : t.cell p = s.cell p := by
  have hre : p ≠ .re := fun e => hE (by simp [e])
  obtain ⟨u, hu, rfl | ⟨e, ret, he⟩⟩ := exec_leaves i s t h
  · exact hu.cell_eq hre hp hd
  · obtain ⟨-, rfl⟩ := State.enter_next_iff.mp he
    rw [State.entered_cell u e ret hE, hu.cell_eq hre hp hd]

/-! ### The two levels -/

/-- Only MOV USP, Rs writes a stack pointer by its own name. -/
theorem otherSp_notMem_unnamedCells {i : Instr} {l : Bool} (h : l = false → ∀ rs, i ≠ .movur rs) :
    otherSp l ∉ unnamedCells i := by
  intro hm
  cases l with
  | false =>
    rcases mem_unnamedCells hm with ⟨_, _, _, e⟩ | ⟨rs, e, _⟩ | e
    · simp [otherSp, Reg.phys] at e
    · exact h rfl rs e
    · simp [otherSp, Reg.phys] at e
  | true => rcases mem_unnamedCells hm with ⟨_, _, _, e⟩ | ⟨_, _, e⟩ | e <;> simp [otherSp, Reg.phys] at e

/-- From level `l` to level `l` the stack pointer of the other level is kept. -/
def LevelKept (l : Bool) (s t : State) : Prop :=
  s.flag .np = l → t.flag .np = l → t.cell (otherSp l) = s.cell (otherSp l)

namespace LevelKept
variable {l : Bool} {s t u : State}

/-- An exception entry ends at system level and leaves USP alone. -/
theorem enter (h : l = false → s.flag .np = l → u.cell (otherSp l) = s.cell (otherSp l)) (e : Exc) (ret : Word) :
    Ends (LevelKept l s) (u.enter e ret) := by
  intro t ht
  obtain ⟨-, rfl⟩ := State.enter_next_iff.mp ht
  have hnp : (u.entered e ret).flag .np = false := by simp [State.flag]
  rintro hs hl
  obtain rfl : l = false := hl.symm.trans hnp
  exact (u.entered_usp e ret).trans (h rfl hs)

theorem misaligned : Ends (LevelKept l s) s.misaligned := enter (fun _ _ => rfl) _ _

/-- With SP written last, it is written at the level the instruction ends at. -/
theorem sp_last {v : Word} (hu : u.cell (otherSp l) = s.cell (otherSp l)) (ht : ∀ p, t.cell p = (u.setReg .sp v).cell p) :
    LevelKept l s t := by
  intro _ hl
  have hre : t.re = u.re := (ht .re).trans (State.re_setCell_ne u v (u.phys_ne_re (by simp)))
  rw [ht, State.cell_otherSp_setReg ((State.flag_congr hre _).symm.trans hl), hu]

/-- With SP written before RE, it is written at the level the instruction starts at. -/
theorem sp_first {v : Word} (hnp : u.flag .np = s.flag .np) (hu : u.cell (otherSp l) = s.cell (otherSp l))
    (ht : t.cell (otherSp l) = (u.setReg .sp v).cell (otherSp l)) : LevelKept l s t := by
  intro hl _
  rw [ht, State.cell_otherSp_setReg (hnp.trans hl), hu]

/-! The instructions that write both RE and SP -/

/-- The system level is left out: the product in RE may select USP for the write of SP, and EXCESSO still end at system
level (log 11). -/
theorem mul_re_sp : Ends (LevelKept true s) (exec (.mul .re .sp) s) := by
  rw [exec_mul_ne s (by simp), State.wr_re]
  exact Ends.trapV _ (sp_last (State.cell_otherSp_setRe ..) fun p => State.cell_drawn _ 4 p) (enter (by simp) _ _)

theorem mul_sp_re : Ends (LevelKept l s) (exec (.mul .sp .re) s) := by
  rw [exec_mul_ne s (by simp)]
  have hcell : ∀ v f w k, (((s.wr .sp v f).setReg .re w).drawn k).cell (otherSp l) = (s.setReg .sp v).cell (otherSp l) := by
    intro v f w k
    rw [State.cell_drawn, State.setReg, (State.phys_eq_re ..).mpr rfl, State.cell_otherSp_setRe]
    exact State.cell_otherSp_setRe ..
  exact Ends.trapV _ (sp_first (u := s) rfl rfl ((State.cell_advance ..).trans (hcell ..)))
    (enter (fun _ hs => (hcell ..).trans (State.cell_otherSp_setReg hs _ _)) _ _)

theorem swapr_re_sp : Ends (LevelKept l s) (exec (.swapr .re .sp) s) := by
  have hsp : Reg.sp ≠ .re := by decide
  simp only [exec, execSwapr, State.wr_re, State.wr_nothing_ne _ _ _ hsp]
  exact Ends.next (sp_last (by simp) fun p => State.cell_advance _ p)

theorem swapr_sp_re : Ends (LevelKept l s) (exec (.swapr .sp .re) s) := by
  have hsp : Reg.sp ≠ .re := by decide
  simp only [exec, execSwapr, State.wr_re, State.wr_nothing_ne _ _ _ hsp]
  exact Ends.next (sp_first (u := s.setCell .temp (s.reg .sp)) rfl (by simp) (by simp; rfl))

theorem pop_re : Ends (LevelKept l s) (exec (.pop .re) s) := by
  simp only [exec_pop, State.wr_re]
  exact Ends.withLoadGap misaligned fun v => Ends.next (sp_last (by simp) fun p => State.cell_advance _ p)

theorem swe (k : Nat) : Ends (LevelKept l s) (exec (.swe k) s) := enter (fun _ _ => rfl) _ _

theorem rfe : Ends (LevelKept l s) (exec .rfe s) := by
  refine Ends.returnFromException misaligned fun re pc => ?_
  have hre : ((s.gap.gap.setCell .temp re).setPc pc).re = s.re := by simp [State.re_setCell]
  exact sp_first (State.flag_congr hre _) (by simp) (State.cell_otherSp_setRe ..)

end LevelKept

/-- R27, R41: the level an instruction stays at leaves the other one's stack pointer alone. -/
theorem exec_levelKept (i : Instr) (s : State) {l : Bool} (hl : l = false → (∀ rs, i ≠ .movur rs) ∧ i ≠ .mul .re .sp) :
    Ends (LevelKept l s) (exec i s) := by
  have hu : otherSp l ∉ unnamedCells i := otherSp_notMem_unnamedCells fun h => (hl h).1
  by_cases hboth : Reg.re ∈ i.destinations ∧ Reg.sp ∈ i.destinations
  · rcases destinations_re_sp hboth.1 hboth.2 with rfl | rfl | rfl | rfl | rfl | ⟨k, rfl⟩ | rfl
    · cases l with
      | false => exact absurd rfl (hl rfl).2
      | true => exact .mul_re_sp
    · exact .mul_sp_re
    · exact .swapr_re_sp
    · exact .swapr_sp_re
    · exact .pop_re
    · exact .swe k
    · exact .rfe
  · have hcell : ∀ u, Writes i s u → s.flag .np = l → u.cell (otherSp l) = s.cell (otherSp l) := by
      rintro u hw rfl
      by_cases hre : Reg.re ∈ i.destinations
      · have hsp : Reg.sp ∉ i.destinations := fun h => hboth ⟨hre, h⟩
        exact hw.cell_eq (otherSp_ne_re _) hu fun np d hd e => hsp (Reg.eq_sp_of_phys_eq_otherSp e ▸ hd)
      · exact hw.cell_otherSp hre hu
    intro t ht
    obtain ⟨u, hw, rfl | ⟨e, ret, he⟩⟩ := exec_leaves i s t ht
    · exact fun hs _ => hcell t hw hs
    · exact LevelKept.enter (fun _ => hcell u hw) e ret t he

/-! ### Bit 0 of pc (R30) -/

theorem isEven_constant_two_mul (k : Int) : isEven (constant (2 * k)) = true := by
  have h : (constant (2 * k)).toNat % 2 = 0 := by rw [constant, BitVec.toNat_ofInt]; omega
  simp [isEven, BitVec.getLsbD, h]

/-- A relative target has the parity of pc (R97, R250). -/
theorem State.isEven_target (s : State) (dif : Int) : isEven (s.target dif) = isEven s.pc :=
  (isEven_add _ _ (isEven_constant_two_mul dif)).trans (isEven_add_two s.pc)

theorem State.isEven_eis (s : State) : isEven s.eis = isEven s.pc := isEven_add_two s.pc

theorem State.jumpIf_parity (s : State) (cond : Cond) (dif : Int) :
    ∃ t, s.jumpIf cond dif = .next t ∧ isEven t.pc = isEven s.pc := by
  refine ⟨_, s.jumpIf_next cond dif, ?_⟩
  rw [State.setPc_pc]
  split
  · exact s.isEven_target dif
  · exact s.isEven_eis

/-- A stack call with an even SP goes to its destination (R270, R271). -/
theorem State.callTo_pc (s : State) (x : Word) (h : isEven (s.reg .sp) = true) : ∃ t, s.callTo x = .next t ∧ t.pc = x := by
  have hslot : isEven s.pushSlot = true := (isEven_sub_two _).trans h
  exact ⟨_, s.withStore_even _ _ hslot, State.setCell_pc ..⟩

/-- The link leaves every register but RL alone (R273). -/
theorem State.link_reg (s : State) {r : Reg} (h : r ≠ .rl) : s.link.reg r = s.reg r := by
  have hphys : s.link.phys r = s.phys r := State.phys_congr rfl r
  have hrl : s.phys r ≠ .rl := fun e => h ((Reg.phys_eq_rl _ _).mp e)
  have hrer : s.phys r ≠ .rer := Reg.phys_ne_rer _ _
  rw [State.reg, hphys, State.link, State.cell_setCell_ne _ _ hrl, State.cell_setCell_ne _ _ hrer, State.reg]

/-- A fetch at an odd pc (R328). -/
theorem step_of_odd_pc {s : State} (hint : s.boundary.readyInt = none) (hodd : isEven s.boundary.pc = false) :
    step s = s.boundary.enter .iDesalinhado s.boundary.pc := by
  simp [step, State.dispatch, hint, hodd, State.fetchMisaligned, Params.ifetchFaultRer]

/-- A conditional or relative jump and CALLF label keep the parity of pc (R97, R250 to R268, R272). -/
theorem exec_relative_parity (s : State) (dif : Int) {i : Instr}
    (hi : i ∈ [Instr.jz dif, .jnz dif, .jn dif, .jnn dif, .jp dif, .jnp dif, .jc dif, .jnc dif, .jv dif, .jnv dif, .ja dif,
      .jna dif, .jlt dif, .jle dif, .jgt dif, .jge dif, .jmp dif, .callf dif]) :
    ∃ t, exec i s = .next t ∧ isEven t.pc = isEven s.pc := by
  have hcond : ∀ cond, exec i s = s.jumpIf cond dif → ∃ t, exec i s = .next t ∧ isEven t.pc = isEven s.pc :=
    fun cond e => e ▸ s.jumpIf_parity cond dif
  cases i <;> simp at hi <;> subst hi
  case jmp | callf => exact ⟨_, rfl, s.isEven_target _⟩
  all_goals exact hcond _ rfl

/-- What the instructions that load pc leave in it, odd or not (R269, R271, R273 to R275, R278). -/
theorem exec_loads_pc (s : State) (rs : Reg) :
    (∃ t, exec (.jmpr rs) s = .next t ∧ t.pc = s.reg rs) ∧
    (∃ t, exec .retf s = .next t ∧ t.pc = s.rl) ∧
    (rs ≠ .rl → ∃ t, exec (.crf rs) s = .next t ∧ t.pc = s.reg rs) ∧
    (isEven (s.reg .sp) = true →
      (∃ t, exec (.cr rs) s = .next t ∧ t.pc = s.reg rs) ∧
      (∃ t, exec .ret s = .next t ∧ t.pc = s.wordAt (s.reg .sp)) ∧
      (∃ t, exec .rfe s = .next t ∧ t.pc = s.gap.wordAt (s.reg .sp + 2))) := by
  refine ⟨⟨_, rfl, rfl⟩, ⟨_, rfl, rfl⟩, fun h => ⟨_, rfl, s.link_reg h⟩, fun h => ⟨s.callTo_pc _ h, ?_, ?_⟩⟩
  · obtain ⟨t, ht, hpc, -⟩ := s.ret_next h
    exact ⟨t, ht, hpc⟩
  · exact ⟨_, State.returnFromException_even h, by simp [State.setReg]⟩

end Sys2Proof.Machine

open Sys2Proof Sys2Proof.Machine

/-! ### The statements -/

/-- Settles O58: what the instruction wrote keeps RE's other bits (`Writes.keepsRe`), up to an exception it may end in. -/
theorem onlyListedFlagsChange : Obligations.OnlyListedFlagsChange := by
  intro i s t hre h
  obtain ⟨u, hw, hu⟩ := exec_leaves i s t h
  refine ⟨u, hw.keepsRe hre, hu.imp_right ?_⟩
  rintro ⟨e, ret, he⟩
  exact ⟨e, ret, h.trans he.symm⟩

/-- Settles O59: no destination stands for the cell, no unnamed cell is it, and entries do not write it (`exec_cell`). -/
theorem registersChangeOnlyWhereNamed : Obligations.RegistersChangeOnlyWhereNamed := by
  intro i s t h
  have hun : ∀ {p}, p ≠ .usp → p ≠ .rer → (∀ x, p ≠ .aux x) → p ∉ unnamedCells i := by
    intro p h1 h2 h3 hp
    rcases mem_unnamedCells hp with ⟨x, _, _, e⟩ | ⟨_, _, e⟩ | e
    exacts [h3 x e, h1 e, h2 e]
  refine ⟨fun k hk => ?_, fun hrl => ?_, fun hbte => ?_, fun x hx => ?_⟩
  · exact exec_cell h (by simp) (hun (by simp) (by simp) (by simp)) fun np d hd e =>
      hk ((Reg.phys_eq_gpr np d k).mp e ▸ hd)
  · exact exec_cell h (p := .rl) (by simp) (hun (by simp) (by simp) (by simp)) fun np d hd e =>
      hrl ((Reg.phys_eq_rl np d).mp e ▸ hd)
  · exact exec_cell h (p := .bte) (by simp) (hun (by simp) (by simp) (by simp)) fun np d hd e =>
      hbte ((Reg.phys_eq_bte np d).mp e ▸ hd)
  · refine exec_cell h (by simp) (fun hp => ?_) fun np d _ => Reg.phys_ne_aux np d x
    rcases mem_unnamedCells hp with ⟨y, rs, hi, e⟩ | ⟨_, _, e⟩ | e
    · exact hx rs (Phys.aux.inj e ▸ hi)
    · cases e
    · cases e

/-- Settles O60: `exec_levelKept` at each level. -/
theorem levelsKeepTheOtherStackPointer : Obligations.LevelsKeepTheOtherStackPointer := by
  intro i s t h
  exact ⟨exec_levelKept i s (by simp) t h, fun hs ht hmov hmul => exec_levelKept i s (fun _ => ⟨hmov, hmul⟩) t h hs ht⟩

/-- Settles O57: every clause follows from RE = 0000H, memory listing nothing. -/
theorem resetState : Obligations.ResetState := by
  have hre : State.reset.re = 0x0000 := rfl
  exact ⟨hre, fun f => by simp [State.flag, hre], rfl, State.readyInt_of_re_zero hre, rfl⟩

/-- Settles O49: the loads of pc (`exec_loads_pc`), the fetch at an odd one (`step_of_odd_pc`), the relative targets. -/
theorem pcBitZeroIsReal : Obligations.PcBitZeroIsReal := by
  refine ⟨fun s rs => ?_, ?_, fun s dif i hi => ?_⟩
  · obtain ⟨hjmpr, hretf, hcrf, hsp⟩ := exec_loads_pc s rs
    refine ⟨hjmpr, hretf, hcrf, hsp, fun e ret hc hsafe => ?_⟩
    exact ⟨_, State.enter_safe e ret hsafe, (State.entered_spec hc e ret).handler⟩
  · rintro s b rfl hint hodd hc
    rw [step_of_odd_pc hint hodd]
    exact State.enter_takes hc _ _
  · rcases hi with hi | ⟨rfl, hsp⟩
    · exact exec_relative_parity s dif hi
    · obtain ⟨t, ht, hpc⟩ := s.callTo_pc (s.target dif) hsp
      exact ⟨t, ht, by rw [hpc, s.isEven_target]⟩

end

section
/-!
PROOFS. The statements on 20_memory.md: byte and word accesses (O55, O54, O53), the misaligned access (O47), the placed word
that runs next (O7), and the canonical form of memory, which every step keeps (O56).
-/
namespace Sys2Proof

/-! ### Decoding an encoded instruction (R94, R95, R108)

First the five tables of the first opcode, then each instruction. -/

theorem decode_aritop (q a b : BitVec 4) : decode (fields Opmap.aritop q a b) = decodeAritop q a b := by
  simp [decode]

theorem decode_bitop (q a b : BitVec 4) : decode (fields Opmap.bitop q a b) = decodeBitop q a b := by
  simp [decode]

theorem decode_xfer (q a b : BitVec 4) : decode (fields Opmap.xfer q a b) = decodeXfer q a b := by
  simp [decode]

theorem decode_cond (q : BitVec 4) (k : BitVec 8) : decode (fields8 Opmap.cond q k) = .ok (decodeCond q k) := by
  simp [decode]

theorem decode_code (q a b : BitVec 4) : decode (fields Opmap.code q a b) = decodeCode q b (a ++ b) := by
  simp [decode, constant8]

theorem decode_swe (k : BitVec 8) : decode (fields8 Opmap.code Opmap.Code.swe k) = .ok (.swe k.toNat) := by
  simp [decode, decodeCode]

/-- A bit number or count in range is its field (R95). -/
theorem toNat_ofNat_4 {n : Nat} (h : n ≤ 15) : (BitVec.ofNat 4 n).toNat = n := by
  rw [BitVec.toNat_ofNat]; omega

/-- An unsigned 8-bit constant in range is its field (R95). -/
theorem toNat_ofNat_8 {k : Nat} (h : k ≤ 255) : (BitVec.ofNat 8 k).toNat = k := by
  rw [BitVec.toNat_ofNat]; omega

theorem isOff_iff (off : Int) : isOff off = true ↔ (-16 ≤ off ∧ off ≤ 14) ∧ off % 2 = 0 := by
  simp only [isOff, Bool.and_eq_true, decide_eq_true_eq]

/-- An instruction whose operands fit its fields is decoded from its word (R94, R95, R108). -/
theorem decode_encode (i : Instr) (h : i.WellFormed) : decode (encode i) = .ok i := by
  cases i with
  | add rd rs | addc rd rs | sub rd rs | subb rd rs | cmp rd rs | mul rd rs | div rd rs | mod rd rs | neg rd =>
    rw [encode, decode_aritop]
    simp [decodeAritop]
  | addi rd k | subi rd k | cmpi rd k =>
    have hk : -8 ≤ k ∧ k ≤ 7 := of_decide_eq_true h
    rw [encode, decode_aritop]
    simp [decodeAritop, toInt_ofInt_4 hk]
  | shra rd n | shla rd n =>
    have hn : n ≤ 15 := of_decide_eq_true h
    rw [encode, decode_aritop]
    simp only [decodeAritop, toNat_ofNat_4 hn]
    simp
  | and rd rs | or rd rs | not rd | xor rd rs | test rd rs =>
    rw [encode, decode_bitop]
    simp [decodeBitop]
  | bit rd n | setbit rd n | clrbit rd n | cplbit rd n | shr rd n | shl rd n | ror rd n | rol rd n | rorc rd n | rolc rd n =>
    have hn : n ≤ 15 := of_decide_eq_true h
    rw [encode, decode_bitop]
    simp only [decodeBitop, toNat_ofNat_4 hn]
    simp
  | ldo rd rs off | sto rd off rs =>
    obtain ⟨hoff, heven⟩ := (isOff_iff off).mp h
    simp only [encode, decode, fields_op1, fields_op2, fields_a, fields_b, toInt_ofInt_half hoff heven]
    simp
  | ldr rd rs ri | str rd ri rs => simp [encode, decode]
  | ldb rd rs | stb rd rs | ldp rd rs | stp rd rs | movrr rd rs | movar ad rs | movra rd ax | movru rd | movur rs
  | swapr rd rs | swapm rd rs | push rd | pop rd =>
    rw [encode, decode_xfer]
    simp [decodeXfer]
  | movl rd k =>
    have hk : -128 ≤ k ∧ k ≤ 127 := of_decide_eq_true h
    simp [encode, decode, toInt_ofInt_8 hk]
  | movh rd k =>
    have hk : k ≤ 255 := of_decide_eq_true h
    simp only [encode, decode, fields8_op1, fields8_op2, fields8_k, toNat_ofNat_8 hk]
    simp
  | jz dif | jnz dif | jn dif | jnn dif | jp dif | jnp dif | jc dif | jnc dif | jv dif | jnv dif | ja dif | jna dif
  | jlt dif | jle dif | jgt dif | jge dif =>
    have hdif : -128 ≤ dif ∧ dif ≤ 127 := of_decide_eq_true h
    rw [encode, decode_cond]
    simp [decodeCond, toInt_ofInt_8 hdif]
  | jmp dif | call dif | callf dif =>
    have hdif : -2048 ≤ dif ∧ dif ≤ 2047 := of_decide_eq_true h
    simp [encode, decode, toInt_ofInt_12 hdif]
  | jmpr rs | cr rs | crf rs | ret | retf | rfe | nop =>
    rw [encode, decode_code]
    simp [decodeCode]
  | swe k =>
    have hk : k ≤ 255 := of_decide_eq_true h
    rw [encode, decode_swe, toNat_ofNat_8 hk]

end Sys2Proof

namespace Sys2Proof.Machine

/-! ### Addresses and accesses -/

/-- The byte above an even address never wraps (R66). -/
theorem toNat_add_one_of_even {a : Word} (h : isEven a = true) : (a + 1).toNat = a.toNat + 1 := by
  have hmod : a.toNat % 2 = 0 := by simpa [isEven, BitVec.getLsbD, Nat.testBit_zero] using h
  bv_omega

/-- The two bytes of a word just stored (R62, R63). -/
theorem State.bytesAt_setWord {s : State} (h : s.canonical = true) (a v : Word) :
    (s.setWord a v).byteAt a = v.extractLsb' 8 8 ∧ (s.setWord a v).byteAt (a + 1) = v.extractLsb' 0 8 := by
  simp [State.byteAt_setWord h]

theorem State.byteAt_setByte_ne {s : State} (h : s.canonical = true) {a b : Word} (v : Byte) (hne : b ≠ a) :
    (s.setByte a v).byteAt b = s.byteAt b := by
  rw [State.byteAt_setByte h, if_neg hne]

theorem State.byteAt_setByte_same {s : State} (h : s.canonical = true) (a : Word) (v : Byte) :
    (s.setByte a v).byteAt a = v := by
  rw [State.byteAt_setByte h, if_pos rfl]

/-- A word load into Rd from an odd address (R210). -/
theorem State.loadInto_odd (s : State) (rd : Reg) {ea : Word} (h : isEven ea = false) : s.loadInto rd ea = s.misaligned :=
  s.withLoadGap_odd _ h

/-- RFE with an odd SP (R278, R327). -/
theorem State.returnFromException_odd {s : State} (h : isEven (s.reg .sp) = false) :
    s.returnFromException = s.misaligned := by
  simp only [State.returnFromException, State.load_odd s h]

/-! ### What a step can do (R332) -/

/-- Everything a step can do after its boundary: an interrupt, a misaligned fetch, an invalid opcode, or an instruction. -/
theorem step_cases (s : State) :
    (∃ i, s.boundary.readyInt = some i ∧ step s = s.boundary.takeInt i) ∨
    (s.boundary.readyInt = none ∧ isEven s.boundary.pc = false ∧ step s = s.boundary.fetchMisaligned) ∨
    (s.boundary.readyInt = none ∧ isEven s.boundary.pc = true ∧
      ((∃ e, s.boundary.fetched = .error e ∧ step s = s.boundary.gap.invalidOpcode) ∨
        ∃ i, s.boundary.fetched = .ok i ∧ step s = exec i s.boundary.gap)) := by
  cases hint : s.boundary.readyInt with
  | some i => simp [step, State.dispatch, hint]
  | none =>
    cases heven : isEven s.boundary.pc with
    | false => simp [step, State.dispatch, hint, heven]
    | true => cases hf : s.boundary.fetched <;> simp [step, State.dispatch, hint, heven, hf]

/-- With no interrupt to take, an instruction fetched at an even pc runs after the gap of its fetch (R69, R72). -/
theorem step_of_fetched {s : State} {i : Instr} (hint : s.boundary.readyInt = none) (heven : isEven s.boundary.pc = true)
    (hf : s.boundary.fetched = .ok i) : step s = exec i s.boundary.gap := by
  simp [step, State.dispatch, hint, heven, hf]

/-- The instruction stored at pc is the one fetched (R62, R69). -/
theorem State.fetched_setWord_pc {s : State} (h : s.canonical = true) {i : Instr} (hi : i.WellFormed) :
    (s.setWord s.pc (encode i)).fetched = .ok i := by
  have hword : (s.setWord s.pc (encode i)).wordAt s.pc = encode i := State.wordAt_setWord h _ _
  calc (s.setWord s.pc (encode i)).fetched
      = decode ((s.setWord s.pc (encode i)).wordAt s.pc) := rfl
    _ = .ok i := by rw [hword, decode_encode i hi]

/-- A 16-bit word placed where the next step fetches is that word stored at pc. -/
theorem State.withFetchWord_toNat (s : State) (w : Word) : s.withFetchWord 16 w.toNat = s.setWord s.pc w := by
  have hw : BitVec.ofNat 16 (w.toNat % 2 ^ 16) = w := by rw [Nat.mod_eq_of_lt w.isLt, BitVec.ofNat_toNat, BitVec.setWidth_eq]
  rw [State.withFetchWord, State.placeAtPc, hw]

/-! ### The canonical form under the operations that write no memory -/

theorem State.canonical_of_mem {s t : State} (h : t.mem = s.mem) : t.canonical = s.canonical := congrArg Memory.wf h

@[simp] theorem State.canonical_setCell (s : State) (p : Phys) (v : Word) : (s.setCell p v).canonical = s.canonical :=
  State.canonical_of_mem (by simp)
@[simp] theorem State.canonical_setReg (s : State) (d : Reg) (v : Word) : (s.setReg d v).canonical = s.canonical :=
  s.canonical_setCell _ v
@[simp] theorem State.canonical_setFlags (s : State) (f : FlagUpd) : (s.setFlags f).canonical = s.canonical :=
  s.canonical_setCell _ _
@[simp] theorem State.canonical_wr (s : State) (d : Reg) (v : Word) (f : FlagUpd) : (s.wr d v f).canonical = s.canonical :=
  State.canonical_of_mem (by simp)
@[simp] theorem State.canonical_setPc (s : State) (x : Word) : (s.setPc x).canonical = s.canonical := rfl
@[simp] theorem State.canonical_advance (s : State) : s.advance.canonical = s.canonical := rfl
@[simp] theorem State.canonical_drawn (s : State) (k : Nat) : (s.drawn k).canonical = s.canonical := rfl
@[simp] theorem State.canonical_link (s : State) : s.link.canonical = s.canonical := rfl

@[simp] theorem State.canonical_shiftReg (s : State) (rd : Reg) (n : Nat) (op : Word → Nat → Shifted) :
    (s.shiftReg rd n op).canonical = s.canonical := by
  unfold State.shiftReg; split <;> simp

theorem State.gap_canonical {s : State} (h : s.canonical = true) : s.gap.canonical = true := State.gap_wf h

/-! ### The canonical form at the end of an instruction -/

/-- Every next state of `r` has its memory in the canonical form. -/
abbrev EndsCanonical (r : Result) : Prop := Ends (fun t => t.canonical = true) r

namespace EndsCanonical
variable {s t : State}

theorem next (h : t.canonical = true) : EndsCanonical (.next t) := Ends.next h

theorem enter (h : s.canonical = true) (e : Exc) (ret : Word) : EndsCanonical (s.enter e ret) :=
  fun _ ht => State.enter_canonical h ht

theorem misaligned (h : s.canonical = true) : EndsCanonical s.misaligned := enter h _ _

/-- The overflow trap (R144): `t` advanced, or what its EXCESSO entry leaves. -/
theorem trapV (v : Bool) (h : t.canonical = true) : EndsCanonical (s.trapV v t) := Ends.trapV v h (enter h _ _)

theorem withLoad {a : Word} {k : Word → Result} (h : s.canonical = true) (hk : ∀ v, EndsCanonical (k v)) :
    EndsCanonical (s.withLoad a k) := Ends.withLoad (misaligned h) hk

theorem withLoadGap {a : Word} {k : State → Word → Result} (h : s.canonical = true)
    (hk : ∀ u v, u.canonical = true → EndsCanonical (k u v)) : EndsCanonical (s.withLoadGap a k) :=
  withLoad h fun v => hk _ v (State.gap_canonical h)

theorem withStore {a v : Word} {k : State → Result} (h : s.canonical = true)
    (hk : ∀ u, u.canonical = true → EndsCanonical (k u)) : EndsCanonical (s.withStore a v k) :=
  Ends.withStore (misaligned h) (hk _ (State.setWord_wf h a v))

theorem finishMove (h : s.canonical = true) (rd : Reg) (v : Word) : EndsCanonical (s.finishMove rd v) :=
  next (by simpa using h)

theorem loadInto (h : s.canonical = true) (rd : Reg) (ea : Word) : EndsCanonical (s.loadInto rd ea) :=
  withLoadGap h fun _ v hu => finishMove hu rd v

theorem storeFrom (h : s.canonical = true) (ea : Word) (rs : Reg) : EndsCanonical (s.storeFrom ea rs) :=
  withStore h fun _ hu => next hu

theorem callTo (h : s.canonical = true) (x : Word) : EndsCanonical (s.callTo x) :=
  withStore h fun _ hu => next (by simpa using hu)

/-- DIV and MOD (R140 to R142): by zero or not. -/
theorem division (h : s.canonical = true) (rd : Reg) (b r : Word) :
    EndsCanonical (if b = 0 then s.divideByZero rd else s.finishDiv rd r) := by
  split
  · refine Ends.divideByZero rd (enter h _ _) ?_
    rintro _ rfl
    exact trapV true (by simpa using h)
  · exact next (by simpa using h)

theorem mul (h : s.canonical = true) (rd rs : Reg) : EndsCanonical (exec (.mul rd rs) s) := by
  refine trapV _ ?_
  rw [State.canonical_drawn]
  split <;> simpa using h

theorem shla (h : s.canonical = true) (rd : Reg) (n : Nat) : EndsCanonical (exec (.shla rd n) s) := by
  simp only [exec, execShla]
  split
  · exact next (by simpa using h)
  · exact trapV _ (by simpa using h)

theorem swapm (h : s.canonical = true) (rd rs : Reg) : EndsCanonical (exec (.swapm rd rs) s) :=
  withLoad h fun v => withStore (by simpa using h) fun _ hu => finishMove (State.gap_canonical hu) rd _

theorem push (h : s.canonical = true) (rd : Reg) : EndsCanonical (exec (.push rd) s) :=
  withStore h fun _ hu => next (by simpa using hu)

theorem pop (h : s.canonical = true) (rd : Reg) : EndsCanonical (exec (.pop rd) s) := by
  rw [exec_pop]
  exact withLoadGap h fun _ _ hu => next (by simpa using hu)

theorem rfe (h : s.canonical = true) : EndsCanonical (exec .rfe s) :=
  Ends.returnFromException (misaligned h) fun _ _ => by simpa using State.gap_canonical (State.gap_canonical h)

end EndsCanonical

/-- Every instruction, completing or ending in an exception, keeps the canonical form. -/
theorem exec_canonical (i : Instr) {s : State} (h : s.canonical = true) : EndsCanonical (exec i s) := by
  cases i with
  | add | addi | addc | sub | subi | subb | neg | cmp | cmpi => exact .trapV _ (by simpa using h)
  | mul rd rs => exact .mul h rd rs
  | div rd rs | mod rd rs => exact .division h rd _ _
  | shla rd n => exact .shla h rd n
  | and | or | not | xor | test | bit | setbit | clrbit | cplbit => exact .next (by simpa using h)
  | shra | shr | shl | ror | rol | rorc | rolc => exact .next (by simpa using h)
  | ldo rd | ldr rd | ldp rd => exact .loadInto h rd _
  | ldb rd => exact .finishMove (State.gap_canonical h) rd _
  | sto | str | stp => exact .storeFrom h _ _
  | stb => exact .next (State.setByte_wf h _ _)
  | movrr rd | movra rd | movru rd | movl rd | movh rd => exact .finishMove h rd _
  | movar | movur | swapr => exact .next (by simpa using h)
  | swapm rd rs => exact .swapm h rd rs
  | push rd => exact .push h rd
  | pop rd => exact .pop h rd
  | jz | jnz | jn | jnn | jp | jnp | jc | jnc | jv | jnv | ja | jna | jlt | jle | jgt | jge => exact .next h
  | jmp | jmpr | retf | nop => exact .next h
  | call | cr => exact .callTo h _
  | callf | crf => exact .next h
  | ret => exact .withLoad h fun _ => .next (by simpa using h)
  | swe => exact .enter h _ _
  | rfe => exact .rfe h

/-- The canonical form is kept by a step: by its boundary and the gap of its fetch, then by the entry or the instruction. -/
theorem step_canonical {s : State} (h : s.canonical = true) : EndsCanonical (step s) := by
  have hb : s.boundary.canonical = true := State.boundary_canonical h
  rcases step_cases s with ⟨i, -, e⟩ | ⟨-, -, e⟩ | ⟨-, -, ⟨_, -, e⟩ | ⟨i, -, e⟩⟩ <;> rw [e]
  · exact EndsCanonical.enter (s := { s.boundary with pend := s.boundary.pend.set i false, intAck := i == 3 }) hb _ _
  · exact EndsCanonical.enter hb _ _
  · exact EndsCanonical.enter (State.gap_canonical hb) _ _
  · exact exec_canonical i (State.gap_canonical hb)

end Sys2Proof.Machine

open Sys2Proof Sys2Proof.Machine

/-! ### The statements -/

/-- Settles O56: every ending of a step keeps the canonical form (`step_canonical`). -/
theorem stepKeepsMemoryCanonical : Obligations.StepKeepsMemoryCanonical :=
  fun _ _ h ht => step_canonical h _ ht

/-- Settles O7: placing the word commutes with the quiet boundary, and what is fetched from it is the instruction
(`State.fetched_setWord_pc`). -/
theorem placedWordRunsNext : Obligations.PlacedWordRunsNext := by
  intro s i hi hc henv hint heven
  have hb : (s.setWord s.pc (encode i)).boundary =
      State.setWord { s with intAck := false, busGrant := false } s.pc (encode i) := State.boundary_quiet henv
  rw [State.withFetchWord_toNat, State.withFetchWord_toNat, ← hb]
  refine step_of_fetched ?_ ?_ ?_ <;> rw [hb]
  · exact hint
  · exact heven
  · exact State.fetched_setWord_pc (s := { s with intAck := false, busGrant := false }) hc hi

/-- Settles O47: each of them is `State.misaligned` at an odd address, a push and a call because `SP - 2` is odd with SP. -/
theorem misalignedAccessEntersDDesalinhado : Obligations.MisalignedAccessEntersDDesalinhado := by
  intro s i rd rs ri off dif hc h
  suffices exec i s = s.misaligned from this ▸ State.misaligned_takes hc
  rcases h with ⟨rfl, h⟩ | ⟨rfl, h⟩ | ⟨rfl, h⟩ | ⟨rfl, h⟩ | ⟨rfl, h⟩ | ⟨rfl, h⟩ | ⟨rfl, h⟩ | ⟨hi, h⟩
  · exact s.loadInto_odd rd h
  · exact s.loadInto_odd rd h
  · exact s.withStore_odd _ _ h
  · exact s.withStore_odd _ _ h
  · exact s.loadInto_odd rd h
  · exact s.withStore_odd _ _ h
  · exact s.withLoad_odd _ h
  · have hslot : isEven s.pushSlot = false := (isEven_sub_two _).trans h
    rcases hi with rfl | rfl | rfl | rfl | rfl | rfl
    · exact s.withStore_odd _ _ hslot
    · rw [exec_pop, s.withLoadGap_odd _ h]
    · exact s.withStore_odd _ _ hslot
    · exact s.withStore_odd _ _ hslot
    · exact s.withLoad_odd _ h
    · exact State.returnFromException_odd h

/-- Settles O54: an even address has its second byte above it (`toNat_add_one_of_even`), and the accesses split on parity. -/
theorem wordAccessPrimitives : Obligations.WordAccessPrimitives := by
  intro s a v read written hc
  refine ⟨toNat_add_one_of_even, s.withLoad_even read, fun h => ?_, fun h => ⟨s.faultRer, ?_, ?_⟩⟩
  · obtain ⟨hhigh, hlow⟩ := State.bytesAt_setWord hc a v
    exact ⟨_, s.withStore_even v written h, hhigh, hlow, (Keeps.refl ..).setWord hc v (by simp) (by simp), rfl⟩
  · exact s.withLoad_odd read h
  · exact s.withStore_odd v written h

/-- Settles O53: the bytes of a stored word (`State.bytesAt_setWord`), and a byte beside the one written. -/
theorem mixedWidthAccess : Obligations.MixedWidthAccess := by
  intro s hc
  refine ⟨fun a v h => ⟨_, s.store_even v h, State.bytesAt_setWord hc a v⟩, fun b w => ?_⟩
  have hne : (if isEven b then b + 1 else b - 1) ≠ b := by split <;> bv_omega
  exact ⟨State.byteAt_setByte_same hc b w, State.byteAt_setByte_ne hc w hne⟩

/-- Settles O55: a byte read after a byte write, at the same and at another address. -/
theorem byteAccessPrimitives : Obligations.ByteAccessPrimitives :=
  fun _ a _ v hc => ⟨State.byteAt_setByte_same hc a v, State.byteAt_setByte_ne hc v,
    (Keeps.refl ..).setByte hc v (by simp)⟩

end

section
/-!
PROOFS. The statements on 30_encoding.md: decoding and encoding undo each other up to the ignored fields (O1, O2, O3), and
the words that are no instruction (O4) with the COD_INV they take (O48). What a word decodes to is said once, by
`decode_eq_ok_iff`; which words decode to nothing, by `decode_error_iff`.
-/
namespace Sys2Proof

/-! ### Operands read from a field fit it (R95 to R97) -/

theorem isK4_toInt (b : BitVec 4) : isK4 b.toInt = true := by revert b; decide

theorem isN4_toNat (b : BitVec 4) : isN4 b.toNat = true := by revert b; decide

theorem isOff_double (b : BitVec 4) : isOff (b.toInt * 2) = true := by revert b; decide

theorem isS8_toInt (k : BitVec 8) : isS8 k.toInt = true := by
  have hlo := BitVec.le_toInt k
  have hhi := BitVec.toInt_lt (x := k)
  exact decide_eq_true (by omega)

theorem isU8_toNat (k : BitVec 8) : isU8 k.toNat = true := decide_eq_true (by omega)

theorem isS12_toInt (d : BitVec 12) : isS12 d.toInt = true := by
  have hlo := BitVec.le_toInt d
  have hhi := BitVec.toInt_lt (x := d)
  exact decide_eq_true (by omega)

/-! ### The ignored fields of a word (R98)

The masks are spelt `15#4` and `65535#16`, as `simp` leaves them. -/

@[simp] theorem fields_without_operand2 (p q a b : BitVec 4) :
    fields p q a b &&& ~~~fieldAt Opmap.operand2At 15#4 = fields p q a 0 := by
  apply BitVec.eq_of_getLsbD_eq
  intro i hi
  simp only [fields_append, fieldAt, Opmap.operand2At, BitVec.getLsbD_and, BitVec.getLsbD_append]
  interval_cases i <;> simp

@[simp] theorem fields_without_operand1 (p q a b : BitVec 4) :
    fields p q a b &&& ~~~fieldAt Opmap.operand1At 15#4 = fields p q 0 b := by
  apply BitVec.eq_of_getLsbD_eq
  intro i hi
  simp only [fields_append, fieldAt, Opmap.operand1At, BitVec.getLsbD_and, BitVec.getLsbD_append]
  interval_cases i <;> simp

@[simp] theorem fields_without_operands (p q a b : BitVec 4) :
    fields p q a b &&& ~~~(fieldAt Opmap.operand1At 15#4 ||| fieldAt Opmap.operand2At 15#4) = fields p q 0 0 := by
  rw [BitVec.not_or, ← BitVec.and_assoc, fields_without_operand1, fields_without_operand2]

theorem fields_inj {p q a b p' q' a' b' : BitVec 4} :
    fields p q a b = fields p' q' a' b' ↔ p = p' ∧ q = q' ∧ a = a' ∧ b = b' := by
  refine ⟨fun h => ⟨?_, ?_, ?_, ?_⟩, by rintro ⟨rfl, rfl, rfl, rfl⟩; rfl⟩
  · simpa using congrArg opcode1 h
  · simpa using congrArg opcode2 h
  · simpa using congrArg operand1 h
  · simpa using congrArg operand2 h

/-! ### Encoding a decoded instruction (R98, R107, R108)

Each table first: every branch that answers an instruction fixes the second opcode, and the word is rebuilt from the fields
the instruction was read from. Then the first opcode, with the instructions that have one of their own. -/

@[simp] theorem and_ffff (w : Word) : w &&& 65535#16 = w := BitVec.and_allOnes

/-- `w` is the word of `i` but for the fields `i` ignores, and the operands of `i` fit a word. -/
structure Instr.WrittenAs (i : Instr) (w : Word) : Prop where
  fits : i.WellFormed
  word : encode i = w &&& ~~~i.ignoredBits

theorem decodeAritop_writtenAs {q a b : BitVec 4} {i : Instr} (h : decodeAritop q a b = .ok i) :
    i.WrittenAs (fields Opmap.aritop q a b) := by
  revert h
  fun_cases decodeAritop q a b <;> intro h <;> cases h <;> subst q
  all_goals exact ⟨by simp [Instr.WellFormed, Instr.wellFormed, isK4_toInt, isN4_toNat],
    by simp +zetaDelta [encode, Instr.ignoredBits]⟩

theorem decodeBitop_writtenAs {q a b : BitVec 4} {i : Instr} (h : decodeBitop q a b = .ok i) :
    i.WrittenAs (fields Opmap.bitop q a b) := by
  revert h
  fun_cases decodeBitop q a b <;> intro h <;> cases h <;> subst q
  all_goals exact ⟨by simp [Instr.WellFormed, Instr.wellFormed, isN4_toNat],
    by simp +zetaDelta [encode, Instr.ignoredBits]⟩

theorem decodeXfer_writtenAs {q a b : BitVec 4} {i : Instr} (h : decodeXfer q a b = .ok i) :
    i.WrittenAs (fields Opmap.xfer q a b) := by
  revert h
  fun_cases decodeXfer q a b <;> intro h <;> cases h <;> subst q
  all_goals exact ⟨rfl, by simp +zetaDelta [encode, Instr.ignoredBits]⟩

theorem decodeCond_writtenAs (q : BitVec 4) (k : BitVec 8) : (decodeCond q k).WrittenAs (fields8 Opmap.cond q k) := by
  fun_cases decodeCond q k
  case case16 =>
    obtain rfl : q = Opmap.Cond.jge := by bv_omega
    exact ⟨isS8_toInt k, by simp +zetaDelta [encode, Instr.ignoredBits]⟩
  all_goals
    subst q
    exact ⟨isS8_toInt k, by simp +zetaDelta [encode, Instr.ignoredBits]⟩

theorem decodeCode_writtenAs {q a b : BitVec 4} {i : Instr} (h : decodeCode q b (a ++ b) = .ok i) :
    i.WrittenAs (fields Opmap.code q a b) := by
  revert h
  fun_cases decodeCode q b (a ++ b) <;> intro h <;> cases h <;> subst q
  all_goals exact ⟨by simp [Instr.WellFormed, Instr.wellFormed, isU8_toNat],
    by simp +zetaDelta [encode, Instr.ignoredBits, fields8_eq]⟩

theorem Instr.WrittenAs.of_eq {i : Instr} {w w' : Word} (h : i.WrittenAs w) (e : w = w') : i.WrittenAs w' := e ▸ h

/-- A word of which the first opcode is known, from its other fields. -/
theorem fields_of_opcode1 {w : Word} {p : BitVec 4} (h : opcode1 w = p) :
    fields p (opcode2 w) (operand1 w) (operand2 w) = w := h ▸ fields_extract w

theorem fields8_of_opcode1 {w : Word} {p : BitVec 4} (h : opcode1 w = p) : fields8 p (opcode2 w) (constant8 w) = w :=
  h ▸ fields8_extract w

theorem fields12_of_opcode1 {w : Word} {p : BitVec 4} (h : opcode1 w = p) : fields12 p (constant12 w) = w :=
  h ▸ fields12_extract w

/-- Whatever a word decodes to is written as that word, ignored fields apart (R98, R107, R108). -/
theorem decode_writtenAs {w : Word} {i : Instr} (h : decode w = .ok i) : i.WrittenAs w := by
  revert h
  fun_cases decode w <;> intro h
  case case1 hop => exact (decodeAritop_writtenAs h).of_eq (fields_of_opcode1 hop)
  case case2 hop => exact (decodeBitop_writtenAs h).of_eq (fields_of_opcode1 hop)
  case case7 hop => exact (decodeXfer_writtenAs h).of_eq (fields_of_opcode1 hop)
  case case14 hop => exact (decodeCode_writtenAs h).of_eq (fields_of_opcode1 hop)
  all_goals cases h
  case case10 hop => exact (decodeCond_writtenAs _ _).of_eq (fields8_of_opcode1 hop)
  -- LDO, STO; LDR, STR; MOVL; MOVH; JMP, CALL, CALLF
  case case3 hop | case5 hop =>
    exact ⟨isOff_double _, by simpa +zetaDelta [encode, Instr.ignoredBits] using fields_of_opcode1 hop⟩
  case case4 hop | case6 hop =>
    exact ⟨rfl, by simpa +zetaDelta [encode, Instr.ignoredBits] using fields_of_opcode1 hop⟩
  case case8 hop => exact ⟨isS8_toInt _, by simpa +zetaDelta [encode, Instr.ignoredBits] using fields8_of_opcode1 hop⟩
  case case9 hop => exact ⟨isU8_toNat _, by simpa +zetaDelta [encode, Instr.ignoredBits] using fields8_of_opcode1 hop⟩
  case case11 hop | case12 hop | case13 hop =>
    exact ⟨isS12_toInt _, by simpa +zetaDelta [encode, Instr.ignoredBits] using fields12_of_opcode1 hop⟩

/-! ### The ignored fields are ignored -/

theorem and_xor_and (u v m : Word) : (u &&& m) ^^^ (v &&& m) = (u ^^^ v) &&& m := by
  ext j
  simp [Bool.and_xor_distrib_right]

/-- The other fields of a word that is `fields p q a 0` but for B. -/
theorem eq_fields_of_without_operand2 {w : Word} {p q a : BitVec 4}
    (h : fields p q a 0 = w &&& ~~~fieldAt Opmap.operand2At 15#4) : w = fields p q a (operand2 w) := by
  rw [← fields_extract w, fields_without_operand2, fields_inj] at h
  obtain ⟨rfl, rfl, rfl, -⟩ := h
  exact (fields_extract w).symm

/-- The same for A. -/
theorem eq_fields_of_without_operand1 {w : Word} {p q b : BitVec 4}
    (h : fields p q 0 b = w &&& ~~~fieldAt Opmap.operand1At 15#4) : w = fields p q (operand1 w) b := by
  rw [← fields_extract w, fields_without_operand1, fields_inj] at h
  obtain ⟨rfl, rfl, -, rfl⟩ := h
  exact (fields_extract w).symm

/-- The same for A and B. -/
theorem eq_fields_of_without_operands {w : Word} {p q : BitVec 4}
    (h : fields p q 0 0 = w &&& ~~~(fieldAt Opmap.operand1At 15#4 ||| fieldAt Opmap.operand2At 15#4)) :
    w = fields p q (operand1 w) (operand2 w) := by
  rw [← fields_extract w, fields_without_operands, fields_inj] at h
  obtain ⟨rfl, rfl, -, -⟩ := h
  exact (fields_extract w).symm

theorem eq_encode_of_ignores_nothing {i : Instr} {w : Word} (hi : i.ignoredBits = 0)
    (h : encode i = w &&& ~~~i.ignoredBits) : w = encode i := by
  simp [h, hi]

/-- The forms that ignore B, whatever it holds: `decode_aritop`, `decode_bitop` and `decode_xfer` read A alone. -/
theorem decode_ignores_operand2 (d x : BitVec 4) :
    decode (fields Opmap.aritop Opmap.Arit.neg d x) = .ok (.neg (Reg.ofField d)) ∧
    decode (fields Opmap.bitop Opmap.Bit.not d x) = .ok (.not (Reg.ofField d)) ∧
    decode (fields Opmap.xfer Opmap.Xfer.movru d x) = .ok (.movru (Reg.ofField d)) ∧
    decode (fields Opmap.xfer Opmap.Xfer.push d x) = .ok (.push (Reg.ofField d)) ∧
    decode (fields Opmap.xfer Opmap.Xfer.pop d x) = .ok (.pop (Reg.ofField d)) :=
  ⟨decode_aritop _ d x, decode_bitop _ d x, decode_xfer _ d x, decode_xfer _ d x, decode_xfer _ d x⟩

/-- The forms that ignore A, whatever it holds. -/
theorem decode_ignores_operand1 (x s : BitVec 4) :
    decode (fields Opmap.xfer Opmap.Xfer.movur x s) = .ok (.movur (Reg.ofField s)) ∧
    decode (fields Opmap.code Opmap.Code.jmpr x s) = .ok (.jmpr (Reg.ofField s)) ∧
    decode (fields Opmap.code Opmap.Code.cr x s) = .ok (.cr (Reg.ofField s)) ∧
    decode (fields Opmap.code Opmap.Code.crf x s) = .ok (.crf (Reg.ofField s)) :=
  ⟨decode_xfer _ x s, decode_code _ x s, decode_code _ x s, decode_code _ x s⟩

/-- The forms that ignore both operand fields. -/
theorem decode_ignores_operands (x y : BitVec 4) :
    decode (fields Opmap.code Opmap.Code.ret x y) = .ok .ret ∧
    decode (fields Opmap.code Opmap.Code.retf x y) = .ok .retf ∧
    decode (fields Opmap.code Opmap.Code.rfe x y) = .ok .rfe ∧
    decode (fields Opmap.code Opmap.Code.nop x y) = .ok .nop :=
  ⟨decode_code _ x y, decode_code _ x y, decode_code _ x y, decode_code _ x y⟩

/-- A word written as `i` says decodes to `i`: an instruction without ignored fields by `decode_encode`, the thirteen others
because the decoder does not read the fields they ignore. -/
theorem Instr.WrittenAs.decode_eq {i : Instr} {w : Word} (h : i.WrittenAs w) : decode w = .ok i := by
  obtain ⟨hfits, hword⟩ := h
  cases i
  case neg d | not d | movru d | push d | pop d =>
    obtain ⟨hneg, hnot, hmovru, hpush, hpop⟩ := decode_ignores_operand2 d.field (operand2 w)
    rw [eq_fields_of_without_operand2 hword]
    rw [Reg.ofField_field] at hneg hnot hmovru hpush hpop
    assumption
  case movur s | jmpr s | cr s | crf s =>
    obtain ⟨hmovur, hjmpr, hcr, hcrf⟩ := decode_ignores_operand1 (operand1 w) s.field
    rw [eq_fields_of_without_operand1 hword]
    rw [Reg.ofField_field] at hmovur hjmpr hcr hcrf
    assumption
  case ret | retf | rfe | nop =>
    obtain ⟨hret, hretf, hrfe, hnop⟩ := decode_ignores_operands (operand1 w) (operand2 w)
    rw [eq_fields_of_without_operands hword]
    assumption
  all_goals
    rw [eq_encode_of_ignores_nothing rfl hword, decode_encode _ hfits]

/-- What a word decodes to (R98, R107, R108). -/
theorem decode_eq_ok_iff {w : Word} {i : Instr} : decode w = .ok i ↔ i.WrittenAs w :=
  ⟨decode_writtenAs, Instr.WrittenAs.decode_eq⟩

/-! ### The words that are no instruction (R106) -/

theorem decodeAritop_error_iff (q a b : BitVec 4) : (∃ e, decodeAritop q a b = .error e) ↔ 0xC ≤ q ∧ q ≤ 0xD := by
  fun_cases decodeAritop q a b
  case case15 => simp; bv_omega
  all_goals subst q; simp

theorem decodeBitop_error_iff (q a b : BitVec 4) : (∃ e, decodeBitop q a b = .error e) ↔ q = 0xF := by
  fun_cases decodeBitop q a b
  case case16 => simp; bv_omega
  all_goals subst q; simp

theorem decodeXfer_error_iff (q a b : BitVec 4) : (∃ e, decodeXfer q a b = .error e) ↔ 0xD ≤ q := by
  fun_cases decodeXfer q a b
  case case14 => simp; bv_omega
  all_goals subst q; simp

theorem decodeCode_error_iff (q b : BitVec 4) (k : BitVec 8) : (∃ e, decodeCode q b k = .error e) ↔ 0x8 ≤ q := by
  fun_cases decodeCode q b k
  case case9 => simp; bv_omega
  all_goals subst q; simp

theorem decode_error_iff (w : Word) : (∃ e, decode w = .error e) ↔
    0xE ≤ opcode1 w ∨ (opcode1 w = Opmap.aritop ∧ 0xC ≤ opcode2 w ∧ opcode2 w ≤ 0xD) ∨
      (opcode1 w = Opmap.bitop ∧ opcode2 w = 0xF) ∨ (opcode1 w = Opmap.xfer ∧ 0xD ≤ opcode2 w) ∨
      (opcode1 w = Opmap.code ∧ 0x8 ≤ opcode2 w) := by
  fun_cases decode w
  case case1 hop => rw [decodeAritop_error_iff]; simp_all +zetaDelta
  case case2 hop => rw [decodeBitop_error_iff]; simp_all +zetaDelta
  case case7 hop => rw [decodeXfer_error_iff]; simp_all +zetaDelta
  case case14 hop => rw [decodeCode_error_iff]; simp_all +zetaDelta
  case case15 =>
    have hfree : 0xE ≤ opcode1 w := by
      dsimp +zetaDelta only at *
      bv_omega
    exact iff_of_true ⟨_, rfl⟩ (.inl hfree)
  all_goals simp_all +zetaDelta

/-- The opcodes of a word as digits of its number (R91, D2). -/
theorem toNat_opcode1 (w : Word) : (opcode1 w).toNat = w.toNat / 4096 := by
  simp [opcode1, Opmap.opcode1At, BitVec.extractLsb'_toNat, Nat.shiftRight_eq_div_pow]
  omega

theorem toNat_opcode2 (w : Word) : (opcode2 w).toNat = w.toNat / 256 % 16 := by
  simp [opcode2, Opmap.opcode2At, BitVec.extractLsb'_toNat, Nat.shiftRight_eq_div_pow]

end Sys2Proof

namespace Sys2Proof.Machine

/-- A word that is no instruction, fetched at an even pc with no interrupt to take (R326). -/
theorem step_of_invalid {s : State} {e : DecodeError} (hint : s.boundary.readyInt = none)
    (heven : isEven s.boundary.pc = true) (hf : s.boundary.fetched = .error e) :
    step s = s.boundary.gap.enter .codInv (s.boundary.pc + 2) := by
  simp [step, State.dispatch, hint, heven, hf, State.invalidOpcode, State.eis]

end Sys2Proof.Machine

open Sys2Proof Sys2Proof.Machine

/-! ### The statements -/

/-- Settles O1: `decode_encode`. -/
theorem decodeOfEncode : Obligations.DecodeOfEncode := decode_encode

/-- Settles O2: `decode_writtenAs`. -/
theorem encodeOfDecode : Obligations.EncodeOfDecode := by
  intro w i h
  obtain ⟨hfits, hword⟩ := decode_writtenAs h
  exact ⟨hfits, hword⟩

/-- Settles O3: by `decode_eq_ok_iff` what a word decodes to does not depend on the fields the instruction ignores. -/
theorem ignoredFieldsAreIgnored : Obligations.IgnoredFieldsAreIgnored := by
  refine ⟨fun w w' i h hdiff => ?_, fun d s x y => ?_⟩
  · obtain ⟨hfits, hword⟩ := decode_writtenAs h
    have hsame : w &&& ~~~i.ignoredBits = w' &&& ~~~i.ignoredBits :=
      BitVec.xor_eq_zero_iff.mp ((and_xor_and w w' _).trans hdiff)
    exact decode_eq_ok_iff.mpr ⟨hfits, hword.trans hsame⟩
  · obtain ⟨hneg, hnot, hmovru, hpush, hpop⟩ := decode_ignores_operand2 d x
    obtain ⟨hmovur, hjmpr, hcr, hcrf⟩ := decode_ignores_operand1 x s
    obtain ⟨hret, hretf, hrfe, hnop⟩ := decode_ignores_operands x y
    exact ⟨hneg, hnot, hmovru, hmovur, hpush, hpop, hjmpr, hcr, hcrf, hret, hretf, hrfe, hnop⟩

/-- Settles O4: the free opcodes of `decode_error_iff` as ranges of the word's number. -/
theorem invalidWords : Obligations.InvalidWords := by
  intro w
  have h1 := toNat_opcode1 w
  have h2 := toNat_opcode2 w
  rw [decode_error_iff]
  bv_omega

/-- Settles O48: the step is the entry of COD_INV from the state after the gap (`step_of_invalid`), which is canonical. -/
theorem invalidWordEntersCodInv : Obligations.InvalidWordEntersCodInv := by
  rintro s b e rfl hint heven hf hc
  rw [step_of_invalid hint heven hf]
  exact State.enter_takes (State.gap_canonical hc) _ _

end

section
/-!
PROOFS. The statements on 40_arithmetic.md: sums and differences (O8, O9), comparisons and the jumps after them (O10, O11),
MUL (O12), DIV and MOD (O13, O14, O15), the overflow trap (O16); and the sample words of 30_encoding.md (O5). Each instruction
is first written as its ending (`exec_add` and the like); what the ending does when the trap is not taken, and when it is, is
then said once for all instructions that share it.
-/
namespace Sys2Proof.Machine

/-! ### Each instruction as its ending -/

theorem exec_add (s : State) (rd rs : Reg) :
    exec (.add rd rs) s = s.finishAlu rd (addc (s.reg rd) (s.reg rs) false) := rfl
theorem exec_addi (s : State) (rd : Reg) (k : Int) :
    exec (.addi rd k) s = s.finishAlu rd (addc (s.reg rd) (BitVec.ofInt 16 k) false) := rfl
theorem exec_addc (s : State) (rd rs : Reg) :
    exec (.addc rd rs) s = s.finishAlu rd (addc (s.reg rd) (s.reg rs) (s.flag .c)) := rfl
theorem exec_sub (s : State) (rd rs : Reg) :
    exec (.sub rd rs) s = s.finishAlu rd (subb (s.reg rd) (s.reg rs) false) := rfl
theorem exec_subi (s : State) (rd : Reg) (k : Int) :
    exec (.subi rd k) s = s.finishAlu rd (subb (s.reg rd) (BitVec.ofInt 16 k) false) := rfl
theorem exec_subb (s : State) (rd rs : Reg) :
    exec (.subb rd rs) s = s.finishAlu rd (subb (s.reg rd) (s.reg rs) (s.flag .c)) := rfl
theorem exec_neg (s : State) (rd : Reg) : exec (.neg rd) s = s.finishAlu rd (subb 0 (s.reg rd) false) := rfl
theorem exec_cmp (s : State) (rd rs : Reg) :
    exec (.cmp rd rs) s = s.finishCmp (subb (s.reg rd) (s.reg rs) false) := rfl
theorem exec_cmpi (s : State) (rd : Reg) (k : Int) :
    exec (.cmpi rd k) s = s.finishCmp (subb (s.reg rd) (BitVec.ofInt 16 k) false) := rfl

/-- SHLA by at least one place (R194). -/
theorem exec_shla (s : State) (rd : Reg) {n : Nat} (hn : 1 ≤ n) :
    exec (.shla rd n) s = s.finishAlu rd ⟨s.reg rd <<< n, (s.reg rd).getLsbD (16 - n), shlaV (s.reg rd) n⟩ := by
  have hn0 : n ≠ 0 := by omega
  simp only [exec, execShla, if_neg hn0]
  rfl

theorem exec_div (s : State) (rd : Reg) {rs : Reg} (h : s.reg rs ≠ 0) :
    exec (.div rd rs) s =
      s.finishDiv rd ((quotient .signedTruncating (s.reg rd) (s.reg rs)).getD s.anyWord) := if_neg h

theorem exec_mod (s : State) (rd : Reg) {rs : Reg} (h : s.reg rs ≠ 0) :
    exec (.mod rd rs) s = s.finishDiv rd (remainder .signedTruncating (s.reg rd) (s.reg rs)) := if_neg h

/-- DIV and MOD by zero (R141). -/
theorem exec_division_zero {s : State} {rd rs : Reg} {i : Instr} (hi : i = .div rd rs ∨ i = .mod rd rs)
    (h : s.reg rs = 0) : exec i s = s.divideByZero rd := by
  rcases hi with rfl | rfl <;> exact if_pos h

/-! ### What was written, taken apart -/

/-- `Wrote` for a register other than RE (R31). -/
theorem wrote_iff_of_ne {s t : State} {d : Reg} {v : Word} {l : List (ReField × Bool)} (hd : d ≠ .re) : Wrote s t d v l ↔
    t.cell (s.phys d) = v ∧ (∀ f ∈ l, t.flag f.1 = f.2) ∧ Keeps s t [s.phys d] (l.map fun f => f.1.index) [] := by
  rw [Wrote, if_neg hd]

/-- The four flags of a list of assignments. -/
theorem flags_of_list {t : State} {z n c v : Bool}
    (h : ∀ f ∈ [(ReField.z, z), (.n, n), (.c, c), (.v, v)], t.flag f.1 = f.2) :
    t.flag .z = z ∧ t.flag .n = n ∧ t.flag .c = c ∧ t.flag .v = v := by
  simpa using h

/-! ### The overflow trap (R144) -/

/-- A trapped overflow is the taking of EXCESSO from the state the instruction wrote. -/
theorem State.trapV_takes {s after : State} {v : Bool} (htv : s.flag .tv = true) (hv : v = true)
    (hc : after.canonical = true) : Takes (s.trapV v after) after .excesso (s.pc + 2) := by
  rw [s.trapV_excesso after htv hv]
  exact State.enter_takes hc _ _

section
variable {s : State} {x : Alu} {r : Word} {c : Bool} {n : Int}

/-- A result whose exact signed value is `n`, the trap not taken. -/
theorem State.finishAlu_completes (rd : Reg) (hx : x = ⟨r, c, decide (¬ Fits16 n)⟩) (h : s.flag .tv = false ∨ Fits16 n) :
    ∃ t, s.finishAlu rd x = .next t ∧ t.pc = s.pc + 2 ∧
      Wrote s t rd r [(.z, r == 0), (.n, r.msb), (.c, c), (.v, decide (¬ Fits16 n))] := by
  subst hx
  exact s.finishAlu_next rd _ (h.imp_right fun hn => decide_eq_false (not_not_intro hn))

/-- A result whose exact signed value is `n`, the trap taken. -/
theorem State.finishAlu_traps (rd : Reg) (hx : x = ⟨r, c, decide (¬ Fits16 n)⟩) (htv : s.flag .tv = true) (hn : ¬ Fits16 n)
    (hc : s.canonical = true) :
    ∃ u, Wrote s u rd r [(.z, r == 0), (.n, r.msb), (.c, c), (.v, true)] ∧
      Takes (s.finishAlu rd x) u .excesso (s.pc + 2) := by
  subst hx
  exact s.finishAlu_excesso rd ⟨r, c, _⟩ htv (decide_eq_true hn) hc

end

/-- A comparison with the trap (R137, R138, R144). -/
theorem State.finishCmp_traps {s : State} {a b : Word} (htv : s.flag .tv = true) (hn : ¬ Fits16 (a.toInt - b.toInt))
    (hc : s.canonical = true) :
    ∃ u, Flagged s u [(.z, a == b), (.n, (a - b).msb), (.c, decide (a.toNat < b.toNat)), (.v, true)] ∧
      Takes (s.finishCmp (subb a b false)) u .excesso (s.pc + 2) := by
  have hx : subb a b false = ⟨a - b, decide (a.toNat < b.toNat), true⟩ := by
    have hn' : ¬ Fits16 (a.toInt - b.toInt - false.toNat) := by
      rwa [Bool.toNat_false, Nat.cast_zero, sub_zero]
    rw [subb_spec, decide_eq_true hn']
    simp
  have hz : (a == b) = (a - b == 0) := by
    rw [Bool.eq_iff_iff, beq_iff_eq, beq_iff_eq]
    exact sub_eq_zero.symm
  rw [hx, hz, ← FlagUpd.list_flagsZNCV]
  exact ⟨_, s.flagged_setFlags _, State.trapV_takes htv rfl (by simpa using hc)⟩

/-! ### The jumps after a comparison (R258 to R267) -/

/-- N differs from V after a comparison exactly when the first operand is the smaller signed value. -/
theorem msb_sub_xor_overflow (a b : Word) :
    ((a - b).msb ^^ decide (¬ Fits16 (a.toInt - b.toInt))) = decide (a.toInt < b.toInt) := by
  have hmod := Int.bmod_def (a.toInt - b.toInt) (2 ^ 16)
  have ha := a.le_toInt
  have ha' := a.toInt_lt
  have hb := b.le_toInt
  have hb' := b.toInt_lt
  rw [BitVec.msb_eq_toInt, BitVec.toInt_sub, Bool.eq_iff_iff]
  simp only [Bool.xor_iff_ne, Fits16, decide_eq_true_eq, ne_eq, decide_eq_decide]
  omega

/-- A conditional jump whose condition is the proposition `p`. -/
theorem State.jumpIf_eq {s : State} {cond : Cond} {p : Prop} [Decidable p] (h : cond.holds s.re = decide p) (dif : Int) :
    s.jumpIf cond dif = .next (s.setPc (if p then s.target dif else s.eis)) := by
  rw [s.jumpIf_next, h]
  simp only [decide_eq_true_eq]

/-- What the conditions say of the operands of a comparison. -/
structure Compared (re a b : Word) : Prop where
  z : Cond.holds .z re = decide (a = b)
  nz : Cond.holds .nz re = decide (a ≠ b)
  lt : Cond.holds .lt re = decide (a.toInt < b.toInt)
  le : Cond.holds .le re = decide (a.toInt ≤ b.toInt)
  gt : Cond.holds .gt re = decide (b.toInt < a.toInt)
  ge : Cond.holds .ge re = decide (b.toInt ≤ a.toInt)
  c : Cond.holds .c re = decide (a.toNat < b.toNat)
  nc : Cond.holds .nc re = decide (b.toNat ≤ a.toNat)

/-- The flags of a comparison make the conditions compare the operands (R137). -/
theorem Flagged.compared {s t : State} {a b : Word} (h : Flagged s t [(.z, a == b), (.n, (a - b).msb),
    (.c, decide (a.toNat < b.toNat)), (.v, decide (¬ Fits16 (a.toInt - b.toInt)))]) : Compared t.re a b := by
  obtain ⟨hflags, -⟩ := h
  obtain ⟨hzflag, hn, hc, hv⟩ := flags_of_list hflags
  have hz : Cond.holds .z t.re = decide (a = b) := hzflag.trans (beq_eq_decide ..)
  have hlt : Cond.holds .lt t.re = decide (a.toInt < b.toInt) :=
    calc Cond.holds .lt t.re
        = (t.flag .n ^^ t.flag .v) := rfl
      _ = decide (a.toInt < b.toInt) := by rw [hn, hv, msb_sub_xor_overflow]
  have hle : Cond.holds .le t.re = decide (a.toInt ≤ b.toInt) :=
    calc Cond.holds .le t.re
        = (Cond.holds .lt t.re || Cond.holds .z t.re) := rfl
      _ = decide (a.toInt ≤ b.toInt) := by
        rw [hlt, hz, ← Bool.decide_or, decide_eq_decide, ← BitVec.toInt_inj, Int.le_iff_lt_or_eq]
  refine ⟨hz, ?_, hlt, hle, ?_, ?_, hc, ?_⟩
  · calc Cond.holds .nz t.re
        = !Cond.holds .z t.re := rfl
      _ = decide (a ≠ b) := by rw [hz, ← decide_not]
  · calc Cond.holds .gt t.re
        = !Cond.holds .le t.re := rfl
      _ = decide (b.toInt < a.toInt) := by rw [hle, ← decide_not, decide_eq_decide, Int.not_le]
  · calc Cond.holds .ge t.re
        = !Cond.holds .lt t.re := rfl
      _ = decide (b.toInt ≤ a.toInt) := by rw [hlt, ← decide_not, decide_eq_decide, Int.not_lt]
  · calc Cond.holds .nc t.re
        = !t.flag .c := rfl
      _ = decide (b.toNat ≤ a.toNat) := by rw [hc, ← decide_not, decide_eq_decide, Nat.not_lt]

/-! ### MUL (R139) -/

/-- What MUL wrote before its trap is tested. -/
def State.afterMul (s : State) (rd rs : Reg) : State :=
  let r := s.reg rd * s.reg rs
  (if rd ≠ rs then (s.wr rd r (flagsZNCV r (s.anyBit 0) (mulV (s.reg rd) (s.reg rs)))).setReg rs s.anyWord
  else s.wr rd s.anyWord
    { z := some (s.anyBit 0), n := some (s.anyBit 1), c := some (s.anyBit 2), v := some (s.anyBit 3) }).drawn 4

theorem exec_mul (s : State) (rd rs : Reg) :
    exec (.mul rd rs) s = s.trapV (mulV (s.reg rd) (s.reg rs)) (s.afterMul rd rs) := rfl

theorem State.afterMul_ne (s : State) {rd rs : Reg} (h : rd ≠ rs) : s.afterMul rd rs =
    ((s.wr rd (s.reg rd * s.reg rs) (flagsZNCV (s.reg rd * s.reg rs) (s.anyBit 0)
      (mulV (s.reg rd) (s.reg rs)))).setReg rs s.anyWord).drawn 4 := by
  rw [State.afterMul, if_pos h]

theorem State.afterMul_same (s : State) (rd : Reg) : s.afterMul rd rd = (s.wr rd s.anyWord
    { z := some (s.anyBit 0), n := some (s.anyBit 1), c := some (s.anyBit 2), v := some (s.anyBit 3) }).drawn 4 := by
  rw [State.afterMul, if_neg (not_not_intro rfl)]

@[simp] theorem State.afterMul_pc (s : State) (rd rs : Reg) : (s.afterMul rd rs).pc = s.pc := by
  unfold State.afterMul
  split <;> simp [State.setReg]

@[simp] theorem State.canonical_afterMul (s : State) (rd rs : Reg) : (s.afterMul rd rs).canonical = s.canonical := by
  unfold State.afterMul
  split <;> simp

/-- MUL of two registers, neither of them RE. -/
theorem State.afterMul_plain (s : State) {rd rs : Reg} (hne : rd ≠ rs) (hrd : rd ≠ .re) (hrs : rs ≠ .re) :
    let r := s.reg rd * s.reg rs
    (s.afterMul rd rs).cell (s.phys rd) = r ∧
      (s.afterMul rd rs).flag .z = (r == 0) ∧ (s.afterMul rd rs).flag .n = r.msb ∧
      (s.afterMul rd rs).flag .v = mulV (s.reg rd) (s.reg rs) ∧
      Keeps s (s.afterMul rd rs) [s.phys rd, s.phys rs] [0, 1, 2, 3] [] := by
  intro r
  have hcell : s.phys rd ≠ s.phys rs := fun e => hne (Reg.phys_injective _ e)
  have hre : s.phys rs ≠ .re := s.phys_ne_re hrs
  have hw := s.wrote_wr rd r (flagsZNCV r (s.anyBit 0) (mulV (s.reg rd) (s.reg rs)))
  obtain ⟨hr, hflags, hkeeps⟩ := (wrote_iff_of_ne hrd).mp hw
  obtain ⟨hz, hn, -, hv⟩ := flags_of_list hflags
  have hflag (u : State) (f : ReField) : ((u.setCell (s.phys rs) s.anyWord).drawn 4).flag f = u.flag f :=
    State.flag_congr (State.re_setCell_ne u _ hre) f
  rw [s.afterMul_ne hne, State.setReg, State.phys_wr _ _ _ _ hrd]
  refine ⟨?_, (hflag _ _).trans hz, (hflag _ _).trans hn, (hflag _ _).trans hv, ?_⟩
  · rw [State.cell_drawn, State.cell_setCell_ne _ _ hcell, hr]
  · refine Keeps.drawn (Keeps.setCell (hkeeps.mono ?_ ?_ ?_) _ ?_ hre) 4 <;> simp [FlagUpd.list_flagsZNCV, ReField.index]

/-- MUL RE, Rs: the register Rs names is the one of the RE just written (R27). -/
theorem State.afterMul_re_left (s : State) {rs : Reg} (hrs : rs ≠ .re) :
    (s.afterMul .re rs).re = s.reg .re * s.reg rs ∧
      Keeps s (s.afterMul .re rs) [Reg.phys ((s.reg .re * s.reg rs).getLsbD 13) rs] allBits [] := by
  have hre := (s.setCell .re (s.reg .re * s.reg rs)).phys_ne_re hrs
  rw [s.afterMul_ne hrs.symm, State.wr_re]
  refine ⟨(State.re_setCell_ne _ _ hre).trans (State.re_setCell_re ..), ?_⟩
  exact (((Keeps.refl s _ _ _).setRe_all _).setCell _ (List.mem_singleton_self _) hre).drawn 4

/-- MUL Rd, RE. -/
theorem State.afterMul_re_right (s : State) {rd : Reg} (hrd : rd ≠ .re) :
    (s.afterMul rd .re).cell (s.phys rd) = s.reg rd * s.reg .re ∧ Keeps s (s.afterMul rd .re) [s.phys rd] allBits [] := by
  have hcell := s.phys_ne_re hrd
  rw [s.afterMul_ne hrd, State.wr_ne _ _ _ hrd, State.setReg, (State.phys_eq_re ..).mpr rfl]
  refine ⟨?_, ?_⟩
  · rw [State.cell_drawn, State.cell_setCell_ne _ _ hcell, State.cell_setCell_ne _ _ hcell, State.cell_setCell_same]
  · exact ((((Keeps.refl ..).setCell _ (List.mem_singleton_self _) hcell).setRe_all _).setRe_all _).drawn 4

/-- MUL Rd, Rd. -/
theorem State.afterMul_same_keeps (s : State) {rd : Reg} (hrd : rd ≠ .re) :
    Keeps s (s.afterMul rd rd) [s.phys rd] [0, 1, 2, 3] [] := by
  rw [s.afterMul_same]
  exact ((Keeps.refl ..).wr rd _ _ hrd (List.mem_singleton_self _) (by simp [FlagUpd.list, ReField.index])).drawn 4

/-- MUL leaves what R139 says, whatever its operands. -/
theorem State.multiplied_afterMul (s : State) (rd rs : Reg) :
    Multiplied s (s.afterMul rd rs) rd rs ((s.reg rd).toInt * (s.reg rs).toInt) := by
  constructor
  case plain =>
    intro hne hrd hrs
    obtain ⟨hr, hz, hn, hv, hkeeps⟩ := s.afterMul_plain hne hrd hrs
    rw [ofInt_mul_toInt]
    exact ⟨hr, hz, hn, hv.trans (mulV_eq ..), hkeeps⟩
  case rdRe =>
    rintro hne rfl
    rw [ofInt_mul_toInt]
    exact s.afterMul_re_left hne.symm
  case rsRe =>
    rintro hne rfl
    rw [ofInt_mul_toInt]
    exact s.afterMul_re_right hne
  case same =>
    rintro rfl hrd
    exact s.afterMul_same_keeps hrd
  case sameRe =>
    rintro rfl rfl
    rw [s.afterMul_same, State.wr_re]
    exact ((Keeps.refl ..).setRe_all _).drawn 4

/-! ### DIV and MOD (R140 to R142) -/

/-- The quotient of the signed convention is the signed division of words. -/
theorem quotient_signed (a b : Word) :
    quotient .signedTruncating a b = if a = 0x8000 ∧ b = 0xFFFF then none else some (a.sdiv b) := by
  have h : BitVec.ofInt 16 (a.toInt.tdiv b.toInt) = a.sdiv b :=
    BitVec.eq_of_toInt_eq (by rw [BitVec.toInt_ofInt, BitVec.toInt_sdiv])
  rw [quotient, h]

/-- The remainder of the signed convention is the signed remainder of words, with the sign of the dividend. -/
theorem remainder_signed (a b : Word) : remainder .signedTruncating a b = a.srem b := by
  rw [remainder, Int.mul_comm, ← Int.tmod_def, ← BitVec.toInt_srem, BitVec.ofInt_toInt]

/-- The signed quotient is the quotient of the values truncated toward zero, but for 8000H by FFFFH (R140, D9). -/
theorem toInt_quotient {a b : Word} (h : ¬ (a = 0x8000 ∧ b = 0xFFFF)) (any : Word) :
    ((quotient .signedTruncating a b).getD any).toInt = a.toInt.tdiv b.toInt := by
  rw [quotient_signed, if_neg h, Option.getD_some]
  exact BitVec.toInt_sdiv_of_ne_or_ne a b (not_and_or.mp h)

/-- On non-negative operands every convention is the division of the natural numbers. -/
theorem quotient_of_nonneg (conv : Config.DivMod) {a b : Word} (ha : a.toNat < 0x8000) (hb : b.toNat < 0x8000) :
    quotient conv a b = some (BitVec.ofNat 16 (a.toNat / b.toNat)) := by
  cases conv with
  | unsigned => rfl
  | signedTruncating =>
    have hne : ¬ (a = 0x8000 ∧ b = 0xFFFF) := by
      rintro ⟨rfl, -⟩
      exact absurd ha (by decide)
    rw [quotient, if_neg hne, BitVec.toInt_eq_toNat_of_lt (by omega), BitVec.toInt_eq_toNat_of_lt (by omega),
      ← Int.ofNat_tdiv, BitVec.ofInt_natCast]

/-- And every convention is the remainder of the natural numbers. -/
theorem remainder_of_nonneg (conv : Config.DivMod) {a b : Word} (ha : a.toNat < 0x8000) (hb : b.toNat < 0x8000) :
    remainder conv a b = BitVec.ofNat 16 (a.toNat % b.toNat) := by
  cases conv with
  | unsigned => rfl
  | signedTruncating =>
    rw [remainder, Int.mul_comm, ← Int.tmod_def, BitVec.toInt_eq_toNat_of_lt (by omega),
      BitVec.toInt_eq_toNat_of_lt (by omega), ← Int.ofNat_tmod, BitVec.ofInt_natCast]

/-- A natural number below that of a word is the number of its own word. -/
theorem toNat_ofNat_of_le {n : Nat} {a : Word} (h : n ≤ a.toNat) : (BitVec.ofNat 16 n).toNat = n := by
  rw [BitVec.toNat_ofNat]
  omega

/-- A division completed leaves its result in Rd. -/
theorem State.finishDiv_cell (s : State) {rd : Reg} (hrd : rd ≠ .re) (r : Word) :
    ∃ t, s.finishDiv rd r = .next t ∧ t.cell (s.phys rd) = r := by
  obtain ⟨t, c, ht, -, hw⟩ := s.finishDiv_next rd r
  exact ⟨t, ht, ((wrote_iff_of_ne hrd).mp hw).1⟩

/-! ### Division by zero (R141) -/

section
variable {s : State}

/-- With TD = 0 and TV = 0 an untrapped overflow. -/
theorem State.divideByZero_next (rd : Reg) (htd : s.flag .td = false) (htv : s.flag .tv = false) :
    ∃ t r c, s.divideByZero rd = .next t ∧ t.pc = s.pc + 2 ∧
      Wrote s t rd r [(.z, r == 0), (.n, r.msb), (.c, c), (.v, true)] := by
  rw [State.divideByZero, htd, if_neg (by decide), s.trapV_next _ (.inl htv)]
  exact ⟨_, s.anyWord, s.anyBit 0, rfl, by simp [State.eis],
    ((s.wrote_wr rd s.anyWord (flagsZNCV s.anyWord (s.anyBit 0) true)).drawn 1).advance⟩

/-- With TD = 0 and TV = 1 a trapped one. -/
theorem State.divideByZero_excesso (rd : Reg) (htd : s.flag .td = false) (htv : s.flag .tv = true) (hc : s.canonical = true) :
    ∃ u r c, Wrote s u rd r [(.z, r == 0), (.n, r.msb), (.c, c), (.v, true)] ∧
      Takes (s.divideByZero rd) u .excesso (s.pc + 2) := by
  rw [State.divideByZero, htd, if_neg (by decide)]
  exact ⟨_, s.anyWord, s.anyBit 0, (s.wrote_wr rd s.anyWord (flagsZNCV s.anyWord (s.anyBit 0) true)).drawn 1,
    State.trapV_takes htv rfl (by simpa using hc)⟩

/-- With TD = 1 the exception DIV0, nothing written (R324). -/
theorem State.divideByZero_div0 (rd : Reg) (htd : s.flag .td = true) (hc : s.canonical = true) :
    Takes (s.divideByZero rd) s .div0 (s.pc + 2) := by
  rw [State.divideByZero, htd, if_pos rfl]
  exact State.enter_takes hc _ _

end

end Sys2Proof.Machine

open Sys2Proof Sys2Proof.Machine

/-! ### The statements -/

/-- Settles O8: the three forms are `finishAlu` of one `addc`, whose fields `addc_spec` gives. -/
theorem additionResults : Obligations.AdditionResults := by
  rintro s rd _ b cin rfl h r c v rfl rfl rfl
  have key := State.finishAlu_completes rd (addc_spec (s.reg rd) b cin) h
  refine ⟨?_, ?_, ?_⟩
  · rintro rs rfl rfl
    rw [exec_add]
    exact key
  · rintro k - - rfl rfl
    rw [exec_addi]
    exact key
  · rintro rs rfl rfl
    rw [exec_addc]
    exact key

/-- Settles O9: the four forms are `finishAlu` of one `subb`, whose fields `subb_spec` gives. -/
theorem subtractionResults : Obligations.SubtractionResults := by
  rintro s rd a b bin h r c v rfl rfl rfl
  have key := State.finishAlu_completes rd (subb_spec a b bin) h
  refine ⟨?_, ?_, ?_, ?_⟩
  · rintro rs rfl rfl rfl
    rw [exec_sub]
    exact key
  · rintro k - - rfl rfl rfl
    rw [exec_subi]
    exact key
  · rintro rs rfl rfl rfl
    rw [exec_subb]
    exact key
  · rintro rfl rfl rfl
    rw [exec_neg]
    exact key

/-- Settles O10: both forms are `finishCmp` of the difference. -/
theorem comparisonFlags : Obligations.ComparisonFlags := by
  rintro s rd _ b rfl h
  refine ⟨?_, ?_⟩
  · rintro rs rfl
    rw [exec_cmp]
    exact s.finishCmp_next _ _ h
  · rintro k - - rfl
    rw [exec_cmpi]
    exact s.finishCmp_next _ _ h

/-- Settles O11: the conditions compare the operands (`Flagged.compared`), and a jump goes by its condition. -/
theorem jumpsAfterCompare : Obligations.JumpsAfterCompare := by
  rintro s rd rs dif _ _ rfl rfl htv
  obtain ⟨t, ht, -, hflags⟩ := s.finishCmp_next (s.reg rd) (s.reg rs) (.inl htv)
  have h := hflags.compared
  exact ⟨t, ht, State.jumpIf_eq h.z dif, State.jumpIf_eq h.nz dif, State.jumpIf_eq h.lt dif, State.jumpIf_eq h.le dif,
    State.jumpIf_eq h.gt dif, State.jumpIf_eq h.ge dif, State.jumpIf_eq h.c dif, State.jumpIf_eq h.nc dif⟩

/-- Settles O12: without the trap MUL leaves `afterMul` with pc moved on. -/
theorem multiplicationResult : Obligations.MultiplicationResult := by
  rintro s rd rs _ rfl h
  have hv : s.flag .tv = false ∨ mulV (s.reg rd) (s.reg rs) = false :=
    h.imp_right fun hfits => (mulV_eq _ _).trans (decide_eq_false (not_not_intro hfits))
  refine ⟨_, (exec_mul s rd rs).trans (s.trapV_next _ hv), by simp [State.eis], ?_⟩
  exact (s.multiplied_afterMul rd rs).congr (by simp) (by simp) rfl rfl rfl rfl rfl

/-- Settles O13: quotient and remainder are the signed division of words. -/
theorem divisionResults : Obligations.DivisionResults := by
  rintro s rd rs _ _ rfl rfl hb
  refine ⟨?_, ?_⟩
  · obtain ⟨t, c, ht, hpc, hw⟩ := s.finishDiv_next rd ((quotient .signedTruncating (s.reg rd) (s.reg rs)).getD s.anyWord)
    exact ⟨t, _, c, (exec_div s rd hb).trans ht, hpc, fun h => toInt_quotient h _, hw⟩
  · obtain ⟨t, c, ht, hpc, hw⟩ := s.finishDiv_next rd (remainder .signedTruncating (s.reg rd) (s.reg rs))
    exact ⟨t, _, c, (exec_mod s rd hb).trans ht, hpc, by rw [remainder_signed, BitVec.toInt_srem], hw⟩

/-- Settles O14: on non-negative operands the conventions agree (`quotient_of_nonneg`, `remainder_of_nonneg`). -/
theorem divisionOfNonNegatives : Obligations.DivisionOfNonNegatives := by
  refine ⟨fun conv a b ha hb _ => ⟨⟨_, quotient_of_nonneg conv ha hb, ?_⟩, ?_⟩, fun s rd rs hrd ha hb h0 => ⟨?_, ?_⟩⟩
  · exact toNat_ofNat_of_le (Nat.div_le_self _ _)
  · rw [remainder_of_nonneg conv ha hb]
    exact toNat_ofNat_of_le (Nat.mod_le _ _)
  · obtain ⟨t, ht, hcell⟩ := s.finishDiv_cell hrd ((quotient .signedTruncating (s.reg rd) (s.reg rs)).getD s.anyWord)
    refine ⟨t, (exec_div s rd h0).trans ht, ?_⟩
    rw [hcell, quotient_of_nonneg _ ha hb]
    exact toNat_ofNat_of_le (Nat.div_le_self _ _)
  · obtain ⟨t, ht, hcell⟩ := s.finishDiv_cell hrd (remainder .signedTruncating (s.reg rd) (s.reg rs))
    refine ⟨t, (exec_mod s rd h0).trans ht, ?_⟩
    rw [hcell, remainder_of_nonneg _ ha hb]
    exact toNat_ofNat_of_le (Nat.mod_le _ _)

/-- Settles O15: DIV and MOD share `divideByZero`, which splits on TD and TV. -/
theorem divisionByZero : Obligations.DivisionByZero := by
  intro s rd rs i hi h0
  rw [exec_division_zero hi h0]
  exact ⟨State.divideByZero_next rd, State.divideByZero_excesso rd, State.divideByZero_div0 rd⟩

/-- Settles O16: each form is an ending whose overflow bit says that the exact value does not fit. -/
theorem overflowTrapEntersExcesso : Obligations.OverflowTrapEntersExcesso := by
  intro s rd rs k a b x i htv hc _ _
  refine ⟨?_, ?_, ?_, ?_, ?_⟩
  · rintro hn rfl hi r c rfl rfl
    have key := State.finishAlu_traps rd (addc_spec (s.reg rd) b x) htv hn hc
    rcases hi with ⟨rfl, rfl, rfl⟩ | ⟨rfl, rfl, rfl⟩ | ⟨rfl, rfl, rfl⟩
    · rw [exec_add]; exact key
    · rw [exec_addi]; exact key
    · rw [exec_addc]; exact key
  · rintro hn hi r c rfl rfl
    have key := State.finishAlu_traps rd (subb_spec a b x) htv hn hc
    rcases hi with ⟨rfl, rfl, rfl, rfl⟩ | ⟨rfl, rfl, rfl, rfl⟩ | ⟨rfl, rfl, rfl, rfl⟩ | ⟨rfl, rfl, rfl, rfl⟩
    · rw [exec_sub]; exact key
    · rw [exec_subi]; exact key
    · rw [exec_subb]; exact key
    · rw [exec_neg]; exact key
  · rintro hn rfl hi
    have key := State.finishCmp_traps htv hn hc
    rcases hi with ⟨rfl, rfl⟩ | ⟨rfl, rfl⟩
    · rw [exec_cmp]; exact key
    · rw [exec_cmpi]; exact key
  · rintro n h1 h15 hn rfl
    rw [exec_shla s rd h1, shlaV_spec _ _ h1 h15]
    exact State.finishAlu_traps rd rfl htv hn hc
  · rintro _ rfl hn
    have hv : mulV (s.reg rd) (s.reg rs) = true := (mulV_eq _ _).trans (decide_eq_true hn)
    rw [exec_mul]
    exact ⟨s.afterMul rd rs, s.multiplied_afterMul rd rs, State.trapV_takes htv hv (by simpa using hc)⟩

/-- Settles O5: each word is written as its instruction, so it decodes to it (`decode_eq_ok_iff`). -/
theorem decodeSampleWords : Obligations.DecodeSampleWords := by
  refine ⟨?_, ?_, ?_, ?_, ?_, ?_, ?_, ?_, ?_, ?_, ?_, ?_⟩
  all_goals exact decode_eq_ok_iff.mpr ⟨rfl, by decide⟩

end

section
/-!
PROOFS. The statements on 41_bit_logic.md: AND, OR, NOT, XOR (O17), TEST and BIT (O19), SET, CLR, CPL (O20), the nine of them
together (O18), the mnemonics on RE (O21). Seven of the nine are the ending `finishLogic` with an operation on words, and two a
flag update; what these do, and that they do the same with any memory, is said once for all.
-/
namespace Sys2Proof.Machine

/-! ### Each instruction as its ending -/

theorem exec_and (s : State) (rd rs : Reg) : exec (.and rd rs) s = s.finishLogic rd (s.reg rd &&& s.reg rs) := rfl
theorem exec_or (s : State) (rd rs : Reg) : exec (.or rd rs) s = s.finishLogic rd (s.reg rd ||| s.reg rs) := rfl
/-- The exclusive or with FFFFH (R163) is the complement. -/
theorem exec_not (s : State) (rd : Reg) : exec (.not rd) s = s.finishLogic rd (~~~s.reg rd) :=
  congrArg (s.finishLogic rd) BitVec.xor_allOnes
theorem exec_xor (s : State) (rd rs : Reg) : exec (.xor rd rs) s = s.finishLogic rd (s.reg rd ^^^ s.reg rs) := rfl
theorem exec_setbit (s : State) (rd : Reg) (n : Nat) :
    exec (.setbit rd n) s = s.finishLogic rd (s.reg rd ||| bitMask n) := rfl
theorem exec_clrbit (s : State) (rd : Reg) (n : Nat) :
    exec (.clrbit rd n) s = s.finishLogic rd (s.reg rd &&& ~~~bitMask n) := rfl
theorem exec_cplbit (s : State) (rd : Reg) (n : Nat) :
    exec (.cplbit rd n) s = s.finishLogic rd (s.reg rd ^^^ bitMask n) := rfl
theorem exec_test (s : State) (rd rs : Reg) :
    exec (.test rd rs) s = .next (s.setFlags (flagsZN (s.reg rd &&& s.reg rs))).advance := rfl
theorem exec_bit (s : State) (rd : Reg) (n : Nat) :
    exec (.bit rd n) s = .next (s.setFlags { z := some (!(s.reg rd).getLsbD n) }).advance := rfl

/-- The instructions that write a logic result: an operation on what Rd and Rs hold, the same in every state. -/
theorem exec_eq_finishLogic {rd rs : Reg} {n : Nat} {i : Instr}
    (hi : i ∈ [Instr.and rd rs, .or rd rs, .not rd, .xor rd rs, .setbit rd n, .clrbit rd n, .cplbit rd n]) :
    ∃ op : Word → Word → Word, ∀ s : State, exec i s = s.finishLogic rd (op (s.reg rd) (s.reg rs)) := by
  simp only [List.mem_cons, List.not_mem_nil, or_false] at hi
  rcases hi with rfl | rfl | rfl | rfl | rfl | rfl | rfl
  · exact ⟨fun a b => a &&& b, fun s => exec_and s rd rs⟩
  · exact ⟨fun a b => a ||| b, fun s => exec_or s rd rs⟩
  · exact ⟨fun a _ => ~~~a, fun s => exec_not s rd⟩
  · exact ⟨fun a b => a ^^^ b, fun s => exec_xor s rd rs⟩
  · exact ⟨fun a _ => a ||| bitMask n, fun s => exec_setbit s rd n⟩
  · exact ⟨fun a _ => a &&& ~~~bitMask n, fun s => exec_clrbit s rd n⟩
  · exact ⟨fun a _ => a ^^^ bitMask n, fun s => exec_cplbit s rd n⟩

/-! ### The result bit by bit -/

theorem getLsbD_or_bitMask (a : Word) (n j : Nat) (hj : j < 16) :
    (a ||| bitMask n).getLsbD j = if j = n then true else a.getLsbD j := by
  rw [BitVec.getLsbD_or, getLsbD_bitMask n j hj]
  by_cases h : j = n <;> simp [h]

theorem getLsbD_and_not_bitMask (a : Word) (n j : Nat) (hj : j < 16) :
    (a &&& ~~~bitMask n).getLsbD j = if j = n then false else a.getLsbD j := by
  rw [BitVec.getLsbD_and, BitVec.getLsbD_not, getLsbD_bitMask n j hj]
  by_cases h : j = n <;> simp [h, hj]

theorem getLsbD_xor_bitMask (a : Word) (n j : Nat) (hj : j < 16) :
    (a ^^^ bitMask n).getLsbD j = if j = n then !a.getLsbD j else a.getLsbD j := by
  rw [BitVec.getLsbD_xor, getLsbD_bitMask n j hj]
  by_cases h : j = n <;> simp [h]

/-- An instruction that ends in a logic result completes, and writes that result with Z and N of it (R31, R160). -/
theorem State.completes_of_finishLogic {s : State} {i : Instr} {rd : Reg} {r : Word} {bit : Nat → Bool}
    (hi : exec i s = s.finishLogic rd r) (hr : ∀ j, j < 16 → r.getLsbD j = bit j) :
    ∃ t r, exec i s = .next t ∧ t.pc = s.pc + 2 ∧ (∀ j, j < 16 → r.getLsbD j = bit j) ∧
      Wrote s t rd r [(.z, r == 0), (.n, r.msb)] := by
  obtain ⟨t, ht, hpc, hw, -⟩ := s.finishLogic_next rd r
  exact ⟨t, r, hi.trans ht, hpc, hr, hw⟩

/-- A flag update completes, assigning what it lists. -/
theorem State.completes_of_setFlags {s : State} {i : Instr} {f : FlagUpd} (hi : exec i s = .next (s.setFlags f).advance) :
    ∃ t, exec i s = .next t ∧ t.pc = s.pc + 2 ∧ Flagged s t f.list :=
  ⟨_, hi, by simp [State.eis, State.setFlags], (s.flagged_setFlags f).advance⟩

/-! ### Registers and flags do not depend on memory (R160) -/

theorem State.setCell_withMem (s : State) (m : Memory) (p : Phys) (v : Word) :
    { s with mem := m }.setCell p v = { s.setCell p v with mem := m } := by cases p <;> rfl

theorem State.setReg_withMem (s : State) (m : Memory) (d : Reg) (v : Word) :
    { s with mem := m }.setReg d v = { s.setReg d v with mem := m } := s.setCell_withMem m (s.phys d) v

theorem State.setFlags_withMem (s : State) (m : Memory) (f : FlagUpd) :
    { s with mem := m }.setFlags f = { s.setFlags f with mem := m } := rfl

theorem State.wr_withMem (s : State) (m : Memory) (d : Reg) (v : Word) (f : FlagUpd) :
    { s with mem := m }.wr d v f = { s.wr d v f with mem := m } := by
  by_cases hd : d = .re
  · rw [State.wr, State.wr, if_pos hd, if_pos hd, State.setCell_withMem]
  · rw [State.wr, State.wr, if_neg hd, if_neg hd, State.setReg_withMem, State.setFlags_withMem]

/-- A logic result completes, and with other bytes in memory it does the same and leaves those. -/
theorem State.finishLogic_withMem (s : State) (rd : Reg) (r : Word) :
    ∃ t, s.finishLogic rd r = .next t ∧ t.pc = s.pc + 2 ∧ Wrote s t rd r [(.z, r == 0), (.n, r.msb)] ∧
      ∀ m, { s with mem := m }.finishLogic rd r = .next { t with mem := m } := by
  obtain ⟨t, ht, hpc, hw, -⟩ := s.finishLogic_next rd r
  refine ⟨t, ht, hpc, hw, fun m => ?_⟩
  cases ht
  rw [State.finishLogic, State.wr_withMem]
  rfl

/-! ### RE as destination -/

/-- A write to RE of a value that differs from RE in one field at most assigns that field. -/
theorem Wrote.flagged_of_re {s t : State} {r : Word} {l : List (ReField × Bool)} {f : ReField} {b : Bool}
    (h : Wrote s t .re r l) (hr : ∀ j, j < 16 → r.getLsbD j = if j = f.index then b else s.re.getLsbD j) :
    Flagged s t [(f, b)] := by
  obtain ⟨hre, hkeeps⟩ : t.re = r ∧ Keeps s t [] allBits [] := by rwa [Wrote, if_pos rfl] at h
  refine ⟨?_, { hkeeps with bits := fun j hj hjf => ?_ }⟩
  · have hf : t.flag f = b := by rw [State.flag, hre, hr f.index f.index_lt, if_pos rfl]
    simpa using hf
  · have hne : j ≠ f.index := by simpa using hjf
    rw [hre, hr j hj, if_neg hne]

/-- An instruction that ends in a logic result on RE differing from RE in one field at most assigns that field (R175). -/
theorem State.flagged_of_finishLogic_re {s : State} {i : Instr} {r : Word} {f : ReField} {b : Bool}
    (hi : exec i s = s.finishLogic .re r)
    (hr : ∀ j, j < 16 → r.getLsbD j = if j = f.index then b else s.re.getLsbD j) :
    ∃ t, exec i s = .next t ∧ t.pc = s.pc + 2 ∧ Flagged s t [(f, b)] := by
  obtain ⟨t, _, ht, hpc, hbits, hw⟩ := State.completes_of_finishLogic hi hr
  exact ⟨t, ht, hpc, hw.flagged_of_re hbits⟩

theorem State.setbit_re (s : State) (f : ReField) :
    ∃ t, exec (.setbit .re f.index) s = .next t ∧ t.pc = s.pc + 2 ∧ Flagged s t [(f, true)] :=
  State.flagged_of_finishLogic_re (exec_setbit ..) (getLsbD_or_bitMask s.re f.index)

theorem State.clrbit_re (s : State) (f : ReField) :
    ∃ t, exec (.clrbit .re f.index) s = .next t ∧ t.pc = s.pc + 2 ∧ Flagged s t [(f, false)] :=
  State.flagged_of_finishLogic_re (exec_clrbit ..) (getLsbD_and_not_bitMask s.re f.index)

theorem State.cplbit_re (s : State) (f : ReField) :
    ∃ t, exec (.cplbit .re f.index) s = .next t ∧ t.pc = s.pc + 2 ∧ Flagged s t [(f, !s.flag f)] := by
  refine State.flagged_of_finishLogic_re (exec_cplbit ..) fun j hj => ?_
  rw [getLsbD_xor_bitMask _ _ _ hj]
  by_cases h : j = f.index
  · rw [if_pos h, if_pos h, h]
    rfl
  · rw [if_neg h, if_neg h]
    rfl

end Sys2Proof.Machine

open Sys2Proof Sys2Proof.Machine

/-! ### The statements -/

/-- Settles O17: each is a logic result whose bits are those of the operands. -/
theorem logicResults : Obligations.LogicResults := by
  intro s rd rs
  refine ⟨?_, ?_, ?_, ?_⟩
  · exact State.completes_of_finishLogic (exec_and s rd rs) fun _ _ => BitVec.getLsbD_and
  · exact State.completes_of_finishLogic (exec_or s rd rs) fun _ _ => BitVec.getLsbD_or
  · exact State.completes_of_finishLogic (exec_not s rd) fun j hj => by simp [hj]
  · exact State.completes_of_finishLogic (exec_xor s rd rs) fun _ _ => BitVec.getLsbD_xor

/-- Settles O18: a logic result or a flag update completes, with any memory alike; the words are those under BITOP. -/
theorem logicNeverTrapsAndKeepsCarryOverflow : Obligations.LogicNeverTrapsAndKeepsCarryOverflow := by
  refine ⟨fun s rd rs n i _ => ⟨fun hi => ?_, ?_, ?_⟩, fun a b => ⟨?_, ?_, ?_, ?_⟩⟩
  · obtain ⟨op, hop⟩ := exec_eq_finishLogic hi
    obtain ⟨t, ht, hpc, hw, hm⟩ := s.finishLogic_withMem rd (op (s.reg rd) (s.reg rs))
    exact ⟨t, _, (hop s).trans ht, hpc, hw, fun m => (hop { s with mem := m }).trans (hm m)⟩
  · rintro rfl
    obtain ⟨t, ht, hpc, hf⟩ := State.completes_of_setFlags (exec_test s rd rs)
    exact ⟨t, _, _, ht, hpc, hf, rfl, rfl, fun m => by cases ht; rfl⟩
  · rintro rfl
    obtain ⟨t, ht, hpc, hf⟩ := State.completes_of_setFlags (exec_bit s rd n)
    exact ⟨t, _, ht, hpc, hf, fun m => by cases ht; rfl⟩
  · exact decode_bitop Opmap.Bit.bit a b
  · exact decode_bitop Opmap.Bit.setbit a b
  · exact decode_bitop Opmap.Bit.clrbit a b
  · exact decode_bitop Opmap.Bit.cplbit a b

/-- Settles O19: both are flag updates. -/
theorem testAndBitFlags : Obligations.TestAndBitFlags := by
  intro s rd rs n _
  refine ⟨?_, State.completes_of_setFlags (exec_bit s rd n)⟩
  rw [← BitVec.msb_and]
  exact State.completes_of_setFlags (exec_test s rd rs)

/-- Settles O20: each is a logic result with the mask of bit `n`. -/
theorem singleBitResults : Obligations.SingleBitResults := by
  intro s rd n _
  refine ⟨?_, ?_, ?_⟩
  · exact State.completes_of_finishLogic (exec_setbit s rd n) (getLsbD_or_bitMask (s.reg rd) n)
  · exact State.completes_of_finishLogic (exec_clrbit s rd n) (getLsbD_and_not_bitMask (s.reg rd) n)
  · exact State.completes_of_finishLogic (exec_cplbit s rd n) (getLsbD_xor_bitMask (s.reg rd) n)

/-- Settles O21: each mnemonic is SET, CLR or CPL of RE with the bit number of its field. -/
theorem reMnemonicsChangeOneBit : Obligations.ReMnemonicsChangeOneBit := by
  intro s m f b h
  simp only [List.mem_cons, List.not_mem_nil, or_false, Prod.mk.injEq] at h
  rcases h with ⟨rfl, rfl, rfl⟩ | ⟨rfl, rfl, rfl⟩ | ⟨rfl, rfl, rfl⟩ | ⟨rfl, rfl, rfl⟩ | ⟨rfl, rfl, rfl⟩ | ⟨rfl, rfl, rfl⟩ |
    ⟨rfl, rfl, rfl⟩ | ⟨rfl, rfl, rfl⟩ | ⟨rfl, rfl, rfl⟩ | ⟨rfl, rfl, rfl⟩ | ⟨rfl, rfl, rfl⟩ | ⟨rfl, rfl, rfl⟩ |
    ⟨rfl, rfl, rfl⟩ | ⟨rfl, rfl, rfl⟩ | ⟨rfl, rfl, rfl⟩
  exacts [s.setbit_re .ie, s.setbit_re .ie0, s.setbit_re .ie1, s.setbit_re .ie2, s.setbit_re .ie3, s.setbit_re .c,
    s.setbit_re .de, s.clrbit_re .ie, s.clrbit_re .ie0, s.clrbit_re .ie1, s.clrbit_re .ie2, s.clrbit_re .ie3,
    s.clrbit_re .c, s.clrbit_re .de, s.cplbit_re .c]

end

section
/-!
PROOFS. The statements on 42_shift_rotate.md: counts of 0 (O22), SHR, SHL, SHRA (O23), SHLA (O24), ROR and ROL (O25), RORC
and ROLC (O26). Seven of the eight are the ending `shiftReg` with an operation on words, and SHLA is the ending of the sums;
what is left is the result of each operation bit by bit, which for the rotates is one law of `rotateRight` and one of
`rotateLeft`, used at 16 bits and at 17.
-/
namespace Sys2Proof.Machine

/-! ### Each instruction as its ending -/

theorem exec_shr (s : State) (rd : Reg) (n : Nat) : exec (.shr rd n) s = .next (s.shiftReg rd n shrBy).advance := rfl
theorem exec_shl (s : State) (rd : Reg) (n : Nat) : exec (.shl rd n) s = .next (s.shiftReg rd n shlBy).advance := rfl
theorem exec_shra (s : State) (rd : Reg) (n : Nat) : exec (.shra rd n) s = .next (s.shiftReg rd n shraBy).advance := rfl
theorem exec_ror (s : State) (rd : Reg) (n : Nat) : exec (.ror rd n) s = .next (s.shiftReg rd n rorBy).advance := rfl
theorem exec_rol (s : State) (rd : Reg) (n : Nat) : exec (.rol rd n) s = .next (s.shiftReg rd n rolBy).advance := rfl
theorem exec_rorc (s : State) (rd : Reg) (n : Nat) :
    exec (.rorc rd n) s = .next (s.shiftReg rd n fun a => rorcBy a (s.flag .c)).advance := rfl
theorem exec_rolc (s : State) (rd : Reg) (n : Nat) :
    exec (.rolc rd n) s = .next (s.shiftReg rd n fun a => rolcBy a (s.flag .c)).advance := rfl

/-- SHLA by no place (R190, D25). -/
theorem exec_shla_zero (s : State) (rd : Reg) :
    exec (.shla rd 0) s = .next (s.wr rd (s.reg rd) { flagsZN (s.reg rd) with v := some false }).advance := rfl

/-- The instructions that shift or rotate without assigning V. -/
theorem exec_eq_shiftReg (s : State) {rd : Reg} {n : Nat} {i : Instr}
    (hi : i ∈ [Instr.shr rd n, .shl rd n, .shra rd n, .ror rd n, .rol rd n, .rorc rd n, .rolc rd n]) :
    ∃ op, exec i s = .next (s.shiftReg rd n op).advance := by
  simp only [List.mem_cons, List.not_mem_nil, or_false] at hi
  rcases hi with rfl | rfl | rfl | rfl | rfl | rfl | rfl
  · exact ⟨_, exec_shr s rd n⟩
  · exact ⟨_, exec_shl s rd n⟩
  · exact ⟨_, exec_shra s rd n⟩
  · exact ⟨_, exec_ror s rd n⟩
  · exact ⟨_, exec_rol s rd n⟩
  · exact ⟨_, exec_rorc s rd n⟩
  · exact ⟨_, exec_rolc s rd n⟩

/-! ### What the endings do -/

/-- By no place Rd is written with its own value, whatever the operation (R190). -/
theorem State.shiftReg_zero (s : State) (rd : Reg) (op : Word → Nat → Shifted) :
    s.shiftReg rd 0 op = s.wr rd (s.reg rd) (flagsZN (s.reg rd)) := by
  rw [State.shiftReg, if_pos rfl]

/-- A register write with flags completes, writing just that. -/
theorem State.completes_of_wr {s : State} {i : Instr} {d : Reg} {v : Word} {f : FlagUpd}
    (hi : exec i s = .next (s.wr d v f).advance) : ∃ t, exec i s = .next t ∧ t.pc = s.pc + 2 ∧ Wrote s t d v f.list :=
  ⟨_, hi, by simp [State.eis], (s.wrote_wr d v f).advance⟩

/-- A shift or rotate by at least one place completes, and writes a result whose bits are those of the operation's. -/
theorem State.completes_of_shiftReg {s : State} {i : Instr} {rd : Reg} {n : Nat} {op : Word → Nat → Shifted}
    {bit : Nat → Bool} (hi : exec i s = .next (s.shiftReg rd n op).advance) (h1 : 1 ≤ n)
    (hr : ∀ j, j < 16 → (op (s.reg rd) n).r.getLsbD j = bit j) :
    ∃ t r, exec i s = .next t ∧ t.pc = s.pc + 2 ∧ (∀ j, j < 16 → r.getLsbD j = bit j) ∧
      Wrote s t rd r [(.z, r == 0), (.n, r.msb), (.c, (op (s.reg rd) n).c)] := by
  obtain ⟨t, ht, hpc, hw⟩ := s.shiftReg_next rd n op h1
  exact ⟨t, _, hi.trans ht, hpc, hr, hw⟩

/-! ### The shifted word bit by bit -/

/-- SHR fills with zeros (R191). -/
theorem getLsbD_ushiftRight_ite (a : Word) (n j : Nat) :
    (a >>> n).getLsbD j = if j + n < 16 then a.getLsbD (j + n) else false := by
  rw [BitVec.getLsbD_ushiftRight, Nat.add_comm n j]
  split
  next => rfl
  next hout => exact BitVec.getLsbD_of_ge _ _ (not_lt.mp hout)

/-- SHL and SHLA fill with zeros (R192, R194). -/
theorem getLsbD_shiftLeft_ite (a : Word) (n : Nat) {j : Nat} (hj : j < 16) :
    (a <<< n).getLsbD j = if n ≤ j then a.getLsbD (j - n) else false := by
  rw [BitVec.getLsbD_shiftLeft, decide_eq_true hj]
  by_cases h : n ≤ j
  · simp [h, Nat.not_lt.mpr h]
  · simp [h, Nat.not_le.mp h]

/-- SHRA fills with the sign (R193). -/
theorem getLsbD_sshiftRight_ite (a : Word) (n : Nat) {j : Nat} (hj : j < 16) :
    (a.sshiftRight n).getLsbD j = if j + n < 16 then a.getLsbD (j + n) else a.getLsbD 15 := by
  rw [BitVec.getLsbD_sshiftRight, BitVec.msb_eq_getLsbD_last, Nat.add_comm n j, decide_eq_false (Nat.not_le.mpr hj)]
  simp

/-! ### The rotated word bit by bit -/

section
variable {w : Nat} (a : BitVec w) {n j : Nat}

/-- A rotate to the right moves bit `j + n`, around the word, to bit `j` (R195). -/
theorem getLsbD_rotateRight_mod (hn : n < w) (hj : j < w) : (a.rotateRight n).getLsbD j = a.getLsbD ((j + n) % w) := by
  rw [BitVec.getLsbD_rotateRight, Nat.mod_eq_of_lt hn, Bool.cond_decide]
  split
  next hin => rw [Nat.mod_eq_of_lt (by omega), Nat.add_comm]
  next hwrap =>
    have hmod : (j + n) % w = j - (w - n) := by
      rw [Nat.mod_eq_sub_mod (by omega), Nat.mod_eq_of_lt (by omega)]
      omega
    rw [hmod, decide_eq_true hj, Bool.true_and]

/-- A rotate to the left moves bit `j - n`, around the word, to bit `j` (R196). -/
theorem getLsbD_rotateLeft_mod (hn : n < w) (hj : j < w) :
    (a.rotateLeft n).getLsbD j = a.getLsbD ((j + w - n) % w) := by
  rw [BitVec.getLsbD_rotateLeft, Nat.mod_eq_of_lt hn, Bool.cond_decide]
  split
  next hwrap =>
    have hmod : (j + w - n) % w = w - n + j := by
      rw [Nat.mod_eq_of_lt (by omega)]
      omega
    rw [hmod]
  next hin =>
    have hmod : (j + w - n) % w = j - n := by
      rw [Nat.mod_eq_sub_mod (by omega), Nat.mod_eq_of_lt (by omega)]
      omega
    rw [hmod, decide_eq_true hj, Bool.true_and]

end

/-! ### The rotates through C: bits of the 17-bit string, `x` giving them by number -/

section
variable {a : Word} {c0 : Bool} {x : Nat → Bool} {n : Nat}

/-- The string `Rd ‖ C` (R197). -/
theorem getLsbD_append_carry (h0 : x 0 = c0) (hx : ∀ j, j < 16 → x (j + 1) = a.getLsbD j) {j : Nat} (hj : j < 17) :
    (a ++ BitVec.ofBool c0).getLsbD j = x j := by
  rw [BitVec.getLsbD_append]
  cases j with
  | zero => simp [h0]
  | succ j => simp [hx j (by omega)]

/-- The string `C ‖ Rd` (R198). -/
theorem getLsbD_carry_append (h16 : x 16 = c0) (hx : ∀ j, j < 16 → x j = a.getLsbD j) {j : Nat} (hj : j < 17) :
    (BitVec.ofBool c0 ++ a).getLsbD j = x j := by
  rw [BitVec.getLsbD_append]
  split
  next hlow => exact (hx j hlow).symm
  next htop =>
    obtain rfl : j = 16 := by omega
    simp [h16]

/-- RORC bit by bit: C is bit 0 of the rotated string and Rd the 16 above it (R197). -/
theorem rorcBy_bits (hn : n < 17) (h0 : x 0 = c0) (hx : ∀ j, j < 16 → x (j + 1) = a.getLsbD j) :
    (rorcBy a c0 n).c = x (n % 17) ∧ ∀ j, j < 16 → (rorcBy a c0 n).r.getLsbD j = x ((j + 1 + n) % 17) := by
  have hrot (j : Nat) (hj : j < 17) : ((a ++ BitVec.ofBool c0).rotateRight n).getLsbD j = x ((j + n) % 17) := by
    rw [getLsbD_rotateRight_mod _ hn hj, getLsbD_append_carry h0 hx (Nat.mod_lt _ (by decide))]
  refine ⟨?_, fun j hj => ?_⟩
  · rw [rorcBy, hrot 0 (by decide), Nat.zero_add]
  · rw [rorcBy, BitVec.getLsbD_extractLsb', decide_eq_true hj, Bool.true_and, hrot _ (by omega), Nat.add_comm 1 j]

/-- ROLC bit by bit: C is bit 16 of the rotated string and Rd the 16 below it (R198). -/
theorem rolcBy_bits (hn : n < 17) (h16 : x 16 = c0) (hx : ∀ j, j < 16 → x j = a.getLsbD j) :
    (rolcBy a c0 n).c = x (16 - n) ∧ ∀ j, j < 16 → (rolcBy a c0 n).r.getLsbD j = x ((j + 17 - n) % 17) := by
  have hrot (j : Nat) (hj : j < 17) : ((BitVec.ofBool c0 ++ a).rotateLeft n).getLsbD j = x ((j + 17 - n) % 17) := by
    rw [getLsbD_rotateLeft_mod _ hn hj, getLsbD_carry_append h16 hx (Nat.mod_lt _ (by decide))]
  refine ⟨?_, fun j hj => ?_⟩
  · have hmod : (16 + 17 - n) % 17 = 16 - n := by omega
    rw [rolcBy, hrot 16 (by decide), hmod]
  · rw [rolcBy, BitVec.getLsbD_extractLsb', decide_eq_true hj, Bool.true_and, hrot _ (by omega), Nat.zero_add]

end

end Sys2Proof.Machine

open Sys2Proof Sys2Proof.Machine

/-! ### The statements -/

/-- Settles O22: by no place each is a register write of the register's own value. -/
theorem shiftByZero : Obligations.ShiftByZero := by
  rintro s rd _ rfl
  refine ⟨fun i hi => ?_, State.completes_of_wr (exec_shla_zero s rd)⟩
  obtain ⟨op, hop⟩ := exec_eq_shiftReg s hi
  rw [s.shiftReg_zero] at hop
  exact State.completes_of_wr hop

/-- Settles O23: each is a shift of the register's word. -/
theorem shiftResults : Obligations.ShiftResults := by
  rintro s rd n _ rfl h1 -
  refine ⟨?_, ?_, ?_⟩
  · exact State.completes_of_shiftReg (exec_shr s rd n) h1 fun j _ => getLsbD_ushiftRight_ite _ n j
  · exact State.completes_of_shiftReg (exec_shl s rd n) h1 fun _ hj => getLsbD_shiftLeft_ite _ n hj
  · exact State.completes_of_shiftReg (exec_shra s rd n) h1 fun _ hj => getLsbD_sshiftRight_ite _ n hj

/-- Settles O24: SHLA ends as a sum does, its overflow bit saying that the exact product does not fit (`shlaV_spec`). -/
theorem arithmeticLeftShift : Obligations.ArithmeticLeftShift := by
  rintro s rd n _ rfl h1 h15 hfits
  rw [exec_shla s rd h1, shlaV_spec _ _ h1 h15]
  obtain ⟨t, ht, hpc, hw⟩ := State.finishAlu_completes rd rfl hfits
  exact ⟨t, _, ht, hpc, fun _ hj => getLsbD_shiftLeft_ite _ n hj, hw⟩

/-- Settles O25: each is a rotate of the register's word. -/
theorem rotateResults : Obligations.RotateResults := by
  rintro s rd n _ rfl h1 h15
  have hn : n < 16 := by omega
  refine ⟨?_, ?_⟩
  · exact State.completes_of_shiftReg (exec_ror s rd n) h1 fun _ hj => getLsbD_rotateRight_mod _ hn hj
  · exact State.completes_of_shiftReg (exec_rol s rd n) h1 fun _ hj => getLsbD_rotateLeft_mod _ hn hj

/-- Settles O26: each is a rotate of the string of 17 bits (`rorcBy_bits`, `rolcBy_bits`). -/
theorem rotateThroughCarryResults : Obligations.RotateThroughCarryResults := by
  rintro s rd n _ _ rfl rfl h1 h15
  have hn : n < 17 := by omega
  refine ⟨?_, ?_⟩
  · obtain ⟨t, ht, hpc, hw⟩ := s.shiftReg_next rd n (fun a => rorcBy a (s.flag .c)) h1
    exact ⟨t, _, _, (exec_rorc s rd n).trans ht, hpc, fun _ => rorcBy_bits hn, hw⟩
  · obtain ⟨t, ht, hpc, hw⟩ := s.shiftReg_next rd n (fun a => rolcBy a (s.flag .c)) h1
    exact ⟨t, _, _, (exec_rolc s rd n).trans ht, hpc, fun _ => rolcBy_bits hn, hw⟩

end

section
/-!
PROOFS. The statements on 43_data_transfer.md: word loads and stores (O27, O28), byte transfers (O29), constants (O30),
register moves (O32), the two swaps (O33, O34), PUSH (O35), POP (O36). No instruction here updates a flag, so every register
write is `setReg`, RE as destination included (`wr_nothing`); a swap, PUSH or POP is then one chain of writes, and what it
leaves is read off cell by cell.
-/
namespace Sys2Proof.Machine

/-! ### Each instruction as its ending -/

theorem exec_ldo (s : State) (rd rs : Reg) (off : Int) : exec (.ldo rd rs off) s = s.loadInto rd (s.based rs off) := rfl
theorem exec_ldr (s : State) (rd rs ri : Reg) : exec (.ldr rd rs ri) s = s.loadInto rd (s.indexed rs ri) := rfl
theorem exec_ldp (s : State) (rd rs : Reg) : exec (.ldp rd rs) s = s.loadInto rd (s.reg rs) := rfl
theorem exec_sto (s : State) (rd : Reg) (off : Int) (rs : Reg) :
    exec (.sto rd off rs) s = s.storeFrom (s.based rd off) rs := rfl
theorem exec_str (s : State) (rd ri rs : Reg) : exec (.str rd ri rs) s = s.storeFrom (s.indexed rd ri) rs := rfl
theorem exec_stp (s : State) (rd rs : Reg) : exec (.stp rd rs) s = s.storeFrom (s.reg rd) rs := rfl
theorem exec_ldb (s : State) (rd rs : Reg) :
    exec (.ldb rd rs) s = s.gap.finishMove rd ((s.byteAt (s.reg rs)).setWidth 16) := rfl
theorem exec_stb (s : State) (rd rs : Reg) :
    exec (.stb rd rs) s = .next (s.setByte (s.reg rd) ((s.reg rs).extractLsb' 0 8)).advance := rfl
theorem exec_movl (s : State) (rd : Reg) (k : Int) : exec (.movl rd k) s = s.finishMove rd (constant k) := rfl
theorem exec_movh (s : State) (rd : Reg) (k : Nat) :
    exec (.movh rd k) s = s.finishMove rd (BitVec.ofNat 8 k ++ (s.reg rd).extractLsb' 0 8) := rfl
theorem exec_movrr (s : State) (rd rs : Reg) : exec (.movrr rd rs) s = s.finishMove rd (s.reg rs) := rfl
theorem exec_movar (s : State) (x : AReg) (rs : Reg) :
    exec (.movar x rs) s = .next (s.setCell (.aux x) (s.reg rs)).advance := rfl
theorem exec_movra (s : State) (rd : Reg) (x : AReg) : exec (.movra rd x) s = s.finishMove rd (s.cell (.aux x)) := rfl
theorem exec_movru (s : State) (rd : Reg) : exec (.movru rd) s = s.finishMove rd s.usp := rfl
theorem exec_movur (s : State) (rs : Reg) : exec (.movur rs) s = .next (s.setCell .usp (s.reg rs)).advance := rfl

/-! ### Register writes without flags -/

/-- A register write without flags, RE or not (R31). -/
theorem State.wr_nothing (s : State) (d : Reg) (v : Word) : s.wr d v .nothing = s.setReg d v := by
  by_cases hd : d = .re
  · rw [hd, State.wr_re, State.setReg, (State.phys_eq_re ..).mpr rfl]
  · exact s.wr_nothing_ne d v hd

/-- A cell written with its own value. -/
theorem State.setCell_self (s : State) (p : Phys) : s.setCell p (s.cell p) = s := by
  apply State.ext_cells
  · intro q
    rw [State.cell_setCell]
    split
    case isTrue h => rw [h]
    case isFalse => rfl
  all_goals simp

/-- A register written with its own value. -/
theorem State.setReg_self (s : State) (r : Reg) : s.setReg r (s.reg r) = s := s.setCell_self _

/-- TEMP is one of the cells. -/
theorem State.temp_eq_cell (s : State) : s.temp = s.cell .temp := rfl

/-- The names stand for the same cells after a write to TEMP. -/
theorem State.phys_setTemp (s : State) (v : Word) (r : Reg) : (s.setCell .temp v).phys r = s.phys r :=
  s.phys_setCell v (by decide) r

theorem State.setReg_setTemp (s : State) (v w : Word) (r : Reg) :
    (s.setCell .temp v).setReg r w = (s.setCell .temp v).setCell (s.phys r) w := by
  rw [State.setReg, State.phys_setTemp]

/-- A register other than TEMP after a write to TEMP. -/
theorem State.reg_setTemp (s : State) (v : Word) {r : Reg} (h : r ≠ .temp) : (s.setCell .temp v).reg r = s.reg r := by
  rw [State.reg, State.phys_setTemp, State.cell_setCell_ne s v (mt (s.phys_eq_temp r).mp h), State.reg]

theorem State.reg_setTemp_ite (s : State) (v : Word) (r : Reg) :
    (s.setCell .temp v).reg r = if r = .temp then v else s.reg r := by
  split
  case isTrue h => rw [h]; exact s.cell_setCell_same ..
  case isFalse h => exact s.reg_setTemp v h

theorem Reg.phys_ne_re (np : Bool) {r : Reg} (h : r ≠ .re) : Reg.phys np r ≠ .re := fun e => h (Reg.phys_injective np e)

theorem Reg.phys_ne_temp (np : Bool) {r : Reg} (h : r ≠ .temp) : Reg.phys np r ≠ .temp := fun e => h (Reg.phys_injective np e)

/-- Names after a write to RE: NP is bit 13 of the word written (R27). -/
theorem State.phys_setRe (s : State) (v : Word) (r : Reg) : (s.setCell .re v).phys r = Reg.phys (v.getLsbD 13) r := rfl

/-- Names after a register write that is not one to RE, and the name RE after any (R27). -/
theorem State.phys_setReg (s : State) {d r : Reg} (v : Word) (h : d ≠ .re ∨ r = .re) : (s.setReg d v).phys r = s.phys r := by
  rcases h with hd | rfl
  · exact s.phys_setCell v (s.phys_ne_re hd) r
  · rfl

/-! ### Moves, loads and stores -/

section
variable {s : State} {i : Instr}

theorem State.completes_of_finishMove {rd : Reg} {v : Word} (hi : exec i s = s.finishMove rd v) :
    ∃ t, exec i s = .next t ∧ t.pc = s.pc + 2 ∧ Wrote s t rd v [] := hi ▸ s.finishMove_next rd v

/-- A word load from an even address, byte by byte (R62, R66). -/
theorem State.completes_of_loadInto {rd : Reg} {ea : Word} (hi : exec i s = s.loadInto rd ea) (he : isEven ea = true) :
    ∃ t, exec i s = .next t ∧ t.pc = s.pc + 2 ∧ Wrote s.gap t rd (s.byteAt ea ++ s.byteAt (ea + 1)) [] :=
  hi ▸ s.loadInto_next rd ea he

theorem State.completes_of_storeFrom {rs : Reg} {ea : Word} (hi : exec i s = s.storeFrom ea rs) (hc : s.canonical = true)
    (he : isEven ea = true) : ∃ t, exec i s = .next t ∧ t.pc = s.pc + 2 ∧
      t.byteAt ea = (s.reg rs).extractLsb' 8 8 ∧ t.byteAt (ea + 1) = (s.reg rs).extractLsb' 0 8 ∧
      Keeps s t [] [] [ea, ea + 1] := hi ▸ s.storeFrom_next ea rs hc he

/-- A write to one cell other than RE, under no name that depends on the level (R230, R233). -/
theorem State.completes_of_setCell {p : Phys} {v : Word} (hi : exec i s = .next (s.setCell p v).advance) (hp : p ≠ .re) :
    ∃ t, exec i s = .next t ∧ t.pc = s.pc + 2 ∧ t.cell p = v ∧ Keeps s t [p] [] [] := by
  refine ⟨_, hi, by simp [State.eis], by simp, ?_⟩
  exact ((Keeps.refl ..).setCell v (List.mem_singleton_self p) hp).advance

end

/-- The constant of MOVL, sign-extended (R95, R220). -/
theorem toInt_constant {k : Int} (h : -128 ≤ k ∧ k ≤ 127) : (constant k).toInt = k :=
  BitVec.toInt_ofInt_eq_self (by decide) (by omega) (by omega)

/-- The word MOVH leaves: its constant above the lower byte (R221). -/
theorem toNat_byte_append {k : Nat} (h : k ≤ 255) (v : Word) :
    (BitVec.ofNat 8 k ++ v.extractLsb' 0 8 : Word).toNat = 256 * k + v.toNat % 256 := by
  have hlow : (v.extractLsb' 0 8).toNat = v.toNat % 256 := by simp
  have hlt : v.toNat % 256 < 2 ^ 8 := Nat.mod_lt _ (by decide)
  rw [BitVec.toNat_append, toNat_ofNat_8 h, hlow, ← Nat.shiftLeft_add_eq_or_of_lt hlt, Nat.shiftLeft_eq]
  omega

/-! ### SWAP of two registers (R235) -/

/-- What SWAP Rd, Rs leaves but for pc, TEMP being neither: TEMP, Rd and then Rs written, the name Rs read last. -/
def State.swapped (s : State) (rd rs : Reg) : State :=
  ((s.setCell .temp (s.reg rd)).setReg rd (s.reg rs)).setReg rs (s.reg rd)

/-- SWAP of registers other than TEMP. -/
theorem exec_swapr (s : State) {rd rs : Reg} (hrd : rd ≠ .temp) (hrs : rs ≠ .temp) :
    exec (.swapr rd rs) s = .next (s.swapped rd rs).advance := by
  have hphys : (s.setCell .temp (s.reg rd)).phys rd ≠ .temp := mt (State.phys_eq_temp ..).mp hrd
  have htemp : ((s.setCell .temp (s.reg rd)).setReg rd (s.reg rs)).cell .temp = s.reg rd := by
    rw [State.setReg, State.cell_setCell_ne _ _ hphys.symm, State.cell_setCell_same]
  simp only [exec, execSwapr, State.wr_nothing, State.reg_setTemp s _ hrs, htemp, State.swapped]

/-- SWAP TEMP, Rs: TEMP takes Rs, and Rs its own value (log 36). -/
theorem exec_swapr_temp_left (s : State) (rs : Reg) :
    exec (.swapr .temp rs) s = .next (s.setCell .temp (s.reg rs)).advance := by
  have hkeep : s.setCell .temp (s.reg .temp) = s := s.setReg_self .temp
  have hrs : (s.setCell .temp (s.reg rs)).reg rs = s.reg rs := by
    by_cases h : rs = .temp
    · rw [h, hkeep]
    · exact s.reg_setTemp _ h
  have hself := (s.setCell .temp (s.reg rs)).setReg_self rs
  rw [hrs] at hself
  simp only [exec, execSwapr, State.wr_nothing, hkeep]
  exact congrArg (fun u => Host.Outcome.next (State.advance u)) hself

/-- SWAP Rd, TEMP: TEMP takes Rd, and Rd its own value (log 36). -/
theorem exec_swapr_temp_right (s : State) {rd : Reg} (hrd : rd ≠ .temp) :
    exec (.swapr rd .temp) s = .next (s.setCell .temp (s.reg rd)).advance := by
  have hself := (s.setCell .temp (s.reg rd)).setReg_self rd
  rw [s.reg_setTemp _ hrd] at hself
  have htemp : (s.setCell .temp (s.reg rd)).reg .temp = s.reg rd := s.cell_setCell_same ..
  simp only [exec, execSwapr, State.wr_nothing, htemp, hself]
  exact congrArg (fun u => Host.Outcome.next (State.advance u)) (State.setReg_self _ .temp)

/-- Where the write of Rd does not change what the name Rs stands for, the swap is three cell writes. -/
theorem State.swapped_eq (s : State) {rd rs : Reg} (h : rd ≠ .re ∨ rs = .re) :
    s.swapped rd rs = ((s.setCell .temp (s.reg rd)).setCell (s.phys rd) (s.reg rs)).setCell (s.phys rs) (s.reg rd) := by
  rw [State.swapped, State.setReg, State.phys_setReg _ _ h, State.setReg_setTemp, State.phys_setTemp]

/-- Each register then holds what the other held, and TEMP the old Rd. -/
theorem State.swapped_cells (s : State) {rd rs : Reg} (hrd : rd ≠ .temp) (hrs : rs ≠ .temp) (h : rd ≠ .re ∨ rs = .re) :
    (s.swapped rd rs).cell (s.phys rd) = s.reg rs ∧ (s.swapped rd rs).cell (s.phys rs) = s.reg rd ∧
      (s.swapped rd rs).temp = s.reg rd := by
  have hd : Phys.temp ≠ s.phys rd := fun e => hrd ((s.phys_eq_temp rd).mp e.symm)
  have hs : Phys.temp ≠ s.phys rs := fun e => hrs ((s.phys_eq_temp rs).mp e.symm)
  rw [s.swapped_eq h]
  refine ⟨?_, State.cell_setCell_same .., ?_⟩
  · rw [State.cell_setCell]
    split
    case isTrue e => rw [State.reg, State.reg, e]
    case isFalse => exact State.cell_setCell_same ..
  · rw [State.temp_eq_cell, State.cell_setCell_ne _ _ hs, State.cell_setCell_ne _ _ hd, State.cell_setCell_same]

/-- SWAP RE, Rs: the cell `p` exchanged with RE is the one Rs names at the level of the RE just written (R27). -/
theorem State.swapped_re_left (s : State) {rs : Reg} {p : Phys} (hp : p = Reg.phys ((s.reg rs).getLsbD 13) rs)
    (hre : rs ≠ .re) (htemp : rs ≠ .temp) :
    (s.swapped .re rs).re = s.reg rs ∧ (s.swapped .re rs).cell p = s.re ∧ (s.swapped .re rs).temp = s.re ∧
      Keeps s (s.swapped .re rs) [p, .temp] allBits [] := by
  have hpre : p ≠ .re := hp ▸ Reg.phys_ne_re _ hre
  have hptemp : p ≠ .temp := hp ▸ Reg.phys_ne_temp _ htemp
  have heq : s.swapped .re rs = ((s.setCell .temp s.re).setCell .re (s.reg rs)).setCell p s.re := hp ▸ rfl
  rw [heq]
  refine ⟨State.re_setCell_ne _ _ hpre, State.cell_setCell_same .., State.cell_setCell_ne _ _ hptemp.symm, ?_⟩
  exact (((Keeps.refl ..).setCell _ (by simp) (by decide)).setRe_all _).setCell _ (by simp) hpre

/-! ### SWAP of a register and a word of memory (R236) -/

theorem State.setWord_setCell (s : State) (p : Phys) (v a w : Word) :
    (s.setCell p v).setWord a w = (s.setWord a w).setCell p v := by cases p <;> rfl

/-- A word stored where it stands changes no byte. -/
theorem State.byteAt_setWord_wordAt {s : State} (h : s.canonical = true) (a b : Word) :
    (s.setWord a (s.wordAt a)).byteAt b = s.byteAt b := by
  rw [State.byteAt_setWord h]
  split
  case isTrue e => rw [e, State.wordAt, BitVec.extractLsb'_append_eq_left]
  case isFalse =>
    split
    case isTrue e => rw [e, State.wordAt, BitVec.extractLsb'_append_eq_right]
    case isFalse => rfl

/-- What SWAP Rd, [Rs] writes to the registers last: the word read, to TEMP and to Rd's cell. -/
def State.takeWord (s : State) (p : Phys) (w : Word) : State := (s.setCell .temp w).setCell p w

theorem State.cell_takeWord {s : State} {p q : Phys} {w : Word} (h : q = .temp ∨ q = p) :
    (s.takeWord p w).advance.cell q = w := by
  rw [State.cell_advance, State.takeWord, State.cell_setCell]
  split
  case isTrue => rfl
  case isFalse hp => rw [h.resolve_right hp, State.cell_setCell_same]

theorem Keeps.takeWord {s t : State} {cells bits bytes} (h : Keeps s t cells bits bytes) {p : Phys} {w : Word} (hre : p ≠ .re)
    (htemp : .temp ∈ cells) (hp : p ∈ cells) : Keeps s (t.takeWord p w).advance cells bits bytes :=
  ((h.setCell w htemp (by decide)).setCell w hp hre).advance

theorem Keeps.takeWord_re {s t : State} {cells bytes} (h : Keeps s t cells allBits bytes) {p : Phys} {w : Word} (hre : p = .re)
    (htemp : .temp ∈ cells) : Keeps s (t.takeWord p w).advance cells allBits bytes :=
  ((h.setCell w htemp (by decide)).setCell_all w (.inl hre)).advance

/-- Nothing is granted in a gap without RE.DE or without an access to come (R350). -/
theorem State.gap_of_quiet {s : State} (h : s.flag .de = false ∨ s.gaps = []) : s.gap = s :=
  h.elim State.gap_of_de State.gap_of_nil

/-- SWAP Rd, [Rs] at an even address: from `m`, the state with the word stored, the gap, then TEMP and Rd written. -/
theorem exec_swapm {s m : State} {rd rs : Reg} {ea : Word} (hea : ea = s.reg rs) (he : isEven ea = true)
    (hm : m = s.setWord ea (if rd = .temp then s.wordAt ea else s.reg rd)) :
    exec (.swapm rd rs) s =
      .next (m.gap.takeWord (s.phys rd) (s.wordAt ea)).advance := by
  have hstore : (s.setCell .temp (s.wordAt ea)).setWord ea ((s.setCell .temp (s.wordAt ea)).reg rd) =
      m.setCell .temp (s.wordAt ea) := by
    rw [s.reg_setTemp_ite, hm, State.setWord_setCell]
  have hphys : m.gap.phys rd = s.phys rd := by rw [State.gap_phys, hm]; exact State.phys_congr rfl rd
  simp only [exec, execSwapm, ← hea]
  rw [State.withLoad_even _ _ he, State.withStore_even _ _ _ he, hstore, State.gap_setCell _ _ (by decide),
    State.cell_setCell_same, State.finishMove, State.wr_nothing, State.setReg_setTemp, hphys, State.takeWord]

/-! ### PUSH and POP (R237, R238) -/

/-- PUSH with an even SP. -/
theorem exec_push_even (s : State) (rd : Reg) (he : isEven (s.reg .sp) = true) :
    exec (.push rd) s = .next ((s.setWord s.pushSlot (s.reg rd)).setCell (s.phys .sp) s.pushSlot).advance :=
  s.withStore_even _ _ ((isEven_sub_two _).trans he)

/-- POP with an even SP: the stack pointer raised is the one SP names once Rd is written. -/
theorem exec_pop_even (s : State) (rd : Reg) (he : isEven (s.reg .sp) = true) :
    exec (.pop rd) s = .next ((s.gap.setReg rd (s.wordAt (s.reg .sp))).setReg .sp
      ((s.gap.setReg rd (s.wordAt (s.reg .sp))).reg .sp + 2)).advance := by
  rw [exec_pop, State.withLoadGap_even _ _ he, State.wr_nothing]

/-- POP into a register other than RE: SP still names the stack pointer popped. -/
theorem exec_pop_of_ne (s : State) {rd : Reg} (hrd : rd ≠ .re) (he : isEven (s.reg .sp) = true) :
    exec (.pop rd) s = .next ((s.gap.setCell (s.phys rd) (s.wordAt (s.reg .sp))).setCell (s.phys .sp)
      ((if rd = .sp then s.wordAt (s.reg .sp) else s.reg .sp) + 2)).advance := by
  have hsp : (s.gap.setReg rd (s.wordAt (s.reg .sp))).phys .sp = s.phys .sp := by
    rw [State.phys_setReg _ _ (.inl hrd), State.gap_phys]
  have hreg : (s.gap.setReg rd (s.wordAt (s.reg .sp))).reg .sp =
      if rd = .sp then s.wordAt (s.reg .sp) else s.reg .sp := by
    rw [State.reg, hsp, State.setReg, State.gap_phys, State.cell_setCell, State.gap_cell]
    exact if_congr ⟨fun e => (Reg.phys_injective _ e).symm, fun e => by rw [e]⟩ rfl rfl
  rw [exec_pop_even s rd he, hreg, State.setReg, hsp, State.setReg, State.gap_phys]

/-- POP RE: SP names the stack pointer of the level popped (U9). -/
theorem exec_pop_re (s : State) (he : isEven (s.reg .sp) = true) :
    exec (.pop .re) s = .next ((s.gap.setCell .re (s.wordAt (s.reg .sp))).setCell
      (Reg.phys ((s.wordAt (s.reg .sp)).getLsbD 13) .sp)
      (s.cell (Reg.phys ((s.wordAt (s.reg .sp)).getLsbD 13) .sp) + 2)).advance := by
  rw [exec_pop_even s .re he]
  generalize s.wordAt (s.reg .sp) = v
  have hset : s.gap.setReg .re v = s.gap.setCell .re v := rfl
  rw [hset, State.setReg, State.reg, State.phys_setRe, State.cell_setCell_ne _ _ (Reg.phys_ne_re _ (by decide)), State.gap_cell]

end Sys2Proof.Machine

open Sys2Proof Sys2Proof.Machine

/-! ### The statements -/

/-- Settles O27: the three forms are one load at their address. -/
theorem wordLoads : Obligations.WordLoads := by
  intro s rd rs ri off ea he
  refine ⟨fun hea => ?_, fun hea => ?_, fun hea => ?_⟩ <;> subst hea
  · exact State.completes_of_loadInto (exec_ldo s rd rs off) he
  · exact State.completes_of_loadInto (exec_ldr s rd rs ri) he
  · exact State.completes_of_loadInto (exec_ldp s rd rs) he

/-- Settles O28: the three forms are one store at their address. -/
theorem wordStores : Obligations.WordStores := by
  intro s rd rs ri off ea hc he
  refine ⟨fun hea => ?_, fun hea => ?_, fun hea => ?_⟩ <;> subst hea
  · exact State.completes_of_storeFrom (exec_sto s rd off rs) hc he
  · exact State.completes_of_storeFrom (exec_str s rd ri rs) hc he
  · exact State.completes_of_storeFrom (exec_stp s rd rs) hc he

/-- Settles O29: the load is a move of the zero-extended byte, the store one byte written. -/
theorem byteTransfers : Obligations.ByteTransfers := by
  intro s rd rs
  refine ⟨?_, fun hc => ?_⟩
  · obtain ⟨t, ht, hpc, hw⟩ := s.gap.finishMove_next rd ((s.byteAt (s.reg rs)).setWidth 16)
    exact ⟨t, _, (exec_ldb s rd rs).trans ht, hpc.trans (by rw [State.gap_pc]), BitVec.toNat_setWidth_of_le (by decide), hw⟩
  · refine ⟨_, exec_stb s rd rs, by simp [State.eis], ?_, ?_⟩
    · rw [State.byteAt_advance, State.byteAt_setByte_same hc]
    · exact ((Keeps.refl ..).setByte hc _ (List.mem_singleton_self _)).advance

/-- Settles O30: both are moves, of words whose values are `toInt_constant` and `toNat_byte_append`. -/
theorem constantLoads : Obligations.ConstantLoads := by
  intro s rd
  refine ⟨fun k h1 h2 => ?_, fun k h => ?_⟩
  · obtain ⟨t, ht, hpc, hw⟩ := State.completes_of_finishMove (exec_movl s rd k)
    exact ⟨t, _, ht, hpc, toInt_constant ⟨h1, h2⟩, hw⟩
  · obtain ⟨t, ht, hpc, hw⟩ := State.completes_of_finishMove (exec_movh s rd k)
    exact ⟨t, _, ht, hpc, toNat_byte_append h _, hw⟩

/-- Settles O32: three moves into Rd, and two writes to a cell that no level selects. -/
theorem registerMoves : Obligations.RegisterMoves := by
  intro s rd rs x
  exact ⟨State.completes_of_finishMove (exec_movrr s rd rs),
    State.completes_of_setCell (exec_movar s x rs) (by simp),
    State.completes_of_finishMove (exec_movra s rd x),
    State.completes_of_finishMove (exec_movru s rd),
    State.completes_of_setCell (exec_movur s rs) (by simp)⟩

/-- Settles O33: with TEMP named the swap is one write to TEMP, otherwise `swapped`, of which RE as Rd alone can change what
the name Rs stands for. -/
theorem registerSwap : Obligations.RegisterSwap := by
  intro s rd rs
  have hpc : ∀ u : State, u.pc = s.pc → u.advance.pc = s.pc + 2 := fun u h => by rw [State.advance_pc, State.eis, h]
  have htemp : ∀ v, (s.setCell .temp v).advance.temp = v ∧ Keeps s (s.setCell .temp v).advance [.temp] [] [] := fun v =>
    ⟨rfl, ((Keeps.refl ..).setCell v (List.mem_singleton_self _) (by decide)).advance⟩
  by_cases hrd : rd = .temp
  · subst hrd
    exact ⟨_, exec_swapr_temp_left s rs, hpc _ rfl, by simp, by simp, by simp, fun _ => htemp _, by simp⟩
  by_cases hrs : rs = .temp
  · subst hrs
    exact ⟨_, exec_swapr_temp_right s hrd, hpc _ rfl, by simp, by simp, by simp, by simp [hrd], fun _ _ => htemp _⟩
  have hswapped : (s.swapped rd rs).pc = s.pc := by simp [State.swapped, State.setReg]
  refine ⟨_, exec_swapr s hrd hrs, hpc _ hswapped, ?_, ?_, ?_, (absurd · hrd), (absurd · hrs)⟩
  · intro _ _ hd hs
    obtain ⟨hcellD, hcellS, htmp⟩ := s.swapped_cells hrd hrs (.inl hd)
    refine ⟨(State.cell_advance ..).trans hcellD, (State.cell_advance ..).trans hcellS, htmp, Keeps.advance ?_⟩
    rw [s.swapped_eq (.inl hd)]
    exact (((Keeps.refl ..).setCell _ (by simp) (by decide)).setCell _ (by simp) (s.phys_ne_re hd)).setCell _ (by simp)
      (s.phys_ne_re hs)
  · rintro rfl hs -
    obtain ⟨hre, hcell, htmp, hkeeps⟩ := s.swapped_re_left rfl hs hrs
    exact ⟨hre, (State.cell_advance ..).trans hcell, htmp, hkeeps.advance⟩
  · rintro rfl -
    obtain ⟨hcellD, hcellS, htmp⟩ := s.swapped_cells hrd hrs (.inr rfl)
    refine ⟨hcellS, (State.cell_advance ..).trans hcellD, htmp, Keeps.advance ?_⟩
    rw [s.swapped_eq (.inr rfl)]
    exact (((Keeps.refl ..).setCell _ (by simp) (by decide)).setCell_all _ (.inr (by simp))).setCell_all _ (.inl rfl)

/-- Settles O34: RE or not, what follows the gap is two writes of the word read. -/
theorem memorySwap : Obligations.MemorySwap := by
  intro s m rd rs ea hc hea he hm
  have hphys : s.phys rd = .re ↔ rd = .re := s.phys_eq_re rd
  have hsm : ∀ cells bits, Keeps s m cells bits [ea, ea + 1] := fun _ _ =>
    hm ▸ (Keeps.refl ..).setWord hc _ (by simp) (by simp)
  refine ⟨_, exec_swapm hea he hm, ?_, ?_, fun hrd => ⟨?_, ?_⟩, fun hrd => ⟨?_, ?_⟩, fun hquiet => ?_⟩
  · simp [State.takeWord, State.eis, hm]
  · exact State.cell_takeWord (.inl rfl)
  · exact State.cell_takeWord (.inr (hphys.mpr hrd).symm)
  · exact (Keeps.refl ..).takeWord_re (hphys.mpr hrd) (by simp)
  · exact State.cell_takeWord (.inr rfl)
  · exact (Keeps.refl ..).takeWord (mt hphys.mp hrd) (by simp) (by simp)
  · have hgap : m.gap = m := State.gap_of_quiet (by subst hm; exact hquiet)
    rw [hgap]
    refine ⟨fun hrd => ?_, fun hrd => ?_, fun hrd => ?_, fun hrd => ?_⟩
    · rw [State.wordAt_advance, State.takeWord, State.wordAt_setCell, State.wordAt_setCell, hm, if_neg hrd,
        State.wordAt_setWord hc]
    · have hbytes : ∀ a, m.byteAt a = s.byteAt a := by
        rw [hm, if_pos hrd]; exact State.byteAt_setWord_wordAt hc ea
      have hkeeps : Keeps s m [.temp] [] [] := { hsm [.temp] [] with bytes := fun a _ => hbytes a }
      have htemp : s.phys rd = .temp := (s.phys_eq_temp rd).mpr hrd
      exact hkeeps.takeWord (by simp [htemp]) (by simp) (by simp [htemp])
    · exact (hsm ..).takeWord_re (hphys.mpr hrd) (by simp)
    · exact (hsm ..).takeWord (mt hphys.mp hrd) (by simp) (by simp)

/-- Settles O35: a store and a write to the stack pointer. -/
theorem pushResult : Obligations.PushResult := by
  intro s rd hc he
  have hsp : s.phys .sp ≠ .re := s.phys_ne_re (by decide)
  refine ⟨_, exec_push_even s rd he, by simp [State.eis], ?_, ?_, ?_⟩
  · rw [State.wordAt_advance, State.wordAt_setCell, State.wordAt_setWord hc]
  · rw [State.cell_advance, State.cell_setCell_same]; rfl
  · exact (((Keeps.refl ..).setWord hc _ (by simp) (by simp)).setCell _ (by simp) hsp).advance

/-- Settles O36: two cell writes, RE or not; the stack pointer is the second. -/
theorem popResult : Obligations.PopResult := by
  rintro s rd _ he rfl
  by_cases hrd : rd = .re
  · subst hrd
    refine ⟨_, exec_pop_re s he, by simp [State.eis], by simp, by simp, fun _ => ⟨?_, ?_, ?_⟩⟩
    · exact State.re_setCell_ne _ _ (Reg.phys_ne_re _ (by decide))
    · rw [State.cell_advance, State.cell_setCell_same]
    · exact (((Keeps.refl ..).setRe_all _).setCell _ (by simp) (Reg.phys_ne_re _ (by decide))).advance
  · have hd := s.phys_ne_re hrd
    have hsp : s.phys .sp ≠ .re := s.phys_ne_re (by decide)
    refine ⟨_, exec_pop_of_ne s hrd he, by simp [State.eis], fun _ hne => ⟨?_, ?_, ?_⟩, ?_, (absurd · hrd)⟩
    · have hcell : s.phys rd ≠ s.phys .sp := fun e => hne (Reg.phys_injective _ e)
      rw [State.cell_advance, State.cell_setCell_ne _ _ hcell, State.cell_setCell_same]
    · rw [State.cell_advance, State.cell_setCell_same, if_neg hne]
    · exact (((Keeps.refl ..).setCell _ (by simp) hd).setCell _ (by simp) hsp).advance
    · rintro rfl
      refine ⟨?_, (((Keeps.refl ..).setCell _ (by simp) hsp).setCell _ (by simp) hsp).advance⟩
      rw [State.cell_advance, State.cell_setCell_same, if_pos rfl]

end

section
/-!
PROOFS. The statements on 44_control_flow.md: the conditional jumps (O37), JMP, RETF and NOP (O38), the stack calls and RET (O39,
O40), the link calls (O41), SWE (O42), RFE (O43). The sixteen conditions are eight and their opposites, so eight facts about RE
settle the jumps; a CALL and the RET after it compose, since the first keeps RE and with it the stack pointer SP names.
-/
namespace Sys2Proof.Machine

/-! ### Each instruction as its ending -/

theorem exec_jmp (s : State) (dif : Int) : exec (.jmp dif) s = .next (s.setPc (s.target dif)) := rfl
theorem exec_jmpr (s : State) (rs : Reg) : exec (.jmpr rs) s = .next (s.setPc (s.reg rs)) := rfl
theorem exec_retf (s : State) : exec .retf s = .next (s.setPc s.rl) := rfl
theorem exec_nop (s : State) : exec .nop s = .next s.advance := rfl
theorem exec_call (s : State) (dif : Int) : exec (.call dif) s = s.callTo (s.target dif) := rfl
theorem exec_cr (s : State) (rs : Reg) : exec (.cr rs) s = s.callTo (s.reg rs) := rfl
theorem exec_callf (s : State) (dif : Int) : exec (.callf dif) s = .next (s.link.setPc (s.target dif)) := rfl
theorem exec_crf (s : State) (rs : Reg) : exec (.crf rs) s = .next (s.link.setPc (s.link.reg rs)) := rfl
theorem exec_swe (s : State) (k : Nat) : exec (.swe k) s = s.enter .software (s.pc + 2) := rfl

/-! ### The conditional jumps (R251 to R267) -/

/-- The condition that holds exactly where `cond` does not (R104). -/
def Cond.opposite : Cond → Cond
  | .z => .nz | .nz => .z | .n => .nn | .nn => .n | .p => .np | .np => .p | .c => .nc | .nc => .c
  | .v => .nv | .nv => .v | .a => .na | .na => .a | .lt => .ge | .ge => .lt | .le => .gt | .gt => .le

theorem Cond.holds_opposite (cond : Cond) (re : Word) : cond.opposite.holds re = !cond.holds re := by
  cases cond <;> simp [Cond.opposite, Cond.holds]

/-- A conditional jump whose condition is the proposition `p`, and the one on the opposite condition. -/
theorem exec_opposite_jumps {s : State} {i j : Instr} {cond : Cond} {dif : Int} {p : Prop} [Decidable p]
    (hi : exec i s = s.jumpIf cond dif) (hj : exec j s = s.jumpIf cond.opposite dif) (h : cond.holds s.re = decide p) :
    exec i s = .next (s.setPc (if p then s.target dif else s.eis)) ∧
      exec j s = .next (s.setPc (if p then s.eis else s.target dif)) := by
  have hopp : cond.opposite.holds s.re = decide ¬ p := by rw [cond.holds_opposite, h, decide_not]
  refine ⟨hi.trans (State.jumpIf_eq h dif), hj.trans ?_⟩
  rw [State.jumpIf_eq hopp, ite_not]

/-- The condition of JNP in the flags (R257). -/
theorem State.holds_np (s : State) : Cond.holds .np s.re = decide (s.flag .n = true ∨ s.flag .z = true) := by
  have h : Cond.holds .np s.re = (s.flag .n || s.flag .z) := rfl
  simp [h]

/-- The condition of JLT in the flags (R264). -/
theorem State.holds_lt (s : State) : Cond.holds .lt s.re = decide (s.flag .n ≠ s.flag .v) := by
  have h : Cond.holds .lt s.re = (s.flag .n ^^ s.flag .v) := rfl
  rw [h, Bool.eq_iff_iff, Bool.xor_iff_ne, decide_eq_true_eq]

/-- The condition of JLE in the flags (R265). -/
theorem State.holds_le (s : State) : Cond.holds .le s.re = decide (s.flag .n ≠ s.flag .v ∨ s.flag .z = true) := by
  have h : Cond.holds .le s.re = (Cond.holds .lt s.re || s.flag .z) := rfl
  rw [h, s.holds_lt, Bool.decide_or, Bool.decide_eq_true]

/-! ### What was kept, taken apart -/

/-- A state that keeps every bit of RE keeps RE. -/
theorem Keeps.re_eq {s t : State} {cells bytes} (h : Keeps s t cells [] bytes) : t.re = s.re :=
  BitVec.eq_of_getLsbD_eq fun i hi => h.bits i hi List.not_mem_nil

/-- A listed cell with its old value need not be listed. -/
theorem Keeps.unlist {s t : State} {p : Phys} {cells bits bytes} (h : Keeps s t (p :: cells) bits bytes)
    (hp : t.cell p = s.cell p) : Keeps s t cells bits bytes where
  cells q hq hre := by
    by_cases hqp : q = p
    · rw [hqp, hp]
    · exact h.cells q (by simp [hqp, hq]) hre
  bits := h.bits
  bytes := h.bytes
  pend := h.pend
  env := h.env
  gaps := h.gaps
  intAck := h.intAck
  busGrant := h.busGrant

/-! ### The calls (R270 to R274) -/

/-- A stack call followed by a RET (R270, R274). -/
theorem State.callTo_ret (s : State) (x : Word) (hc : s.canonical = true) (he : isEven (s.reg .sp) = true) :
    ∃ t u, s.callTo x = .next t ∧ exec .ret t = .next u ∧
      u.pc = s.pc + 2 ∧ u.reg .sp = s.reg .sp ∧ Keeps s u [.rer] [] [s.pushSlot, s.pushSlot + 1] := by
  obtain ⟨t, ht, -, hslot, htsp, -, htk⟩ := s.callTo_next x hc he
  have htphys : t.phys .sp = s.phys .sp := State.phys_congr htk.re_eq .sp
  have htreg : t.reg .sp = s.pushSlot := by rw [State.reg, htphys, htsp, State.pushSlot]
  have hte : isEven (t.reg .sp) = true := by rw [htreg]; exact (isEven_sub_two _).trans he
  obtain ⟨u, hu, hpc, husp, huk⟩ := t.ret_next hte
  have huphys : u.phys .sp = s.phys .sp := (State.phys_congr huk.re_eq .sp).trans htphys
  have hsp : u.cell (s.phys .sp) = s.reg .sp := by
    rw [← htphys, husp, htreg, State.pushSlot, BitVec.sub_add_cancel]
  refine ⟨t, u, ht, hu, ?_, ?_, Keeps.unlist (p := s.phys .sp) (htk.trans (huk.mono ?_ ?_ ?_)) hsp⟩
  · rw [hpc, htreg, hslot]
  · rw [State.reg, huphys, hsp]
  all_goals simp [htphys]

/-- What a link call leaves (R272, R273). -/
theorem State.link_jump (s : State) (x : Word) : (s.link.setPc x).pc = x ∧ (s.link.setPc x).rl = s.pc + 2 ∧
    (s.link.setPc x).rer = s.pc + 2 ∧ Keeps s (s.link.setPc x) [.rl, .rer] [] [] :=
  ⟨rfl, rfl, rfl, (((Keeps.refl ..).setCell _ (by simp) (by decide)).setCell _ (by simp) (by decide)).setPc _⟩

/-- The registers after the link: RL holds EIS (R273; U10, log 36). -/
theorem State.link_reg_ite (s : State) (r : Reg) : s.link.reg r = if r = .rl then s.pc + 2 else s.reg r := by
  split
  case isTrue h => rw [h]; rfl
  case isFalse h => exact s.link_reg h

/-! ### RFE (R278) -/

/-- RFE with an even SP as its writes: SP names the stack pointer of the level RFE runs at. -/
theorem exec_rfe_even {s : State} (he : isEven (s.reg .sp) = true) :
    exec .rfe s = .next ((((s.gap.gap.setCell .temp (s.wordAt (s.reg .sp))).setPc (s.gap.wordAt (s.reg .sp + 2))).setCell
      (s.phys .sp) (s.reg .sp + 4)).setCell .re (s.wordAt (s.reg .sp))) := by
  have hre : ((s.gap.gap.setCell .temp (s.wordAt (s.reg .sp))).setPc (s.gap.wordAt (s.reg .sp + 2))).re = s.re := by
    rw [State.setPc_re, State.re_setCell_ne _ _ (by decide), State.gap_re, State.gap_re]
  have hrfe : exec .rfe s = s.returnFromException := rfl
  rw [hrfe, State.returnFromException_even he, State.setReg, State.phys_congr hre]

end Sys2Proof.Machine

open Sys2Proof Sys2Proof.Machine

/-! ### The statements -/

/-- Settles O37: eight pairs of opposite conditions (`exec_opposite_jumps`). -/
theorem conditionalJumps : Obligations.ConditionalJumps := by
  rintro s dif _ _ _ _ _ _ _ - - rfl rfl rfl rfl rfl rfl rfl
  have hflag (f : ReField) : s.flag f = decide (s.flag f = true) := Bool.decide_eq_true.symm
  obtain ⟨hjz, hjnz⟩ := exec_opposite_jumps (i := .jz dif) (j := .jnz dif) (cond := .z) rfl rfl (hflag .z)
  obtain ⟨hjn, hjnn⟩ := exec_opposite_jumps (i := .jn dif) (j := .jnn dif) (cond := .n) rfl rfl (hflag .n)
  obtain ⟨hjnp, hjp⟩ := exec_opposite_jumps (i := .jnp dif) (j := .jp dif) rfl rfl s.holds_np
  obtain ⟨hjc, hjnc⟩ := exec_opposite_jumps (i := .jc dif) (j := .jnc dif) (cond := .c) rfl rfl (hflag .c)
  obtain ⟨hjv, hjnv⟩ := exec_opposite_jumps (i := .jv dif) (j := .jnv dif) (cond := .v) rfl rfl (hflag .v)
  obtain ⟨hja, hjna⟩ := exec_opposite_jumps (i := .ja dif) (j := .jna dif) (cond := .a) rfl rfl (hflag .a)
  obtain ⟨hjlt, hjge⟩ := exec_opposite_jumps (i := .jlt dif) (j := .jge dif) rfl rfl s.holds_lt
  obtain ⟨hjle, hjgt⟩ := exec_opposite_jumps (i := .jle dif) (j := .jgt dif) rfl rfl s.holds_le
  exact ⟨hjz, hjnz, hjn, hjnn, hjp, hjnp, hjc, hjnc, hjv, hjnv, hja, hjna, hjlt, hjle, hjgt, hjge⟩

/-- Settles O38: each is one `setPc`. -/
theorem jumpsAndNop : Obligations.JumpsAndNop :=
  fun s rs dif _ _ => ⟨exec_jmp s dif, exec_jmpr s rs, exec_retf s, exec_nop s⟩

/-- Settles O39: both calls are `callTo` of their target (`State.callTo_next`), RET is `State.ret_next`. -/
theorem stackCalls : Obligations.StackCalls := by
  intro s rs dif he
  refine ⟨fun hc _ _ => ?_, fun hc => ?_, s.ret_next he⟩
  · rw [exec_call]
    exact s.callTo_next _ hc he
  · rw [exec_cr]
    exact s.callTo_next _ hc he

/-- Settles O40: a CALL is `callTo` of its target (`State.callTo_ret`). -/
theorem callThenReturn : Obligations.CallThenReturn := by
  intro s dif hc he
  rw [exec_call]
  exact s.callTo_ret _ hc he

/-- Settles O41: both calls are a jump after the link (`State.link_jump`). -/
theorem linkCalls : Obligations.LinkCalls := by
  intro s rs dif
  refine ⟨fun _ _ => ⟨_, exec_callf s dif, s.link_jump _⟩, _, exec_crf s rs, ?_⟩
  rw [← s.link_reg_ite rs]
  exact s.link_jump _

/-- Settles O42: SWE is the entry itself, and its constant stands nowhere in it (`exec_swe`). -/
theorem sweEntersSoftware : Obligations.SweEntersSoftware := by
  intro s k
  refine ⟨fun hc hsafe => ?_, fun hunsafe => ?_⟩
  · obtain ⟨t, ht, hentered⟩ := (State.enter_takes hc .software (s.pc + 2)).even hsafe
    exact ⟨t, (exec_swe s k).trans ht, hentered, fun k' => (exec_swe s k').trans ht⟩
  · rw [exec_swe, State.enter_eq, hunsafe]
    rfl

/-- Settles O43: RE is written last and the cell of SP before it, so each cell reads as its own write left it. -/
theorem rfeResult : Obligations.RfeResult := by
  intro s he
  have hre : s.phys .sp ≠ .re := s.phys_ne_re (by decide)
  have htemp : s.phys .sp ≠ .temp := mt (s.phys_eq_temp .sp).mp (by decide)
  refine ⟨_, exec_rfe_even he, ?_, rfl, by simp, ?_, ?_⟩
  · rw [State.temp_eq_cell, State.cell_setCell_ne _ _ (by decide), State.cell_setCell_ne _ _ htemp.symm, State.cell_setPc,
      State.cell_setCell_same]
  · rw [State.cell_setCell_ne _ _ hre, State.cell_setCell_same]
  · exact ((((Keeps.refl ..).setCell _ (by simp) (by decide)).setPc _).setCell _ (by simp) hre).setRe_all _

end

section
/-!
PROOFS. The statement on 49_assembler.md: the constant move (O31). MOVL leaves the low byte of k and MOVH, which keeps it, puts
the high byte above it, so the two bytes make k again (`movh_after_movl`).
-/
namespace Sys2Proof.Machine

/-! ### MOVL and MOVH by the register they leave -/

theorem exec_movl_reg (s : State) (rd : Reg) (k : Int) :
    ∃ t, exec (.movl rd k) s = .next t ∧ t.reg rd = constant k := s.finishMove_reg ..

theorem exec_movh_reg (s : State) (rd : Reg) (k : Nat) :
    ∃ t, exec (.movh rd k) s = .next t ∧ t.reg rd = BitVec.ofNat 8 k ++ (s.reg rd).extractLsb' 0 8 := s.finishMove_reg ..

/-- The constant of MOVL keeps its byte as the low byte of the word (R220). -/
theorem lowByte_constant_toInt (b : BitVec 8) : (constant b.toInt).extractLsb' 0 8 = b := by
  have hsign : constant b.toInt = b.signExtend 16 := rfl
  ext j hj
  have hj16 : j < 16 := by omega
  rw [hsign, BitVec.getElem_extractLsb', Nat.zero_add, BitVec.getLsbD_signExtend]
  simp [hj, hj16, BitVec.getLsbD_eq_getElem]

/-- MOVL of a byte and MOVH of another leave the two of them in Rd, the name Rd being read again after MOVL (R220, R221). -/
theorem movh_after_movl (s : State) (rd : Reg) (hi lo : BitVec 8) :
    ∃ t u, exec (.movl rd lo.toInt) s = .next t ∧ exec (.movh rd hi.toNat) t = .next u ∧ u.reg rd = hi ++ lo := by
  obtain ⟨t, ht, hlo⟩ := exec_movl_reg s rd lo.toInt
  obtain ⟨u, hu, hhi⟩ := exec_movh_reg t rd hi.toNat
  refine ⟨t, u, ht, hu, ?_⟩
  rw [hhi, hlo, lowByte_constant_toInt, BitVec.ofNat_toNat, BitVec.setWidth_eq]

/-! ### The two forms of `MOV Rd, k` -/

/-- A constant that MOVL can hold (R308). -/
theorem movConstant_short (rd : Reg) {k : Int} (h : -128 ≤ k ∧ k ≤ 127) : Asm.movConstant rd k = some [.movl rd k] := if_pos h

/-- Any other constant of 16 bits: MOVL of its low byte, MOVH of its high byte (R308). -/
theorem movConstant_long (rd : Reg) {k : Int} (hs : ¬ (-128 ≤ k ∧ k ≤ 127)) (h : -32768 ≤ k ∧ k ≤ 65535) :
    Asm.movConstant rd k = some [.movl rd ((BitVec.ofInt 16 k).extractLsb' 0 8).toInt,
      .movh rd ((BitVec.ofInt 16 k).extractLsb' 8 8).toNat] := (if_neg hs).trans (if_pos h)

end Sys2Proof.Machine

open Sys2Proof Sys2Proof.Machine

/-! ### The statement -/

/-- Settles O31: MOVL alone where k fits it, else the two bytes of k by `movh_after_movl`. -/
theorem movConstantLeavesTheConstant : Obligations.MovConstantLeavesTheConstant := by
  intro s rd k hlo hhi
  by_cases hs : -128 ≤ k ∧ k ≤ 127
  · obtain ⟨t, ht, hreg⟩ := exec_movl_reg s rd k
    exact .inl ⟨_, t, movConstant_short rd hs, decide_eq_true hs, ht, hreg⟩
  · obtain ⟨t, u, ht, hu, hreg⟩ :=
      movh_after_movl s rd ((BitVec.ofInt 16 k).extractLsb' 8 8) ((BitVec.ofInt 16 k).extractLsb' 0 8)
    exact .inr ⟨_, _, t, u, movConstant_long rd hs ⟨hlo, hhi⟩, isS8_toInt _, isU8_toNat _, ht, hu,
      hreg.trans (word_of_bytes _)⟩

end

section
/-!
PROOFS. The statements on 60_exceptions.md: one step (O6), the exception table (O44), the entry (O45) and the RFE after it
(O46), interrupts at a boundary (O50, O51), the events of the environment (O52). An entry leaves RE = 0000H, and every event
keeps RE; so after an entry DMA and the interrupts stay off, at the boundary, in the gaps and inside an RFE.
-/
namespace Sys2Proof.Machine

/-! ### The entry and the RFE after it (R278, R330, R338) -/

/-- An entry with SSP or BTE odd (R338). -/
theorem State.enter_unsafe {s : State} (e : Exc) (ret : Word) (h : s.entrySafe = false) :
    s.enter e ret = .fault .doubleFault := by
  rw [State.enter_eq, h]
  rfl

/-- With RE = 0000H every field of it is 0: system level, interrupts and DMA off. -/
theorem State.flag_of_re_zero {s : State} (h : s.re = 0x0000) (f : ReField) : s.flag f = false := by simp [State.flag, h]

/-- RE with its old value need not be listed. -/
theorem Keeps.unlistRe {s t : State} {cells bits bytes} (h : Keeps s t cells bits bytes) (hre : t.re = s.re) :
    Keeps s t cells [] bytes :=
  ⟨h.cells, fun i _ _ => congrArg (BitVec.getLsbD · i) hre, h.bytes, h.pend, h.env, h.gaps, h.intAck, h.busGrant⟩

/-- An RFE at system level with DMA off (R278): no gap changes anything, and SSP is the pointer that moves. -/
theorem exec_rfe_of_re_zero {t : State} (hre : t.re = 0x0000) (he : isEven t.ssp = true) :
    ∃ u, exec .rfe t = .next u ∧ u.re = t.wordAt t.ssp ∧ u.pc = t.wordAt (t.ssp + 2) ∧ u.ssp = t.ssp + 4 ∧
      Keeps t u [.temp, .ssp] allBits [] := by
  have hgap : t.gap = t := State.gap_of_de (State.flag_of_re_zero hre .de)
  have hphys : t.phys .sp = .ssp := by rw [State.phys, State.flag_of_re_zero hre]; rfl
  have hsp : t.reg .sp = t.ssp := by rw [State.reg, hphys]; rfl
  refine ⟨_, exec_rfe_even (hsp.symm ▸ he), ?_⟩
  rw [hgap, hgap, hphys, hsp]
  exact ⟨rfl, rfl, rfl,
    ((((Keeps.refl ..).setCell _ (by simp) (by decide)).setPc _).setCell _ (by simp) (by decide)).setRe_all _⟩

/-- An entry and the RFE after it: what the RFE pops is what the entry pushed (R278, R330). -/
theorem State.entered_rfe {s : State} (hc : s.canonical = true) (hsafe : s.entrySafe = true) (e : Exc) (ret : Word) :
    ∃ u, exec .rfe (s.entered e ret) = .next u ∧ u.pc = ret ∧ u.re = s.re ∧ u.ssp = s.ssp ∧
      Keeps s u [.temp, .rer] [] [s.ssp - 4, s.ssp - 3, s.ssp - 2, s.ssp - 1] := by
  have ht := State.entered_spec hc e ret
  have heven : isEven (s.entered e ret).ssp = true := by
    obtain ⟨hssp, -⟩ := Bool.and_eq_true_iff.mp hsafe
    rw [ht.ssp]
    exact (isEven_sub_four _).trans hssp
  obtain ⟨u, hu, hre, hpc, hssp, hk⟩ := exec_rfe_of_re_zero ht.re heven
  have hre' : u.re = s.re := hre.trans ht.savedRe
  have hssp' : u.ssp = s.ssp := by rw [hssp, ht.ssp, BitVec.sub_add_cancel]
  have hkeeps : Keeps s u [.ssp, .temp, .rer] allBits [s.ssp - 4, s.ssp - 3, s.ssp - 2, s.ssp - 1] :=
    (ht.keeps.mono (by simp) (by simp) (by simp)).trans (hk.mono (by simp) (by simp) (by simp))
  exact ⟨u, hu, hpc.trans ht.savedPc, hre', hssp', (hkeeps.unlist hssp').unlistRe hre'⟩

/-! ### The interrupt taken (R335, R336) -/

/-- Interrupt `i` is ready: pending, and enabled by IE and its own bit (R335, R336). -/
theorem State.intReady_iff {s : State} {i : Fin 4} :
    s.intReady i = true ↔ s.pend[i] = true ∧ s.flag .ie = true ∧ s.flag (.ieOf i) = true := by
  simp [State.intReady, and_assoc]

/-- The interrupt taken is the first ready one in the order of the numbers (R335). -/
theorem State.readyInt_eq_find (s : State) : s.readyInt = Fin.find? s.intReady := by
  simp only [Fin.find?_succ, Fin.find?_zero, apply_ite (Option.map Fin.succ), Option.map_some, Option.map_none]
  rfl

/-- Taking an interrupt is an entry from the state with its latch fallen and IntAck risen for Int3 alone (R335, R337). -/
theorem State.takeInt_takes {s : State} (hc : s.canonical = true) (i : Fin 4) :
    Takes (s.takeInt i) { s with pend := s.pend.set i false, intAck := decide (i = 3) } (.int i) s.pc :=
  State.enter_takes (s := { s with pend := s.pend.set i false, intAck := decide (i = 3) }) hc _ _

/-- A step with an interrupt to take (R332). -/
theorem step_of_readyInt {s : State} {i : Fin 4} (h : s.boundary.readyInt = some i) : step s = s.boundary.takeInt i := by
  simp [step, State.dispatch, h]

/-! ### The events of the environment (R329, R339, R350) -/

/-- A rising edge sets its latch, masked or not (R339, D15). -/
theorem State.event_edge (s : State) (i : Fin 4) : s.event (.edge i) = { s with pend := s.pend.set i true } := rfl

/-- Without RE.DE no access is granted at a boundary (R350). -/
theorem State.event_dma_off {s : State} (h : s.flag .de = false) (x : Config.DmaAccess) : s.event (.dma x) = s := by
  simp [State.event, h]

theorem State.event_dma_on {s : State} (h : s.flag .de = true) (x : Config.DmaAccess) : s.event (.dma x) = s.dma x := by
  simp [State.event, h]

/-- A byte after a DMA write (R68, R350). -/
theorem State.byteAt_dma_write {s : State} (h : s.canonical = true) (a : Word) (v : Byte) (x : Word) :
    (s.dma (.write a v)).byteAt x = if x = a then v else s.byteAt x := by
  have hmem : (s.dma (.write a v)).mem = (s.setByte a v).mem := rfl
  rw [State.byteAt_congr hmem, State.byteAt_setByte h]

/-- No event changes RE. -/
theorem State.event_re (s : State) (ev : Event) : (s.event ev).re = s.re := s.event_cell ev .re

/-- Without RE.DE no event writes memory (R350). -/
theorem State.event_mem_of_de {s : State} (h : s.flag .de = false) (ev : Event) : (s.event ev).mem = s.mem := by
  cases ev with
  | edge i => rw [State.event_edge]
  | dma x => rw [State.event_dma_off h]

/-- Without RE.DE the boundary leaves memory alone (R350). -/
theorem State.boundary_mem_of_de {s : State} (h : s.flag .de = false) : s.boundary.mem = s.mem := by
  suffices s.boundary.re = s.re ∧ s.boundary.mem = s.mem from this.2
  refine State.boundary_induction (P := fun t => t.re = s.re ∧ t.mem = s.mem) (fun t ev ⟨hre, hmem⟩ => ?_)
    fun _ => ⟨rfl, rfl⟩
  have hde : t.flag .de = false := (State.flag_congr hre .de).trans h
  exact ⟨(t.event_re ev).trans hre, (State.event_mem_of_de hde ev).trans hmem⟩

/-- With RE.DE a list of accesses does the same at a boundary as in a gap. -/
theorem State.foldl_event_dma {s : State} (h : s.flag .de = true) (l : List Config.DmaAccess) :
    (l.map Event.dma).foldl State.event s = l.foldl State.dma s := by
  induction l generalizing s with
  | nil => rfl
  | cons x l ih =>
    have hde : (s.dma x).flag .de = true := (State.flag_congr (s.dma_cell x .re) .de).trans h
    rw [List.map_cons, List.foldl_cons, List.foldl_cons, State.event_dma_on h, ih hde]

/-- With RE.DE a gap makes the accesses listed for it (R72). -/
theorem State.gap_cons {s : State} {accesses : List Config.DmaAccess} {later : List (List Config.DmaAccess)}
    (hde : s.flag .de = true) (h : s.gaps = accesses :: later) :
    s.gap = accesses.foldl State.dma { s with gaps := later } := by
  simp [State.gap, hde, h]

/-- A boundary makes the events listed for it, the output pins having fallen (R337, R350). -/
theorem State.boundary_cons {s : State} {events : List Event} {later : List (List Event)} (h : s.env = events :: later) :
    s.boundary = events.foldl State.event { s with env := later, intAck := false, busGrant := false } := by
  simp [State.boundary, h]

end Sys2Proof.Machine

open Sys2Proof Sys2Proof.Machine

/-! ### The statements -/

/-- Settles O44: the table itself. -/
theorem exceptionTable : Obligations.ExceptionTable := by
  unfold Obligations.ExceptionTable
  decide

/-- Settles O6: `step_of_fetched`, and what a boundary without events and a gap without DMA leave alone. -/
theorem stepRunsTheDecodedInstruction : Obligations.StepRunsTheDecodedInstruction :=
  ⟨fun _ _ => step_of_fetched, fun _ => State.boundary_quiet, fun _ => State.gap_of_quiet,
    fun _ => rfl⟩

/-- Settles O45: `State.enter_takes` where SSP and BTE are even, `State.enter_unsafe` where one is odd. -/
theorem exceptionEntry : Obligations.ExceptionEntry :=
  fun _ e ret => ⟨fun hc hsafe => (State.enter_takes hc e ret).even hsafe, State.enter_unsafe e ret⟩

/-- Settles O46: the entry answers `State.entered`, and the RFE undoes it (`State.entered_rfe`). -/
theorem entryThenRfeRestores : Obligations.EntryThenRfeRestores := by
  intro s e ret hc hsafe
  obtain ⟨u, hu, hrest⟩ := State.entered_rfe hc hsafe e ret
  exact ⟨_, u, State.enter_safe e ret hsafe, hu, hrest⟩

/-- Settles O50: the interrupt of smallest number is the first found (`State.readyInt_eq_find`); the one taken is
an entry (`State.takeInt_takes`). -/
theorem interruptAtTheBoundary : Obligations.InterruptAtTheBoundary := by
  refine ⟨fun s i => ?_, ?_⟩
  · rw [State.readyInt_eq_find, Fin.find?_eq_some_iff]
    simp only [← Bool.not_eq_true, State.intReady_iff]
    constructor
    · rintro ⟨⟨hpend, hie, hei⟩, hmin⟩
      exact ⟨hie, hei, hpend, fun j hj ⟨hej, hpj⟩ => hmin j hj ⟨hpj, hie, hej⟩⟩
    · rintro ⟨hie, hei, hpend, hmin⟩
      exact ⟨⟨hpend, hie, hei⟩, fun j hj ⟨hpj, _, hej⟩ => hmin j hj ⟨hej, hpj⟩⟩
  · rintro s b u i rfl hready hc rfl
    rw [step_of_readyInt hready]
    exact State.takeInt_takes hc i

/-- Settles O51: the entry clears RE and the boundary keeps it, so IE, DE and NP are 0 at the boundary. -/
theorem noInterruptAfterEntry : Obligations.NoInterruptAfterEntry := by
  rintro s t _ e ret ht rfl
  obtain ⟨-, rfl⟩ := State.enter_next_iff.mp ht
  have hre : (s.entered e ret).re = 0x0000 := s.entered_re e ret
  have hbre : (s.entered e ret).boundary.re = 0x0000 := (State.boundary_cell _ .re).trans hre
  have hflag := State.flag_of_re_zero hbre
  exact ⟨State.readyInt_of_re_zero hbre, hflag .ie, hflag .de, hflag .np,
    State.boundary_mem_of_de (State.flag_of_re_zero hre .de), State.gap_of_de (hflag .de)⟩

/-- Settles O52: one equation per event, gap and boundary; what a DMA write leaves is `State.byteAt_dma_write`. -/
theorem environmentEvents : Obligations.EnvironmentEvents := by
  intro s hc
  refine ⟨s.event_edge, fun x h => State.event_dma_off h x, fun a h => State.event_dma_on h _, fun a v x h => ?_,
    State.gap_of_de, fun accesses later hde hgaps => ?_, fun _ _ => State.boundary_cons⟩
  · rw [State.event_dma_on h]
    exact ⟨State.byteAt_dma_write hc a v x, (s.setByte a v).mem, rfl⟩
  · rw [State.gap_cons hde hgaps]
    exact (State.foldl_event_dma (s := { s with gaps := later }) hde accesses).symm

end
